-- ==== Sys2Proof/Word.lean ====
section
/-! DEFINITION. The two kinds of bit vector that cross the unit's ports (10_state.md R33).
Everything computed from them is in Machine/Bits.lean and the files after it. -/

namespace Sys2Proof

/-- A data port (`a`, `b`, `y`, `yh`). A unit has `W` of these lines, bit 0 the least significant
(R15). With `W = 32` the lines 63..32 do not exist: the model holds 0 there
(DESIGN CHOICE, log entry 1), and no operation reads them. -/
abbrev Word := BitVec 64

/-- A command word (R100). -/
abbrev Cmd := BitVec 16

end Sys2Proof
end

