-- ==== Sys2Proof/Config.lean ====
section
/-! DEFINITION. What is fixed when a unit is built (00_scope.md R10 to R14), as plain data that the
state carries and no step changes, and the free values: constants with no body, of which nothing
but their type is known. -/

namespace Sys2Proof

/-- The two widths the spec admits (R10). Another `W` has no term here: such a unit does not
exist (R401). -/
inductive Width where
  | w32
  | w64
  deriving DecidableEq, Repr

def Width.bits : Width → Nat
  | .w32 => 32
  | .w64 => 64

/-- The two format parameters `W` and `F` (R10, R11). -/
structure Format where
  width : Width
  frac : Nat
  deriving DecidableEq, Repr

namespace Format

/-- `W`, the width of a packed value (R10). -/
abbrev W (fmt : Format) : Nat := fmt.width.bits

/-- `F`, the number of fraction bits (R11). -/
abbrev F (fmt : Format) : Nat := fmt.frac

/-- `I`, the number of integer bits, sign included (R12). -/
abbrev I (fmt : Format) : Nat := fmt.W - fmt.F - 2

/-- `0 ≤ F ≤ W − 4`, which leaves at least two integer bits (R11). -/
def legal (fmt : Format) : Bool := decide (fmt.frac + 4 ≤ fmt.width.bits)

/-- Configuration of a unit from the numbers `W` and `F`: rejected unless `W` is 32 or 64 and `F` is
in range (R10, R11, R401). -/
def ofNumbers (W F : Nat) : Option Format :=
  if W = 32 ∧ F ≤ 28 then some { width := .w32, frac := F }
  else if W = 64 ∧ F ≤ 60 then some { width := .w64, frac := F }
  else none

end Format

/-- `NMAX`, the largest digit count of LIT (R13, R250). -/
def Width.nmax : Width → Nat
  | .w32 => 9
  | .w64 => 19

/-- The largest shift count of RSHRE, `W − 1` (R107, clause 5). -/
def Width.maxShift (w : Width) : Nat := w.bits - 1

/-- The largest selector of CONST (R107, clause 7). -/
def maxSelector : Nat := 11

/-- `TRANS_IMPL` (R14). `uninterpreted` is the spec's `opaque`. -/
inductive TransImpl where
  | reference
  | uninterpreted
  deriving DecidableEq, Repr

/-- When `cmd_ready` is 1 while `pending` has room, which R43 leaves to the implementation.
`leftOpen`: a free value at every edge (`Config.cmdReadyChoice`). `whenRoom`: 1 whenever there is
room and `RST_READY` cycles have passed since reset, the choice of the spec's own trace
(95_test_vectors.md, P6). -/
inductive ReadyPolicy where
  | whenRoom
  | leftOpen
  deriving DecidableEq, Repr

/-- `LAT` (R13, R420): for a legal command a function of its `OP`, for an illegal one a function of
its word. Each list holds (`OP` or word, cycles) pairs, first match wins; `other` is for what no
pair names. A value below 1 counts as 1. -/
structure Latencies where
  legal : List (Nat × Nat)
  illegal : List (Nat × Nat)
  other : Nat
  deriving DecidableEq, Repr

/-- Every parameter of a unit (R13). -/
structure Build where
  fmt : Format
  trans : TransImpl
  /-- `DEPTH` (R41). -/
  depth : Nat
  /-- `RST_READY` (R412). -/
  rstReady : Nat
  /-- `LAT` (R420). -/
  lat : Latencies
  /-- The choice R43 leaves to the implementation. -/
  ready : ReadyPolicy
  deriving DecidableEq, Repr

/-- A unit with these parameters exists: R11 for `F`, R41 for `DEPTH`. -/
def Build.supported (bld : Build) : Bool := bld.fmt.legal && decide (1 ≤ bld.depth)

namespace Config

/-- Free value: whether the unit is willing to accept at an edge, from the number of the edge and
the command words in flight, never from an operand (R43, R421). Log entry 5. -/
opaque cmdReadyChoice : Nat → List Cmd → Bool

/-- Free value: the number EXP computes for a value field (R14, R311). Log entry 8. -/
opaque expValue : Format → Int → Int

/-- Free value: the number LN computes for a magnitude (R14, R311). Log entry 8. -/
opaque lnValue : Format → Nat → Int

/-- Free value: the number LOG2 computes for a magnitude (R14, R311). Log entry 8. -/
opaque log2Value : Format → Nat → Int

/-- Free value: the number LOG10 computes for a magnitude (R14, R311). Log entry 8. -/
opaque log10Value : Format → Nat → Int

/-- Free value: the number SIN computes for a quadrant and a position in it (R14, R358).
Log entry 8. -/
opaque sinValue : Format → Nat → Nat → Int

/-- Free value: the number COS computes for a quadrant and a position in it (R14, R358).
Log entry 8. -/
opaque cosValue : Format → Nat → Nat → Int

/-- Free value: the number SINF computes for a quadrant and a position in it (R14, R358).
Log entry 8. -/
opaque sinfValue : Format → Nat → Nat → Int

end Config

end Sys2Proof
end

