-- ==== Sys2Proof/Machine/Bits.lean ====
section
/-! DEFINITION. The bit-field and sign-extension helpers of 00_scope.md R15 to R17 and
30_encoding.md R93, over port words of `W` lines. Every one reads the low `W` lines only. -/

namespace Sys2Proof.Machine

/-- `sext_N(x)`: the low `N` bits of `x` read as a two's-complement number (R17). -/
def sext (N : Nat) (x : Int) : Int :=
  let low := x % 2 ^ N
  if low < 2 ^ (N - 1) then low else low - 2 ^ N

/-- `zext_W` of a port word: the number on its `W` lines (R17). -/
def zext (W : Nat) (a : Word) : Nat := a.toNat % 2 ^ W

/-- `signed(w) = sext_W(w)` for a port word (R17). -/
def signed (W : Nat) (a : Word) : Int := sext W a.toNat

/-- `word(n) = n mod 2^W`, the pattern of an integer on a port (R17). -/
def word (W : Nat) (n : Int) : Word := BitVec.ofNat 64 (n % 2 ^ W).toNat

/-- The lines of a `W`-bit port that a value drives. -/
def onLines (W : Nat) (a : Word) : Word := BitVec.ofNat 64 (zext W a)

/-- `w[W−1]`, the top bit of a port word (R90). -/
def topBit (W : Nat) (a : Word) : Bool := a.getLsbD (W - 1)

/-- `INT_MAX` (R93). -/
def intMax (W : Nat) : Int := 2 ^ (W - 1) - 1

/-- `INT_MIN` (R93). -/
def intMin (W : Nat) : Int := -2 ^ (W - 1)

end Sys2Proof.Machine
end

