-- ==== Sys2Proof/Machine/Operands.lean ====
section
/-! DEFINITION. How a word is read as an operand and written as a result: the packed value
(30_encoding.md R80 to R92), its order key (40_classify.md R138), the result kinds (R94) and the
binary64 fields (R95). -/

namespace Sys2Proof.Machine

/-! ### Reading a packed value -/

/-- `tag(a) = a[1:0]` (R84). -/
def tag (a : Word) : BitVec 2 := a.extractLsb' 0 2

def isNormal (a : Word) : Bool := tag a == 0b00#2
def isNaN (a : Word) : Bool := tag a == 0b01#2
def isPInf (a : Word) : Bool := tag a == 0b10#2
def isNInf (a : Word) : Bool := tag a == 0b11#2
def isInf (a : Word) : Bool := isPInf a || isNInf a

/-- The value field `v(a) = sext_{W−2}(a[W−1:2])` (R85). -/
def v (fmt : Format) (a : Word) : Int := sext (fmt.W - 2) (a.toNat / 4 : Nat)

/-- R88. -/
def isZero (fmt : Format) (a : Word) : Bool := isNormal a && v fmt a == 0

/-- `neg(a)`, the sign of an operand of MUL or DIV, read from the tag of an Infinity and never asked
of a NaN (R89). -/
def neg (fmt : Format) (a : Word) : Bool :=
  if isNInf a then true else if isPInf a then false else decide (v fmt a < 0)

/-- The order key of a word that is no NaN (R138). -/
def key (fmt : Format) (a : Word) : Int × Int :=
  if isNInf a then (-1, 0) else if isPInf a then (1, 0) else (0, v fmt a)

/-- Keys compare lexicographically (R138). -/
def keyLt (p q : Int × Int) : Bool := decide (p.1 < q.1) || (p.1 == q.1 && decide (p.2 < q.2))

/-! ### Writing a packed value -/

/-- `VMAX` (R85). -/
def vmax (fmt : Format) : Int := 2 ^ (fmt.W - 3) - 1

/-- `VMIN` (R85). -/
def vmin (fmt : Format) : Int := -2 ^ (fmt.W - 3)

/-- The canonical NaN, `word(1)` (R83). -/
def NAN (fmt : Format) : Word := word fmt.W 1

/-- The canonical +Infinity, `word(2)` (R83). -/
def PINF (fmt : Format) : Word := word fmt.W 2

/-- The canonical −Infinity, `word(−1)` (R83). -/
def NINF (fmt : Format) : Word := word fmt.W (-1)

/-- `enc(n) = word(4 · n)` (R86). -/
def enc (fmt : Format) (n : Int) : Word := word fmt.W (4 * n)

/-- The word `ZERO` (R92). -/
def ZERO (fmt : Format) : Word := enc fmt 0

/-- The word `ONE` (R92). -/
def ONE (fmt : Format) : Word := enc fmt (2 ^ fmt.F)

/-- The Infinity of a sign. -/
def infOf (fmt : Format) (negative : Bool) : Word := if negative then NINF fmt else PINF fmt

/-! ### The other result kinds (R94) -/

/-- BOOL. -/
def boolWord (fmt : Format) (p : Bool) : Word := word fmt.W (if p then 1 else 0)

/-- INT. -/
def intWord (fmt : Format) (n : Int) : Word := word fmt.W n

/-! ### binary64 patterns (R95) -/

def dblSign (d : BitVec 64) : Bool := d.getLsbD 63
def dblExp (d : BitVec 64) : Nat := (d.extractLsb' 52 11).toNat
def dblFrac (d : BitVec 64) : Nat := (d.extractLsb' 0 52).toNat

/-- A pattern from its sign, biased exponent and fraction. -/
def dblPack (sign : Bool) (exponent fraction : Nat) : BitVec 64 :=
  BitVec.ofBool sign ++ (BitVec.ofNat 11 exponent ++ BitVec.ofNat 52 fraction)

/-- The binary64 pattern that the operand ports carry: `a` when `W = 64`, `{b, a}` when `W = 32`
(R62, R242). -/
def dblOperand (fmt : Format) (a b : Word) : BitVec 64 :=
  match fmt.width with
  | .w64 => a
  | .w32 => b.extractLsb' 0 32 ++ a.extractLsb' 0 32

end Sys2Proof.Machine
end

