-- ==== Sys2Proof/Machine/Flags.lean ====
section
/-! DEFINITION. The unit has no flag and no condition code (10_state.md R38). The one status of a
response is `ill`, set in Machine/Ops.lean. What stands here is the overflow detection that is
"consumed internally" (R38): the range test behind saturation (R87, R192, R204), and the
carry-based form the source uses for ADD and SUB (R165). -/

namespace Sys2Proof.Machine

/-- A number above the range of a value field. -/
def overflowsUp (fmt : Format) (n : Int) : Bool := decide (vmax fmt < n)

/-- A number below the range of a value field. -/
def overflowsDown (fmt : Format) (n : Int) : Bool := decide (n < vmin fmt)

/-- `sat(n)`: the saturating encode (R87). -/
def sat (fmt : Format) (n : Int) : Word :=
  if overflowsUp fmt n then PINF fmt
  else if overflowsDown fmt n then NINF fmt
  else enc fmt n

/-- The W-bit word sum of two value fields, wrapped to the value field (R165). -/
def wrapped (fmt : Format) (n : Int) : Int := sext (fmt.W - 2) n

/-- Carry-based overflow detection: two addends of the same sign whose wrapped sum has the other
sign (R165). For SUB the second addend is `−v(b)`. -/
def carryOverflow (fmt : Format) (x y : Int) : Bool :=
  decide (x < 0) == decide (y < 0) && decide (wrapped fmt (x + y) < 0) != decide (x < 0)

/-- The result of ADD and SUB by that detection: the Infinity of the addends' common sign, or the
wrapped sum (R165). -/
def carrySum (fmt : Format) (x y : Int) : Word :=
  if carryOverflow fmt x y then infOf fmt (decide (x < 0)) else enc fmt (wrapped fmt (x + y))

end Sys2Proof.Machine
end

