-- ==== Sys2Proof/Syntax.lean ====
section
/-! DEFINITION. The command set: one constructor for each of the 36 operations of 30_encoding.md
R105, which are all there are (R113). The operands `a` and `b` travel on ports beside the command
word (R33), so a constructor holds only what the word itself carries: the immediate of RSHRE and
CONST, the immediate and the sign of LIT (R102, R103). -/

namespace Sys2Proof

inductive Instr where
  | isneg
  | isnan
  | ispinf
  | isninf
  | eq
  | eqn
  | cmp
  | neg
  | abs
  | add
  | sub
  | mul
  | div
  | floor
  | ceil
  | rnde
  | rndhu
  | floori
  | ceili
  | rndei
  | rndhui
  /-- RSHRE with its shift count `s`. -/
  | rshre (s : BitVec 6)
  | todbl
  | fromdbl
  /-- LIT with its sign `S` (`true` is negative) and its digit count `n`. -/
  | lit (sign : Bool) (n : BitVec 6)
  /-- CONST with its selector `sel`. -/
  | const (sel : BitVec 6)
  | sqrt
  | exp
  | ln
  | log2
  | log10
  | pow
  | sin
  | cos
  | tan
  | sinf
  deriving DecidableEq, Repr

end Sys2Proof
end

