-- ==== Sys2Proof/WellFormed.lean ====
section
/-! DEFINITION. Which terms of `Instr` a command word can stand for on a unit of a given width: the
range limits of R107, clauses 5 to 7. -/

namespace Sys2Proof

/-- The immediate of RSHRE, LIT and CONST is within its range (R107). Every other constructor has
nothing that could be wrong. -/
def WellFormed (w : Width) : Instr → Bool
  | .rshre s => decide (s.toNat ≤ w.maxShift)
  | .lit _ n => decide (n.toNat ≤ w.nmax)
  | .const sel => decide (sel.toNat ≤ maxSelector)
  | .isneg | .isnan | .ispinf | .isninf | .eq | .eqn | .cmp
  | .neg | .abs | .add | .sub | .mul | .div
  | .floor | .ceil | .rnde | .rndhu | .floori | .ceili | .rndei | .rndhui
  | .todbl | .fromdbl
  | .sqrt | .exp | .ln | .log2 | .log10 | .pow
  | .sin | .cos | .tan | .sinf => true

end Sys2Proof
end

