-- ==== Sys2Proof/Decode.lean ====
section
/-! DEFINITION. The decoder (30_encoding.md R100 to R110) and, after it, the encoder. A command word
is the only encoded thing the unit reads; it has one format and one length (R109). -/

namespace Sys2Proof

/-- Why a command word is illegal: the seven clauses of R107. Each is answered with the
IllegalCommand response (R384). -/
inductive Illegal where
  /-- Clause 1: `OP` is reserved (R108). -/
  | reservedOp
  /-- Clause 2: `RSV` is not 000 (R104). -/
  | reservedBits
  /-- Clause 3: `S = 1` on an operation other than LIT (R103). -/
  | signNotLit
  /-- Clause 4: `IMM` is not 0 on an operation that takes none (R102). -/
  | immediateNotZero
  /-- Clause 5: the shift count of RSHRE is above `W − 1`. -/
  | shiftTooLarge
  /-- Clause 6: the digit count of LIT is above `NMAX`. -/
  | digitsTooMany
  /-- Clause 7: the selector of CONST is above 11. -/
  | selectorTooLarge
  deriving DecidableEq, Repr

/-- What the decoder reads from a command word. -/
inductive Decoded where
  | instr (i : Instr)
  | illegal (why : Illegal)
  deriving DecidableEq, Repr

/-- `OP`, bits 5..0 (R100). -/
def opField (c : Cmd) : BitVec 6 := c.extractLsb' 0 6

/-- `IMM`, bits 11..6, read unsigned (R100, R102). -/
def immField (c : Cmd) : BitVec 6 := c.extractLsb' 6 6

/-- `S`, bit 12 (R100, R103). -/
def signField (c : Cmd) : Bool := c.getLsbD 12

/-- `RSV`, bits 15..13 (R100, R104). -/
def rsvField (c : Cmd) : BitVec 3 := c.extractLsb' 13 3

/-- How an operation uses the fields beside `OP`: the three formats of R109. -/
inductive Form where
  /-- Format R0: `IMM = 0` and `S = 0`. -/
  | plain (i : Instr)
  /-- Format RI: `IMM` is an operand, `S = 0`. -/
  | shift
  | select
  /-- Format RIS: `IMM` and `S` are operands. -/
  | literal
  /-- A reserved `OP` (R108). -/
  | reserved
  deriving DecidableEq, Repr

/-- The opcode map (R105, R108, R109). -/
def opMap (op : BitVec 6) : Form :=
  match op.toNat with
  | 0x01 => .plain .isneg
  | 0x02 => .plain .isnan
  | 0x03 => .plain .ispinf
  | 0x04 => .plain .isninf
  | 0x05 => .plain .eq
  | 0x06 => .plain .eqn
  | 0x07 => .plain .cmp
  | 0x08 => .plain .neg
  | 0x09 => .plain .abs
  | 0x0A => .plain .add
  | 0x0B => .plain .sub
  | 0x0C => .plain .mul
  | 0x0D => .plain .div
  | 0x10 => .plain .floor
  | 0x11 => .plain .ceil
  | 0x12 => .plain .rnde
  | 0x13 => .plain .rndhu
  | 0x14 => .plain .floori
  | 0x15 => .plain .ceili
  | 0x16 => .plain .rndei
  | 0x17 => .plain .rndhui
  | 0x18 => .shift
  | 0x1C => .plain .todbl
  | 0x1D => .plain .fromdbl
  | 0x1E => .literal
  | 0x1F => .select
  | 0x20 => .plain .sqrt
  | 0x21 => .plain .exp
  | 0x22 => .plain .ln
  | 0x23 => .plain .log2
  | 0x24 => .plain .log10
  | 0x25 => .plain .pow
  | 0x28 => .plain .sin
  | 0x29 => .plain .cos
  | 0x2A => .plain .tan
  | 0x2B => .plain .sinf
  | _ => .reserved

/-- Every operation but LIT requires `S = 0` (R103; R107, clause 3). -/
def ifUnsigned (c : Cmd) (d : Decoded) : Decoded :=
  if signField c then .illegal .signNotLit else d

/-- The decoder: total on every word, for a unit of width `w` (R107, R110, R111). -/
def decode (w : Width) (c : Cmd) : Decoded :=
  if rsvField c ≠ 0#3 then .illegal .reservedBits
  else match opMap (opField c) with
    | .reserved => .illegal .reservedOp
    | .plain i =>
      ifUnsigned c (if immField c = 0#6 then .instr i else .illegal .immediateNotZero)
    | .shift =>
      ifUnsigned c (if (immField c).toNat ≤ w.maxShift then .instr (.rshre (immField c))
        else .illegal .shiftTooLarge)
    | .select =>
      ifUnsigned c (if (immField c).toNat ≤ maxSelector then .instr (.const (immField c))
        else .illegal .selectorTooLarge)
    | .literal =>
      if (immField c).toNat ≤ w.nmax then .instr (.lit (signField c) (immField c))
      else .illegal .digitsTooMany

/-- A command word from its four fields (R100), `RSV` being 000 (R104). -/
def fields (op : BitVec 6) (imm : BitVec 6) (sign : Bool) : Cmd :=
  0#3 ++ (BitVec.ofBool sign ++ (imm ++ op))

/-- The `OP` number of an operation (R105). -/
def opcode : Instr → BitVec 6
  | .isneg => 0x01#6
  | .isnan => 0x02#6
  | .ispinf => 0x03#6
  | .isninf => 0x04#6
  | .eq => 0x05#6
  | .eqn => 0x06#6
  | .cmp => 0x07#6
  | .neg => 0x08#6
  | .abs => 0x09#6
  | .add => 0x0A#6
  | .sub => 0x0B#6
  | .mul => 0x0C#6
  | .div => 0x0D#6
  | .floor => 0x10#6
  | .ceil => 0x11#6
  | .rnde => 0x12#6
  | .rndhu => 0x13#6
  | .floori => 0x14#6
  | .ceili => 0x15#6
  | .rndei => 0x16#6
  | .rndhui => 0x17#6
  | .rshre _ => 0x18#6
  | .todbl => 0x1C#6
  | .fromdbl => 0x1D#6
  | .lit _ _ => 0x1E#6
  | .const _ => 0x1F#6
  | .sqrt => 0x20#6
  | .exp => 0x21#6
  | .ln => 0x22#6
  | .log2 => 0x23#6
  | .log10 => 0x24#6
  | .pow => 0x25#6
  | .sin => 0x28#6
  | .cos => 0x29#6
  | .tan => 0x2A#6
  | .sinf => 0x2B#6

/-- The encoder: the command word of an instruction (R100 to R105, R109). -/
def encode (i : Instr) : Cmd :=
  match i with
  | .rshre s => fields (opcode i) s false
  | .lit sign n => fields (opcode i) n sign
  | .const sel => fields (opcode i) sel false
  | .isneg | .isnan | .ispinf | .isninf | .eq | .eqn | .cmp
  | .neg | .abs | .add | .sub | .mul | .div
  | .floor | .ceil | .rnde | .rndhu | .floori | .ceili | .rndei | .rndhui
  | .todbl | .fromdbl
  | .sqrt | .exp | .ln | .log2 | .log10 | .pow
  | .sin | .cos | .tan | .sinf => fields (opcode i) 0#6 false

/-- The host's question: what the decoder of the default width (`W = 64`, R10) reads from a table
word. Every instruction is one 16-bit word (R109), sent whole on the port `cmd`, so no byte order
arises (R61). -/
def decodeTableWord (nbits w : Nat) : Option Instr :=
  match decode .w64 (BitVec.ofNat 16 (w % 2 ^ nbits)) with
  | .instr i => some i
  | .illegal _ => none

end Sys2Proof
end

