-- ==== Sys2Proof/Machine/State.lean ====
section
/-! DEFINITION. All the state the spec gives the unit (10_state.md R33, R39, R41, R46; 70 R412,
R420), the host's side of the two channels, and the state after reset. Plain data throughout. The
unit has no register, no program counter, no flag, no mode and no memory (R35 to R39, R45). -/

namespace Sys2Proof.Machine

/-- One command in flight: the triple sampled at its transfer (R41), and how many edges must still
pass before its response may be offered (R420). -/
structure Entry where
  cmd : Cmd
  a : Word
  b : Word
  wait : Nat
  deriving DecidableEq, Repr

/-- One response, or the values of the ports `y`, `yh` and `ill` while `rsp_valid = 1` (R33). -/
structure Response where
  y : Word
  yh : Word
  ill : Bool
  deriving DecidableEq, Repr

/-- The host's pins at one rising edge of `clk` (R33). -/
structure EdgeInput where
  rst : Bool
  cmdValid : Bool
  cmd : Cmd
  a : Word
  b : Word
  rspReady : Bool
  deriving DecidableEq, Repr

structure State where
  /-- The parameters the unit was built with (R39, R46). -/
  build : Build
  /-- `pending`, oldest first (R41). -/
  pending : List Entry
  /-- `cmd_ready` as sampled at the latest edge (R33, R43). -/
  cmdReady : Bool
  /-- `rsp_valid` as sampled at the latest edge (R33, R43). -/
  rspValid : Bool
  /-- `y`, `yh` and `ill` as sampled at the latest edge; they have no value while `rsp_valid = 0`
  (R34). -/
  rsp : Option Response
  /-- `some k`: `cmd_ready` has not been 1 since reset and must be by the edge `k` edges ahead
  (R412). `none`: it has been 1. -/
  resetWait : Option Nat
  /-- The model's own: the host's pins at the edges to come (R31). -/
  inputs : List EdgeInput
  /-- The model's own: the responses the host has taken, oldest first (R31). -/
  delivered : List Response
  /-- The model's own: the number of the edge, which the free choice of `cmd_ready` is applied to
  (log entry 5). -/
  tick : Nat
  deriving DecidableEq, Repr

/-- Why the machine stops. The spec has no fault (R380); this is the model's own. -/
inductive Fault where
  /-- Raised by the meaning of an instruction when no command is in flight, so that it has no
  operands (R42: Respond is allowed when `pending` is not empty). Safe: `step` never asks for
  it. -/
  | nothingPending
  deriving DecidableEq, Repr

/-- Why a step has no meaning. -/
inductive Refusal where
  /-- Raised by `exec` for an instruction without a meaning. Safe. No instruction is left so. -/
  | notModelled (mnemonic : String)
  /-- Raised by `step` on parameters outside R11 and R41: no such unit exists (R401). Safe. -/
  | unsupportedBuild
  deriving DecidableEq, Repr

/-- What a step or an instruction answers. -/
abbrev Result := Host.Outcome State Fault Refusal

/-- The parameters of the unit in `State.reset`. `W` and `TRANS_IMPL` are the spec's defaults (R10,
R13). The others are open: `F` is that of 95_test_vectors.md, the rest those of its trace P6
(DESIGN CHOICE, log entry 2). No statement rests on them. -/
def resetBuild : Build where
  fmt := { width := .w64, frac := 32 }
  trans := .reference
  depth := 2
  rstReady := 1
  lat := { legal := [], illegal := [], other := 2 }
  ready := .whenRoom

/-- The unit right after an edge with `rst = 1` (R46, R410). -/
def State.reset : State where
  build := resetBuild
  pending := []
  cmdReady := false
  rspValid := false
  rsp := none
  resetWait := some resetBuild.rstReady
  inputs := []
  delivered := []
  tick := 0

end Sys2Proof.Machine
end

