-- ==== Sys2Proof/Machine/Ops.lean ====
section
/-! DEFINITION. The shared operations over the state: what the unit drives on its response ports,
the two steps of the transaction-level unit (10_state.md R42), the handshake (R43; 70 R412, R420)
and reset (R410). There is no trap to take and none to return from (R392, R393): the one
exceptional response is IllegalCommand (R384). -/

namespace Sys2Proof.Machine

/-! ### The response ports -/

/-- The unit drives a response: `rsp_valid = 1` and the values of `y`, `yh`, `ill` (R33). -/
def State.drive (s : State) (r : Response) : State := { s with rspValid := true, rsp := some r }

/-- `rsp_valid = 0`, and then `y`, `yh` and `ill` have no value (R34). -/
def State.quiet (s : State) : State := { s with rspValid := false, rsp := none }

/-- A legal command's response: `yh <- 0` and `ill <- 0` unless a rule says otherwise (R20, R112). -/
def resultY (y : Word) : Response := { y := y, yh := 0, ill := false }

/-- A legal command's response with both result words (R112: TODBL with `W = 32`). -/
def resultYH (y yh : Word) : Response := { y := y, yh := yh, ill := false }

/-- The IllegalCommand response: `y <- NAN`, `yh <- 0`, `ill <- 1` (R384). -/
def illegalResponse (fmt : Format) : Response := { y := NAN fmt, yh := 0, ill := true }

/-- The meaning of a command is a function of its operands and of the build alone (R40): drive that
function's value for the oldest command in flight, on whose operands the unit works. -/
def State.answer (s : State) (f : Build → Word → Word → Response) : Result :=
  match s.pending with
  | [] => .fault .nothingPending
  | e :: _ => .next (s.drive (f s.build e.a e.b))

/-- IllegalCommand, in place and in order: the command is not executed and nothing else changes
(R384, R392). -/
def raiseIllegal (s : State) : Result :=
  s.answer fun bld _ _ => illegalResponse bld.fmt

/-! ### Latency and the handshake -/

/-- `LAT`: a function of `OP` for a legal command and of the word for an illegal one, at least 1
(R420). -/
def latency (bld : Build) (c : Cmd) : Nat :=
  let cycles := match decode bld.fmt.width c with
    | .instr _ => (bld.lat.legal.lookup (opField c).toNat).getD bld.lat.other
    | .illegal _ => (bld.lat.illegal.lookup c.toNat).getD bld.lat.other
  max 1 cycles

/-- `pending` holds fewer than `DEPTH` entries (R43). -/
def State.hasRoom (s : State) : Bool := decide (s.pending.length < s.build.depth)

/-- `RST_READY` cycles have passed since reset, or `cmd_ready` has been 1 since (R412). -/
def State.readyOwed (s : State) : Bool := s.resetWait == some 0

/-- The part of `cmd_ready` that R43 leaves to the implementation. -/
def State.willing (s : State) : Bool :=
  match s.build.ready with
  | .whenRoom => s.resetWait.isNone || s.readyOwed
  | .leftOpen => s.readyOwed || Config.cmdReadyChoice s.tick (s.pending.map Entry.cmd)

/-- `cmd_ready` at an edge (R43, R412). -/
def State.cmdReadyAt (s : State) (inp : EdgeInput) : Bool :=
  !inp.rst && s.hasRoom && s.willing

/-- The oldest command in flight is due (R420). -/
def State.oldestDue (s : State) : Bool :=
  match s.pending with
  | [] => false
  | e :: _ => e.wait == 0

/-- `rsp_valid` at an edge (R43, R420). -/
def State.rspValidAt (s : State) (inp : EdgeInput) : Bool := !inp.rst && s.oldestDue

/-! ### The two steps of the transaction-level unit (R42), and reset -/

/-- Accept: the triple joins `pending`. At the next edge one cycle of its latency has passed. -/
def State.accept (s : State) (c : Cmd) (a b : Word) : State :=
  let W := s.build.fmt.W
  { s with pending := s.pending ++
      [{ cmd := c, a := onLines W a, b := onLines W b, wait := latency s.build c - 1 }] }

/-- The transfer half of Respond: the oldest triple leaves, and the host has the response that the
ports carry. -/
def State.transfer (s : State) : State :=
  { s with pending := s.pending.tail, delivered := s.delivered ++ s.rsp.toList }

/-- A cycle passes for every command in flight. -/
def State.age (s : State) : State :=
  { s with pending := s.pending.map fun e => { e with wait := e.wait - 1 } }

/-- The count of R412 after an edge at which `cmd_ready` had the value `ready`. -/
def nextResetWait (w : Option Nat) (ready : Bool) : Option Nat :=
  if ready then none else w.map (· - 1)

/-- An edge with `rst = 1`: `pending` is emptied, nothing transfers, `cmd_ready` and `rsp_valid` are
0 (R410, R411). -/
def State.resetEdge (s : State) : State :=
  { s with
    pending := []
    cmdReady := false
    rspValid := false
    rsp := none
    resetWait := some s.build.rstReady
    inputs := s.inputs.tail
    tick := s.tick + 1 }

/-- What an edge without reset does once the response ports are driven: the transfers for which
valid and ready are both 1 (R33), the response first, and the passing of the cycle. `ready` is
`cmd_ready` at this edge. -/
def State.finishEdge (s : State) (inp : EdgeInput) (ready : Bool) : State :=
  let taken := if s.rspValid && inp.rspReady then s.transfer else s
  let aged := taken.age
  let after := if inp.cmdValid && ready then aged.accept inp.cmd inp.a inp.b else aged
  { after with
    cmdReady := ready
    resetWait := nextResetWait s.resetWait ready
    inputs := s.inputs.tail
    tick := s.tick + 1 }

/-- The host's pins at an edge its script does not reach: no reset, nothing offered, responses taken
(DESIGN CHOICE, log entry 3). -/
def idleInput : EdgeInput :=
  { rst := false, cmdValid := false, cmd := 0, a := 0, b := 0, rspReady := true }

/-- The host's pins at this edge. -/
def State.input (s : State) : EdgeInput := s.inputs.headD idleInput

end Sys2Proof.Machine
end

