-- ==== Sys2Proof/Machine/AddSub.lean ====
section
/-! DEFINITION. The meanings of 41_addsub.md: NEG, ABS, ADD, SUB. Exact on value fields, saturating
(R160). -/

namespace Sys2Proof.Machine

/-- R161. -/
def negate (fmt : Format) (a : Word) : Word :=
  if isNaN a then NAN fmt
  else if isPInf a then NINF fmt
  else if isNInf a then PINF fmt
  else sat fmt (-v fmt a)

/-- R162. -/
def absolute (fmt : Format) (a : Word) : Word :=
  if isNaN a then NAN fmt
  else if isInf a then PINF fmt
  else sat fmt (v fmt a).natAbs

/-- R163. -/
def addition (fmt : Format) (a b : Word) : Word :=
  if isNaN a || isNaN b then NAN fmt
  else if isInf a && isInf b then
    if tag a == tag b then infOf fmt (isNInf a) else NAN fmt
  else if isInf a then infOf fmt (isNInf a)
  else if isInf b then infOf fmt (isNInf b)
  else sat fmt (v fmt a + v fmt b)

/-- R164. -/
def subtraction (fmt : Format) (a b : Word) : Word :=
  if isNaN a || isNaN b then NAN fmt
  else if isInf a && isInf b then
    if tag a == tag b then NAN fmt else infOf fmt (isNInf a)
  else if isInf a then infOf fmt (isNInf a)
  else if isInf b then infOf fmt (isPInf b)
  else sat fmt (v fmt a - v fmt b)

/-- NEG (R161). -/
def execNeg (s : State) : Result :=
  s.answer fun bld a _ => resultY (negate bld.fmt a)

/-- ABS (R162). -/
def execAbs (s : State) : Result :=
  s.answer fun bld a _ => resultY (absolute bld.fmt a)

/-- ADD (R163). -/
def execAdd (s : State) : Result :=
  s.answer fun bld a b => resultY (addition bld.fmt a b)

/-- SUB (R164). -/
def execSub (s : State) : Result :=
  s.answer fun bld a b => resultY (subtraction bld.fmt a b)

end Sys2Proof.Machine
end

