-- ==== Sys2Proof/Machine/Classify.lean ====
section
/-! DEFINITION. The meanings of 40_classify.md: ISNEG, ISNAN, ISPINF, ISNINF, EQ, EQN, CMP. -/

namespace Sys2Proof.Machine

/-- R135. Two normals are compared by their words. -/
def equals (fmt : Format) (a b : Word) : Bool :=
  if isNaN a || isNaN b then false
  else if isPInf a && isPInf b then true
  else if isNInf a && isNInf b then true
  else if isNormal a && isNormal b then zext fmt.W a == zext fmt.W b
  else false

/-- R136. -/
def equalsWithNaN (fmt : Format) (a b : Word) : Bool :=
  if isNaN a && isNaN b then true else equals fmt a b

/-- The ORD of two words: −1, 0 or 1 (R137, R138). -/
def compare (fmt : Format) (a b : Word) : Int :=
  if isNaN a || isNaN b then 1
  else if keyLt (key fmt a) (key fmt b) then -1
  else if keyLt (key fmt b) (key fmt a) then 1
  else 0

/-- ISNEG (R131): the top bit, whatever the tag. -/
def execIsneg (s : State) : Result :=
  s.answer fun bld a _ => resultY (boolWord bld.fmt (topBit bld.fmt.W a))

/-- ISNAN (R132). -/
def execIsnan (s : State) : Result :=
  s.answer fun bld a _ => resultY (boolWord bld.fmt (isNaN a))

/-- ISPINF (R133). -/
def execIspinf (s : State) : Result :=
  s.answer fun bld a _ => resultY (boolWord bld.fmt (isPInf a))

/-- ISNINF (R134). -/
def execIsninf (s : State) : Result :=
  s.answer fun bld a _ => resultY (boolWord bld.fmt (isNInf a))

/-- EQ (R135). -/
def execEq (s : State) : Result :=
  s.answer fun bld a b => resultY (boolWord bld.fmt (equals bld.fmt a b))

/-- EQN (R136). -/
def execEqn (s : State) : Result :=
  s.answer fun bld a b => resultY (boolWord bld.fmt (equalsWithNaN bld.fmt a b))

/-- CMP (R137). -/
def execCmp (s : State) : Result :=
  s.answer fun bld a b => resultY (word bld.fmt.W (compare bld.fmt a b))

end Sys2Proof.Machine
end

