-- ==== Sys2Proof/Machine/Rounding.lean ====
section
/-! DEFINITION. The rounding primitives of 43_round_convert.md §1 (R221 to R224), on unbounded
integers (R16): `x >>> s` is `floor(x / 2^s)`. -/

namespace Sys2Proof.Machine

/-- The bit length of a magnitude; 0 for 0. -/
def bitlen (n : Nat) : Nat := if n = 0 then 0 else n.log2 + 1

/-- `q[0] = 1`. -/
def isOdd (q : Int) : Bool := q % 2 == 1

/-- `RTE(x, s)`, the round-to-even right shift (R221). The first branch is R221's own bound on `s`:
a count of at least `bitlen(|x|) + 2` leaves 0. It keeps a huge count from being computed with. -/
def rte (x : Int) (s : Nat) : Int :=
  if bitlen x.natAbs + 2 ≤ s then 0
  else if s = 0 then x
  else
    let q := x >>> s
    let r := x - q * 2 ^ s
    let half : Int := 2 ^ (s - 1)
    if r > half ∨ (r = half ∧ isOdd q) then q + 1 else q

/-- `RNE(n, d)` for `d > 0`: the nearest integer to `n / d`, ties to even (R222). -/
def rnePos (n d : Int) : Int :=
  let q := n / d
  let r := n - q * d
  if 2 * r > d ∨ (2 * r = d ∧ isOdd q) then q + 1 else q

/-- `RNE(n, d)` for `d ≠ 0` (R222). -/
def rne (n d : Int) : Int := if d < 0 then rnePos (-n) (-d) else rnePos n d

/-- `RHU(x, s)`, round half away from zero (R223). -/
def rhu (x : Int) (s : Nat) : Int :=
  if s = 0 then x
  else if 0 ≤ x then (x + 2 ^ (s - 1)) >>> s
  else -((-x + 2 ^ (s - 1)) >>> s)

/-- `FL(x)` (R224). -/
def fl (fmt : Format) (x : Int) : Int := x >>> fmt.F

/-- `CE(x)` (R224). -/
def ce (fmt : Format) (x : Int) : Int := -((-x) >>> fmt.F)

/-- `RE(x)` (R224). -/
def re (fmt : Format) (x : Int) : Int := rte x fmt.F

/-- `RH(x)` (R224). -/
def rh (fmt : Format) (x : Int) : Int := rhu x fmt.F

end Sys2Proof.Machine
end

