-- ==== Sys2Proof/Machine/MulDiv.lean ====
section
/-! DEFINITION. The meanings of 42_muldiv.md: MUL, DIV. One exact wide intermediate, rounded once to
even, saturated after the rounding (R190, R192, R204). -/

namespace Sys2Proof.Machine

/-- R191. -/
def multiply (fmt : Format) (a b : Word) : Word :=
  if isNaN a || isNaN b then NAN fmt
  else if isInf a || isInf b then
    if isZero fmt a || isZero fmt b then NAN fmt
    else infOf fmt (neg fmt a != neg fmt b)
  else sat fmt (rte (v fmt a * v fmt b) fmt.F)

/-- R200, with the zero-divisor guard of R203. -/
def divide (fmt : Format) (a b : Word) : Word :=
  if isNaN a || isNaN b then NAN fmt
  else if isInf a && isInf b then NAN fmt
  else if isInf a then infOf fmt (neg fmt a != neg fmt b)
  else if isInf b then ZERO fmt
  else if v fmt b = 0 then
    if v fmt a = 0 then NAN fmt else infOf fmt (decide (v fmt a < 0))
  else sat fmt (rne (v fmt a * 2 ^ fmt.F) (v fmt b))

/-- MUL (R191). -/
def execMul (s : State) : Result :=
  s.answer fun bld a b => resultY (multiply bld.fmt a b)

/-- DIV (R200). -/
def execDiv (s : State) : Result :=
  s.answer fun bld a b => resultY (divide bld.fmt a b)

end Sys2Proof.Machine
end

