-- ==== Sys2Proof/Machine/Tables.lean ====
section
/-! DEFINITION. The read-only constant tables (10_state.md R44). They are the same for every unit of
a given width, no command writes them and reset does not touch them, so they are definitions. -/

namespace Sys2Proof.Machine

/-! ### The master constants, 128 fraction bits (R257) -/

def mPi : Int := 0x3243F6A8885A308D313198A2E03707345
def mTau : Int := 0x6487ED5110B4611A62633145C06E0E689
def mE : Int := 0x2B7E151628AED2A6ABF7158809CF4F3C7
def mLn2 : Int := 0xB17217F7D1CF79ABC9E3B39803F2F6AF
def mLog10of2 : Int := 0x4D104D427DE7FBCC47C4ACD605BE48BC
def mLog2E : Int := 0x171547652B82FE1777D0FFDA0D23A7D12
def mInvTau : Int := 0x28BE60DB9391054A7F09D5F47D4D3770

/-- A constant of the spec with `k` fraction bits (R257). -/
def fromMaster (m : Int) (k : Nat) : Int := rte m (128 - k)

/-! ### EXP and the logarithms (R285, R286) -/

/-- `Q`, the internal fraction bits (R13, R285). -/
def qBits (fmt : Format) : Nat := fmt.W + 16

/-- `LOG2E_Q` (R285). -/
def log2eQ (fmt : Format) : Int := fromMaster mLog2E (qBits fmt)

/-- `LN2_Q` (R285). -/
def ln2Q (fmt : Format) : Int := fromMaster mLn2 (qBits fmt)

/-- `LG2_Q` (R285). -/
def lg2Q (fmt : Format) : Int := fromMaster mLog10of2 (qBits fmt)

/-- `EXP2_MASTER[1..16]` (R286). -/
def exp2MastersA : List Nat :=
  [0x16A09E667F3BCC908B2FB1366EA957D3E, 0x1306FE0A31B7152DE8D5A46305C85EDED,
   0x1172B83C7D517ADCDF7C8C50EB14A7920, 0x10B5586CF9890F6298B92B71842A98364,
   0x1059B0D31585743AE7C548EB68CA417FE, 0x102C9A3E778060EE6F7CACA4F7A29BDE9,
   0x10163DA9FB33356D84A66AE336DCDFA40, 0x100B1AFA5ABCBED6129AB13EC11DC9544,
   0x10058C86DA1C09EA1FF19D294CF2F679C, 0x1002C605E2E8CEC506D21BFC89A23A011,
   0x100162F3904051FA128BCA9C55C31E5E0, 0x1000B175EFFDC76BA38E31671CA939726,
   0x100058BA01FB9F96D6CACD4B180917C3E, 0x10002C5CC37DA9491D0985C348C68E7B4,
   0x1000162E525EE054754457D5995292027, 0x10000B17255775C040618BF4A4ADE83FD]

/-- `EXP2_MASTER[17..32]` (R286). -/
def exp2MastersB : List Nat :=
  [0x1000058B91B5BC9AE2EED81E9B7D4CFAC, 0x100002C5C89D5EC6CA4D7C8ACC017B7CA,
   0x10000162E43F4F831060E02D839A9D16D, 0x100000B1721BCFC99D9F890EA06911763,
   0x10000058B90CF1E6D97F9CA14DBCC1629, 0x1000002C5C863B73F016468F6BAC5CA2C,
   0x100000162E430E5A18F6119E3C02282A6, 0x1000000B1721835514B86E6D96EFD1BFF,
   0x100000058B90C0B48C6BE5DF846C5B2F0, 0x10000002C5C8601CC6B9E94213C72737B,
   0x1000000162E42FFF037DF38AA2B219F07, 0x10000000B17217FBA9C739AA5819F44FA,
   0x1000000058B90BFCDEE5ACD3C1CEDC824, 0x100000002C5C85FE31F35A6A30DA1BE51,
   0x10000000162E42FF0999CE3541B9FFFD0, 0x100000000B17217F80F4EF5AADDA45554]

/-- `EXP2_MASTER[33..48]` (R286). -/
def exp2MastersC : List Nat :=
  [0x10000000058B90BFBF8479BD5A81B51AE, 0x1000000002C5C85FDF84BD62AE30A74CD,
   0x100000000162E42FEFB2FED257559BDAA, 0x1000000000B17217F7D5A7716BBA4A9AF,
   0x100000000058B90BFBE9DDBAC5E109CCF, 0x10000000002C5C85FDF4B15DE6F17EB0E,
   0x1000000000162E42FEFA494F1478FDE05, 0x10000000000B17217F7D20CF927C8E94D,
   0x1000000000058B90BFBE8F71CB4E4B33E, 0x100000000002C5C85FDF477B662B26946,
   0x10000000000162E42FEFA3AE53369388D, 0x100000000000B17217F7D1D351A389D41,
   0x10000000000058B90BFBE8E8B2D3D4EDF, 0x1000000000002C5C85FDF4741BEA6E77F,
   0x100000000000162E42FEFA39FE95583C3, 0x1000000000000B17217F7D1CFB72B45E3]

/-- `EXP2_MASTER[49..64]` (R286). -/
def exp2MastersD : List Nat :=
  [0x100000000000058B90BFBE8E7CC35C3F2, 0x10000000000002C5C85FDF473E242EA39,
   0x1000000000000162E42FEFA39F02B772C, 0x10000000000000B17217F7D1CF7D83C1A,
   0x1000000000000058B90BFBE8E7BDCBE2E, 0x100000000000002C5C85FDF473DEA871F,
   0x10000000000000162E42FEFA39EF44D92, 0x100000000000000B17217F7D1CF79E949,
   0x10000000000000058B90BFBE8E7BCE545, 0x1000000000000002C5C85FDF473DE6ECA,
   0x100000000000000162E42FEFA39EF366F, 0x1000000000000000B17217F7D1CF79AFA,
   0x100000000000000058B90BFBE8E7BCD6E, 0x10000000000000002C5C85FDF473DE6B3,
   0x1000000000000000162E42FEFA39EF359, 0x10000000000000000B17217F7D1CF79AC]

/-- `EXP2_MASTER[65..80]` (R286). -/
def exp2MastersE : List Nat :=
  [0x1000000000000000058B90BFBE8E7BCD6, 0x100000000000000002C5C85FDF473DE6B,
   0x10000000000000000162E42FEFA39EF35, 0x100000000000000000B17217F7D1CF79B,
   0x10000000000000000058B90BFBE8E7BCD, 0x1000000000000000002C5C85FDF473DE7,
   0x100000000000000000162E42FEFA39EF3, 0x1000000000000000000B17217F7D1CF7A,
   0x100000000000000000058B90BFBE8E7BD, 0x10000000000000000002C5C85FDF473DE,
   0x1000000000000000000162E42FEFA39EF, 0x10000000000000000000B17217F7D1CF8,
   0x1000000000000000000058B90BFBE8E7C, 0x100000000000000000002C5C85FDF473E,
   0x10000000000000000000162E42FEFA39F, 0x100000000000000000000B17217F7D1CF]

/-- `EXP2_MASTER[1..80]` (R286). -/
def exp2Masters : List Nat :=
  exp2MastersA ++ exp2MastersB ++ exp2MastersC ++ exp2MastersD ++ exp2MastersE

/-- `EXP2_Q[1..Q]` (R286). -/
def exp2Q (fmt : Format) : List Int :=
  (exp2Masters.take (qBits fmt)).map fun m => fromMaster m (qBits fmt)

/-! ### The CORDIC engine and the angle reduction (R331 to R333) -/

/-- `C`, the fraction bits of the datapath (R331). -/
def cordicBits : Nat := 28

/-- `ATAN[0..27]` (R332). -/
def atanTable : List Int :=
  [210828714, 124459457, 65760959, 33381290, 16755422, 8385879, 4193963,
   2097109, 1048571, 524287, 262144, 131072, 65536, 32768,
   16384, 8192, 4096, 2048, 1024, 512, 256,
   128, 64, 32, 16, 8, 4, 2]

/-- `KGAIN` (R332). -/
def kGain : Int := 163008219

/-- `KT`, the fraction bits of a reduced angle in turns (R333). -/
def ktBits : Nat := 32

/-- `TAU_S` (R333). -/
def tauBits : Nat := 32

/-- `R_INV` (R333). -/
def invTauBits (fmt : Format) : Nat := fmt.W + 48

/-- `INV_TAU_R` (R333). -/
def invTauR (fmt : Format) : Int := fromMaster mInvTau (invTauBits fmt)

/-- `TAU_32` (R333). -/
def tau32 : Int := fromMaster mTau tauBits

/-! ### The fast sine (R350) -/

/-- `SINF_C3`. -/
def sinfC3 : Int := 44739243

/-- `SINF_C5`. -/
def sinfC5 : Int := 2236962

/-- `SINF_C7`. -/
def sinfC7 : Int := 53261

/-- `HALFPI_C`. -/
def halfPiC : Int := 421657428

end Sys2Proof.Machine
end

