-- ==== Sys2Proof/Machine/RoundConvert.lean ====
section
/-! DEFINITION. The meanings of 43_round_convert.md: FLOOR, CEIL, RNDE, RNDHU, FLOORI, CEILI, RNDEI,
RNDHUI, RSHRE, TODBL, FROMDBL, LIT, CONST. -/

namespace Sys2Proof.Machine

/-! ### The round-base helper (R225) -/

/-- The FIX column of R225: specials pass through as their canonical patterns; the integer part
`part` of a normal is encoded and saturates. -/
def roundFix (fmt : Format) (part : Int → Int) (a : Word) : Word :=
  if isNaN a then NAN fmt
  else if isPInf a then PINF fmt
  else if isNInf a then NINF fmt
  else sat fmt (part (v fmt a) * 2 ^ fmt.F)

/-- The INT column of R225, with its sentinels. -/
def roundInt (fmt : Format) (part : Int → Int) (a : Word) : Word :=
  if isNaN a then intWord fmt (intMax fmt.W)
  else if isPInf a then intWord fmt (intMax fmt.W)
  else if isNInf a then intWord fmt (intMin fmt.W)
  else intWord fmt (part (v fmt a))

/-- FLOOR (R230). -/
def execFloor (s : State) : Result :=
  s.answer fun bld a _ => resultY (roundFix bld.fmt (fl bld.fmt) a)

/-- CEIL (R231). -/
def execCeil (s : State) : Result :=
  s.answer fun bld a _ => resultY (roundFix bld.fmt (ce bld.fmt) a)

/-- RNDE (R232). -/
def execRnde (s : State) : Result :=
  s.answer fun bld a _ => resultY (roundFix bld.fmt (re bld.fmt) a)

/-- RNDHU (R233). -/
def execRndhu (s : State) : Result :=
  s.answer fun bld a _ => resultY (roundFix bld.fmt (rh bld.fmt) a)

/-- FLOORI (R234). -/
def execFloori (s : State) : Result :=
  s.answer fun bld a _ => resultY (roundInt bld.fmt (fl bld.fmt) a)

/-- CEILI (R235). -/
def execCeili (s : State) : Result :=
  s.answer fun bld a _ => resultY (roundInt bld.fmt (ce bld.fmt) a)

/-- RNDEI (R236). -/
def execRndei (s : State) : Result :=
  s.answer fun bld a _ => resultY (roundInt bld.fmt (re bld.fmt) a)

/-- RNDHUI (R237). -/
def execRndhui (s : State) : Result :=
  s.answer fun bld a _ => resultY (roundInt bld.fmt (rh bld.fmt) a)

/-- RSHRE (R238): the tag bits of `a` are ordinary integer bits here. A count above `W − 1` is an
illegal command (R107). -/
def execRshre (count : BitVec 6) (s : State) : Result :=
  if count.toNat ≤ s.build.fmt.width.maxShift then
    s.answer fun bld a _ => resultY (intWord bld.fmt (rte (signed bld.fmt.W a) count.toNat))
  else raiseIllegal s

/-! ### binary64 (R240 to R242) -/

/-- The pattern nearest to `n / 2^F` for a magnitude `n ≠ 0`, ties to the even significand: the
significand is the top 53 bits of `n`, rounded when `n` has more (R240, R241). -/
def dblOfMagnitude (fmt : Format) (sign : Bool) (n : Nat) : BitVec 64 :=
  let e := n.log2
  let sig := if e ≤ 52 then n * 2 ^ (52 - e) else (rte n (e - 52)).toNat
  let e' := if sig = 2 ^ 53 then e + 1 else e
  dblPack sign (e' + 1023 - fmt.F) (if sig = 2 ^ 53 then 0 else sig - 2 ^ 52)

/-- The binary64 pattern of a FIX word (R240). -/
def toDouble (fmt : Format) (a : Word) : BitVec 64 :=
  if isNaN a then 0x7FF8000000000000#64
  else if isPInf a then 0x7FF0000000000000#64
  else if isNInf a then 0xFFF0000000000000#64
  else if v fmt a = 0 then 0#64
  else dblOfMagnitude fmt (decide (v fmt a < 0)) (v fmt a).natAbs

/-- The response that carries a binary64 pattern: whole in `y` when `W = 64`, split over `y` and
`yh` when `W = 32` (R62, R240). -/
def resultDbl (fmt : Format) (d : BitVec 64) : Response :=
  match fmt.width with
  | .w64 => resultY d
  | .w32 => resultYH ((d.extractLsb' 0 32).setWidth 64) ((d.extractLsb' 32 32).setWidth 64)

/-- The exact value of a finite pattern is `(−1)^sign · m · 2^(k − 1075)` for this `m` and `k`
(R95). -/
def dblParts (d : BitVec 64) : Nat × Nat :=
  if dblExp d = 0 then (dblFrac d, 1) else (2 ^ 52 + dblFrac d, dblExp d)

/-- The FIX word of a binary64 pattern (R242). -/
def fromDouble (fmt : Format) (d : BitVec 64) : Word :=
  if dblExp d = 2047 then
    if dblFrac d ≠ 0 then NAN fmt else infOf fmt (dblSign d)
  else
    let m : Int := if dblSign d then -((dblParts d).1 : Int) else (dblParts d).1
    let k := (dblParts d).2 + fmt.F
    sat fmt (rne (m * 2 ^ (k - 1075)) (2 ^ (1075 - k)))

/-- TODBL (R240). -/
def execTodbl (s : State) : Result :=
  s.answer fun bld a _ => resultDbl bld.fmt (toDouble bld.fmt a)

/-- FROMDBL (R242). -/
def execFromdbl (s : State) : Result :=
  s.answer fun bld a b => resultY (fromDouble bld.fmt (dblOperand bld.fmt a b))

/-! ### Literals and constants (R250, R255 to R258) -/

/-- A number written to a value field modulo `2^(W−2)`, never saturating (R250, R258). -/
def encWrapped (fmt : Format) (n : Int) : Word := enc fmt (sext (fmt.W - 2) n)

/-- R250. -/
def literal (fmt : Format) (sign : Bool) (n : Nat) (a b : Word) : Word :=
  let frac := rne (zext fmt.W b * 2 ^ fmt.F) (10 ^ n)
  let m := zext fmt.W a * 2 ^ fmt.F + frac
  encWrapped fmt (if sign then -m else m)

/-- The constant table (R256); `none` above selector 11. -/
def constant (fmt : Format) (sel : Nat) : Option Word :=
  match sel with
  | 0 => some (ZERO fmt)
  | 1 => some (ONE fmt)
  | 2 => some (enc fmt 1)
  | 3 => some (enc fmt (-1))
  | 4 => some (enc fmt (vmin fmt))
  | 5 => some (enc fmt (vmax fmt))
  | 6 => some (encWrapped fmt (fromMaster mPi fmt.F))
  | 7 => some (encWrapped fmt (fromMaster mTau fmt.F))
  | 8 => some (encWrapped fmt (fromMaster mE fmt.F))
  | 9 => some (NAN fmt)
  | 10 => some (PINF fmt)
  | 11 => some (NINF fmt)
  | _ => none

/-- LIT (R250). A digit count above `NMAX` is an illegal command (R107). -/
def execLit (sign : Bool) (n : BitVec 6) (s : State) : Result :=
  if n.toNat ≤ s.build.fmt.width.nmax then
    s.answer fun bld a b => resultY (literal bld.fmt sign n.toNat a b)
  else raiseIllegal s

/-- CONST (R255). A selector above 11 is an illegal command (R107). -/
def execConst (sel : BitVec 6) (s : State) : Result :=
  match constant s.build.fmt sel.toNat with
  | some y => s.answer fun _ _ _ => resultY y
  | none => raiseIllegal s

end Sys2Proof.Machine
end

