-- ==== Sys2Proof/Machine/Transcendental.lean ====
section
/-! DEFINITION. The meanings of 44_transcendental.md: SQRT, EXP, LN, LOG2, LOG10, POW, by the
reference algorithms, and by free values within R311 when `TRANS_IMPL` is `opaque` (00_scope.md
R14). -/

namespace Sys2Proof.Machine

/-! ### Square root (R280, R281) -/

/-- The integer square root, one result bit a step from bit `k − 1` down (R281): `r` holds the bits
found so far. -/
def isqrtBits (N : Nat) : Nat → Nat → Nat
  | 0, r => r
  | k + 1, r => isqrtBits N k (if (r + 2 ^ k) ^ 2 ≤ N then r + 2 ^ k else r)

/-- `floor(sqrt(N))` in `W − 3` steps, for `N < 2^(2W−6)` (R281). -/
def isqrt (fmt : Format) (N : Nat) : Nat := isqrtBits N (fmt.W - 3) 0

/-- R280. -/
def squareRoot (fmt : Format) (a : Word) : Word :=
  if isNaN a || isNInf a then NAN fmt
  else if isPInf a then PINF fmt
  else if v fmt a < 0 then NAN fmt
  else
    let N := (v fmt a).toNat * 2 ^ fmt.F
    let r := isqrt fmt N
    enc fmt (if N - r ^ 2 > r then r + 1 else r : Nat)

/-! ### Exponential (R287, R288) -/

/-- The loop of R287: for each fraction bit of `f`, from the top, one factor of the table. `k` is
the number of bits still to read. -/
def expLoop (Q : Nat) (f : Nat) : Nat → List Int → Int → Int
  | k + 1, c :: cs, Y => expLoop Q f k cs (if f.testBit k then rte (Y * c) Q else Y)
  | _, _, Y => Y

/-- `EXP_REF` on a value field (R287). -/
def expRef (fmt : Format) (x : Int) : Word :=
  let Q := qBits fmt
  let T := rte (x * log2eQ fmt) fmt.F
  let n := T >>> Q
  let f := T - n * 2 ^ Q
  let Y := expLoop Q f.toNat Q (exp2Q fmt) (2 ^ Q)
  let s := (Q : Int) - fmt.F - n
  if s < -(fmt.W : Int) then PINF fmt
  else
    let R := if 0 ≤ s then rte Y s.toNat else Y * 2 ^ (-s).toNat
    if R > vmax fmt then PINF fmt else enc fmt R

/-- EXP of a value field when it is not interpreted (R311): `EXP(ZERO) = ONE`, else `PINF` or a
normal with `v ≥ 0`, and nothing more. -/
def expOpen (fmt : Format) (x : Int) : Word :=
  if x = 0 then ONE fmt
  else if Config.expValue fmt x > vmax fmt then PINF fmt
  else enc fmt (max (Config.expValue fmt x) 0)

/-- EXP of a word (R288). -/
def exponential (bld : Build) (a : Word) : Word :=
  if isNaN a then NAN bld.fmt
  else if isPInf a then PINF bld.fmt
  else if isNInf a then ZERO bld.fmt
  else match bld.trans with
    | .reference => expRef bld.fmt (v bld.fmt a)
    | .uninterpreted => expOpen bld.fmt (v bld.fmt a)

/-! ### Logarithms (R295 to R299) -/

/-- The squaring loop of R295: `k` fraction bits still to find, `L` those found. -/
def log2Loop (Q : Nat) : Nat → Int → Int → Int
  | 0, _, L => L
  | k + 1, Y, L =>
    let Y := rte (Y * Y) Q
    if Y ≥ 2 ^ (Q + 1) then log2Loop Q k (rte Y 1) (L + 2 ^ k) else log2Loop Q k Y L

/-- `LOG2_CORE(m)` for `m ≥ 1` (R295). -/
def log2Core (fmt : Format) (m : Nat) : Int :=
  let Q := qBits fmt
  let e := bitlen m - 1
  ((e : Int) - fmt.F) * 2 ^ Q + log2Loop Q Q (m * 2 ^ (Q - e)) 0

/-- The three logarithms. -/
inductive LogBase where
  | two
  | e
  | ten
  deriving DecidableEq, Repr

/-- The reference result for a magnitude `m ≥ 1` (R297 to R299). -/
def logRef (fmt : Format) (base : LogBase) (m : Nat) : Word :=
  let L := log2Core fmt m
  let Q := qBits fmt
  match base with
  | .two => sat fmt (rte L (Q - fmt.F))
  | .e => sat fmt (rte (L * ln2Q fmt) (2 * Q - fmt.F))
  | .ten => sat fmt (rte (L * lg2Q fmt) (2 * Q - fmt.F))

/-- A number brought to the sign that the logarithm of `m` has (R311). -/
def clampLog (fmt : Format) (m : Nat) (x : Int) : Int :=
  if 2 ^ fmt.F ≤ m then max x 0 else min x 0

/-- The logarithm of a magnitude when it is not interpreted (R311): `ZERO` at one; for base 2 exact
at every power of two whose logarithm is representable; else of the right sign, and nothing
more. -/
def logOpen (fmt : Format) (base : LogBase) (m : Nat) : Word :=
  let exact := ((m.log2 : Int) - fmt.F) * 2 ^ fmt.F
  match base with
  | .two =>
    if m = 2 ^ m.log2 ∧ vmin fmt ≤ exact ∧ exact ≤ vmax fmt then enc fmt exact
    else sat fmt (clampLog fmt m (Config.log2Value fmt m))
  | .e => if m = 2 ^ fmt.F then ZERO fmt else sat fmt (clampLog fmt m (Config.lnValue fmt m))
  | .ten => if m = 2 ^ fmt.F then ZERO fmt else sat fmt (clampLog fmt m (Config.log10Value fmt m))

/-- The logarithm of a magnitude `m ≥ 1`. -/
def logOf (bld : Build) (base : LogBase) (m : Nat) : Word :=
  match bld.trans with
  | .reference => logRef bld.fmt base m
  | .uninterpreted => logOpen bld.fmt base m

/-- LN, LOG2 or LOG10 of a word, with the special values of R296. -/
def logarithm (bld : Build) (base : LogBase) (a : Word) : Word :=
  if isNaN a then NAN bld.fmt
  else if isPInf a then PINF bld.fmt
  else if isNInf a then NAN bld.fmt
  else if v bld.fmt a < 0 then NAN bld.fmt
  else if v bld.fmt a = 0 then NINF bld.fmt
  else logOf bld base (v bld.fmt a).toNat

/-! ### Power (R305, R306) -/

/-- `LNM(a)`, the logarithm of the magnitude of a negative base (R306), taken on the integer
`−v(a)`. -/
def lnMagnitude (bld : Build) (a : Word) : Word :=
  if isNInf a then PINF bld.fmt else logOf bld .e (-v bld.fmt a).toNat

/-- `POW(x, ZERO)` for a normal `x ≠ 0`: ONE, whatever the logarithm of `x` (R305, corner cases; R307;
R308). -/
def zeroExponent (fmt : Format) (a b : Word) : Bool := isNormal a && !isZero fmt a && isZero fmt b

/-- R305: `a` is the base and `b` the exponent. The clause on a zero exponent stands in the rule's
corner cases; its pseudocode gives the same wherever the logarithm is a normal (DEDUCED, log entry
9). -/
def power (bld : Build) (a b : Word) : Word :=
  let fmt := bld.fmt
  if isNaN a || isNaN b then NAN fmt
  else if zeroExponent fmt a b then ONE fmt
  else if isNInf a || (isNormal a && decide (v fmt a < 0)) then
    if !(isNormal b && v fmt b % 2 ^ fmt.F == 0) then NAN fmt
    else
      let r := exponential bld (multiply fmt b (lnMagnitude bld a))
      if isOdd (v fmt b >>> fmt.F) then negate fmt r else r
  else exponential bld (multiply fmt b (logarithm bld .e a))

/-- SQRT (R280), exact in both modes (R311). -/
def execSqrt (s : State) : Result :=
  s.answer fun bld a _ => resultY (squareRoot bld.fmt a)

/-- EXP (R288). -/
def execExp (s : State) : Result :=
  s.answer fun bld a _ => resultY (exponential bld a)

/-- LN (R298). -/
def execLn (s : State) : Result :=
  s.answer fun bld a _ => resultY (logarithm bld .e a)

/-- LOG2 (R297). -/
def execLog2 (s : State) : Result :=
  s.answer fun bld a _ => resultY (logarithm bld .two a)

/-- LOG10 (R299). -/
def execLog10 (s : State) : Result :=
  s.answer fun bld a _ => resultY (logarithm bld .ten a)

/-- POW (R305). -/
def execPow (s : State) : Result :=
  s.answer fun bld a b => resultY (power bld a b)

end Sys2Proof.Machine
end

