-- ==== Sys2Proof/Machine/Trig.lean ====
section
/-! DEFINITION. The meanings of 45_cordic_trig.md: SIN, COS, TAN, SINF, by the reference algorithms,
and by free values within R358 when `TRANS_IMPL` is `opaque` (00_scope.md R14). -/

namespace Sys2Proof.Machine

/-! ### Angle reduction (R335) -/

/-- A reduced angle: the quadrant, the position in it in turns, and the angle in radians, 2.28. -/
structure Reduced where
  q : Nat
  w : Nat
  theta : Int
  deriving DecidableEq, Repr

/-- `REDUCE` of a value field (R335). -/
def reduce (fmt : Format) (x : Int) : Reduced :=
  let u := (rte (x * invTauR fmt) (fmt.F + invTauBits fmt - ktBits) % 2 ^ ktBits).toNat
  let w := u % 2 ^ (ktBits - 2)
  { q := u >>> (ktBits - 2), w := w, theta := rte (w * tau32) (ktBits + tauBits - cordicBits) }

/-! ### The CORDIC engine (R338) -/

/-- The (cos, sin, remaining angle) triple of the engine. -/
structure Rotation where
  x : Int
  y : Int
  z : Int
  deriving DecidableEq, Repr

/-- Micro-rotation `i` with the step angle `step` (R338). -/
def microRotate (i : Nat) (step : Int) (t : Rotation) : Rotation :=
  if 0 ≤ t.z then { x := t.x - t.y >>> i, y := t.y + t.x >>> i, z := t.z - step }
  else { x := t.x + t.y >>> i, y := t.y - t.x >>> i, z := t.z + step }

/-- The micro-rotations from number `i` on, one for each step angle left. -/
def rotations : Nat → List Int → Rotation → Rotation
  | _, [], t => t
  | i, step :: steps, t => rotations (i + 1) steps (microRotate i step t)

/-- `CORDIC(θ) = (c, s)` (R338). -/
def cordic (theta : Int) : Int × Int :=
  let t := rotations 0 atanTable { x := kGain, y := 0, z := theta }
  (t.x, t.y)

/-- The engine with the bypass at `w = 0` (R339). -/
def cosSin (r : Reduced) : Int × Int := if r.w = 0 then (2 ^ cordicBits, 0) else cordic r.theta

/-- The sine column of the quadrant map (R339). -/
def sinColumn (r : Reduced) : Int :=
  let (c, s) := cosSin r
  match r.q with
  | 0 => s
  | 1 => c
  | 2 => -s
  | _ => -c

/-- The cosine column of the quadrant map (R339). -/
def cosColumn (r : Reduced) : Int :=
  let (c, s) := cosSin r
  match r.q with
  | 0 => c
  | 1 => -s
  | 2 => -c
  | _ => s

/-- The value field of `OUT(z)` (R340). -/
def outValue (fmt : Format) (z : Int) : Int :=
  if fmt.F ≤ cordicBits then rte z (cordicBits - fmt.F) else z * 2 ^ (fmt.F - cordicBits)

/-! ### The fast sine (R351) -/

/-- The result of the polynomial, 2.28 (R351). -/
def sinfColumn (r : Reduced) : Int :=
  let theta := if r.q % 2 = 1 then halfPiC - r.theta else r.theta
  let t := rte (theta * theta) cordicBits
  let p := sinfC5 - rte (t * sinfC7) cordicBits
  let p := sinfC3 - rte (t * p) cordicBits
  let p := 2 ^ cordicBits - rte (t * p) cordicBits
  let r' := rte (theta * p) cordicBits
  if 2 ≤ r.q then -r' else r'

/-! ### The uninterpreted mode (R358) -/

/-- The bound on the value field of every result of SIN, COS and SINF, `v(OUT(2^28 + 5))`
(R358, R359). -/
def trigBound (fmt : Format) : Int := outValue fmt (2 ^ 28 + 5)

/-- A number brought within that bound. -/
def clampTrig (fmt : Format) (x : Int) : Int := max (-trigBound fmt) (min x (trigBound fmt))

/-- A result that is not interpreted: `origin` at the angle 0, else within the bound, and nothing
more. It depends on the operand through `REDUCE` alone (R358). -/
def trigOpen (fmt : Format) (free : Format → Nat → Nat → Int) (origin : Int) (r : Reduced) : Int :=
  if r.q = 0 ∧ r.w = 0 then origin else clampTrig fmt (free fmt r.q r.w)

/-! ### The operations (R341 to R351) -/

/-- SIN of a word (R341, R345). -/
def sine (bld : Build) (a : Word) : Word :=
  if !isNormal a then NAN bld.fmt
  else
    let r := reduce bld.fmt (v bld.fmt a)
    match bld.trans with
    | .reference => enc bld.fmt (outValue bld.fmt (sinColumn r))
    | .uninterpreted => enc bld.fmt (trigOpen bld.fmt Config.sinValue 0 r)

/-- COS of a word (R342, R345). -/
def cosine (bld : Build) (a : Word) : Word :=
  if !isNormal a then NAN bld.fmt
  else
    let r := reduce bld.fmt (v bld.fmt a)
    match bld.trans with
    | .reference => enc bld.fmt (outValue bld.fmt (cosColumn r))
    | .uninterpreted => enc bld.fmt (trigOpen bld.fmt Config.cosValue (2 ^ bld.fmt.F) r)

/-- TAN of a word (R343). -/
def tangent (bld : Build) (a : Word) : Word := divide bld.fmt (sine bld a) (cosine bld a)

/-- SINF of a word (R351, R345). -/
def fastSine (bld : Build) (a : Word) : Word :=
  if !isNormal a then NAN bld.fmt
  else
    let r := reduce bld.fmt (v bld.fmt a)
    match bld.trans with
    | .reference => enc bld.fmt (outValue bld.fmt (sinfColumn r))
    | .uninterpreted => enc bld.fmt (trigOpen bld.fmt Config.sinfValue 0 r)

/-- SIN (R341). -/
def execSin (s : State) : Result :=
  s.answer fun bld a _ => resultY (sine bld a)

/-- COS (R342). -/
def execCos (s : State) : Result :=
  s.answer fun bld a _ => resultY (cosine bld a)

/-- TAN (R343). -/
def execTan (s : State) : Result :=
  s.answer fun bld a _ => resultY (tangent bld a)

/-- SINF (R351). -/
def execSinf (s : State) : Result :=
  s.answer fun bld a _ => resultY (fastSine bld a)

end Sys2Proof.Machine
end

