-- ==== Sys2Proof/Machine/Dispatch.lean ====
section
/-! DEFINITION. One arm per operation (30_encoding.md R110): the unit works on the oldest command in
flight and drives its response. -/

namespace Sys2Proof.Machine

def exec (i : Instr) (s : State) : Host.Outcome State Fault Refusal :=
  match i with
  | .isneg => Sys2Proof.Machine.execIsneg s
  | .isnan => Sys2Proof.Machine.execIsnan s
  | .ispinf => Sys2Proof.Machine.execIspinf s
  | .isninf => Sys2Proof.Machine.execIsninf s
  | .eq => Sys2Proof.Machine.execEq s
  | .eqn => Sys2Proof.Machine.execEqn s
  | .cmp => Sys2Proof.Machine.execCmp s
  | .neg => Sys2Proof.Machine.execNeg s
  | .abs => Sys2Proof.Machine.execAbs s
  | .add => Sys2Proof.Machine.execAdd s
  | .sub => Sys2Proof.Machine.execSub s
  | .mul => Sys2Proof.Machine.execMul s
  | .div => Sys2Proof.Machine.execDiv s
  | .floor => Sys2Proof.Machine.execFloor s
  | .ceil => Sys2Proof.Machine.execCeil s
  | .rnde => Sys2Proof.Machine.execRnde s
  | .rndhu => Sys2Proof.Machine.execRndhu s
  | .floori => Sys2Proof.Machine.execFloori s
  | .ceili => Sys2Proof.Machine.execCeili s
  | .rndei => Sys2Proof.Machine.execRndei s
  | .rndhui => Sys2Proof.Machine.execRndhui s
  | .rshre count => Sys2Proof.Machine.execRshre count s
  | .todbl => Sys2Proof.Machine.execTodbl s
  | .fromdbl => Sys2Proof.Machine.execFromdbl s
  | .lit sign n => Sys2Proof.Machine.execLit sign n s
  | .const sel => Sys2Proof.Machine.execConst sel s
  | .sqrt => Sys2Proof.Machine.execSqrt s
  | .exp => Sys2Proof.Machine.execExp s
  | .ln => Sys2Proof.Machine.execLn s
  | .log2 => Sys2Proof.Machine.execLog2 s
  | .log10 => Sys2Proof.Machine.execLog10 s
  | .pow => Sys2Proof.Machine.execPow s
  | .sin => Sys2Proof.Machine.execSin s
  | .cos => Sys2Proof.Machine.execCos s
  | .tan => Sys2Proof.Machine.execTan s
  | .sinf => Sys2Proof.Machine.execSinf s

end Sys2Proof.Machine
end

