-- ==== Sys2Proof/Machine/Execute.lean ====
section
/-! DEFINITION. Decode and dispatch (30_encoding.md R110): the oldest command in flight is decoded
and run. -/

namespace Sys2Proof.Machine

/-- The unit works on the oldest command in flight: `exec` of what its word decodes to, or
IllegalCommand (R110, R384). -/
def runOldest (s : State) : Result :=
  match s.pending with
  | [] => .fault .nothingPending
  | e :: _ =>
    match decode s.build.fmt.width e.cmd with
    | .instr i => exec i s
    | .illegal _ => raiseIllegal s

/-- A unit that has nothing in flight but one due command. -/
def unitWith (bld : Build) (c : Cmd) (a b : Word) : State :=
  { State.reset with build := bld, pending := [{ cmd := c, a := a, b := b, wait := 0 }] }

/-- `execute(c, a, b)` of R110, as a function of the build and its three arguments (R40). It is
`none` on no command: `runOldest` answers every one (the lemma in Laws/Execute.lean). -/
def execute (bld : Build) (c : Cmd) (a b : Word) : Option Response :=
  match runOldest (unitWith bld c a b) with
  | .next s => s.rsp
  | .fault _ => none
  | .refused _ => none

/-- One rising edge of `clk` at which `rst` is 0 (R33, R42, R43): drive the response ports if the
oldest command is due, then let what is valid and ready transfer. -/
def clockEdge (s : State) (inp : EdgeInput) : Result :=
  let ready := s.cmdReadyAt inp
  if s.rspValidAt inp then
    match runOldest s with
    | .next t => .next (t.finishEdge inp ready)
    | .fault why => .fault why
    | .refused why => .refused why
  else .next (s.quiet.finishEdge inp ready)

/-- The state in which the very next step runs the command word `c`: it is the oldest in flight and
due, keeping the operands of the oldest if there is one and else with both operands 0, and the
host takes its response and offers nothing (log entry 4). -/
def State.withOldest (s : State) (c : Cmd) : State :=
  { s with
    pending := (match s.pending with
      | [] => [{ cmd := c, a := 0, b := 0, wait := 0 }]
      | e :: rest => { e with cmd := c, wait := 0 } :: rest)
    inputs := idleInput :: s.inputs }

end Sys2Proof.Machine
end

