-- ==== Sys2Proof/Machine/Step.lean ====
section
/-! DEFINITION. One step is one rising edge of `clk` (10_state.md R33). -/

namespace Sys2Proof.Machine

/-- A unit outside the parameters of R11 and R41 does not exist (R401). At an edge with `rst = 1`
the unit is reset (R410). At any other it runs as `clockEdge` says. -/
def step (s : State) : Host.Outcome State Fault Refusal :=
  if s.build.supported then
    if s.input.rst then .next s.resetEdge else clockEdge s s.input
  else .refused .unsupportedBuild

/-- The host's question: `s` with the table word `w` of `nbits` bits where the next step takes its
command from. -/
def State.withFetchWord (s : State) (nbits w : Nat) : State :=
  s.withOldest (BitVec.ofNat 16 (w % 2 ^ nbits))

end Sys2Proof.Machine
end

