-- ==== Sys2Proof/Machine/Assembly.lean ====
section
/-! DEFINITION. The assembler's expansions (30_encoding.md R115, R116): what the host sends for a
line. Digit strings are lists of digits, most significant first; turning text into them is the
host's (43_round_convert.md R251). -/

namespace Sys2Proof.Machine

/-- What the host sends for one command: the command word and the two operand ports. -/
structure Command where
  cmd : Cmd
  a : Word
  b : Word
  deriving DecidableEq, Repr

/-- `MNEM a`: `b` is written as nothing and sent as 0 (R115). -/
def lineOne (i : Instr) (a : Word) : Command := { cmd := encode i, a := a, b := 0 }

/-- `MNEM a, b` (R115). -/
def lineTwo (i : Instr) (a b : Word) : Command := { cmd := encode i, a := a, b := b }

/-- `FROMDBL d`: the pattern in `a` when `W = 64`, split over `a` and `b` when `W = 32` (R62,
R115). -/
def lineFromDouble (fmt : Format) (d : BitVec 64) : Command :=
  match fmt.width with
  | .w64 => lineOne .fromdbl d
  | .w32 => lineTwo .fromdbl ((d.extractLsb' 0 32).setWidth 64) ((d.extractLsb' 32 32).setWidth 64)

/-- The number that a string of decimal digits writes. -/
def digitsValue (digits : List (Fin 10)) : Nat := digits.foldl (fun n d => 10 * n + d.val) 0

/-- `LITD "I.D"` and `LITD "-I.D"`: one LIT, with `n` the number of digits in `D`, leading zeros
counted. Refused when `D` is longer than `NMAX` (R116), and when a number does not fit its port,
which no command can carry. -/
def litd (fmt : Format) (negative : Bool) (whole fraction : List (Fin 10)) : Option Command :=
  let n := fraction.length
  let M := digitsValue whole
  let D := digitsValue fraction
  if n ≤ fmt.width.nmax ∧ M < 2 ^ fmt.W ∧ D < 2 ^ fmt.W then
    some (lineTwo (.lit negative (BitVec.ofNat 6 n)) (BitVec.ofNat 64 M) (BitVec.ofNat 64 D))
  else none

/-- The constant names, in the order of their selectors (R116, R256). -/
inductive ConstName where
  | zero
  | one
  | eps
  | negEps
  | min
  | max
  | pi
  | tau
  | e
  | qnan
  | pinf
  | ninf
  deriving DecidableEq, Repr

def ConstName.selector : ConstName → BitVec 6
  | .zero => 0#6
  | .one => 1#6
  | .eps => 2#6
  | .negEps => 3#6
  | .min => 4#6
  | .max => 5#6
  | .pi => 6#6
  | .tau => 7#6
  | .e => 8#6
  | .qnan => 9#6
  | .pinf => 10#6
  | .ninf => 11#6

/-- A constant's name as a line: one CONST (R116). -/
def lineConst (name : ConstName) : Command := lineOne (.const name.selector) 0

end Sys2Proof.Machine
end

