-- ==== Sys2Proof/Safety.lean ====
section
/-! DEFINITION. The terms in which claims about the unit are made: the invariant, what the host can
observe of the timing, the record of accepted commands, and the rounding relations. -/

namespace Sys2Proof.Machine

/-! ### The invariant -/

/-- A word drives only the `W` lines that exist. -/
abbrev Fits (W : Nat) (a : Word) : Prop := a.toNat < 2 ^ W

/-- A response the unit can give: both words on their lines; `yh = 0` when `W = 64` (R33); an
illegal command's response is that of R384. -/
abbrev Response.Wf (fmt : Format) (r : Response) : Prop :=
  Fits fmt.W r.y ∧ Fits fmt.W r.yh ∧ (fmt.width = .w64 → r.yh = 0) ∧
    (r.ill = true → r.y = NAN fmt ∧ r.yh = 0)

/-- An entry of `pending`: operands on their lines, and less than its latency still to wait
(R420). -/
abbrev Entry.Wf (bld : Build) (e : Entry) : Prop :=
  Fits bld.fmt.W e.a ∧ Fits bld.fmt.W e.b ∧ e.wait < latency bld e.cmd

/-- The invariant of the unit. The build exists (R401); `pending` holds at most `DEPTH` entries
(R41); every entry and every response is one the unit can hold; the response ports have a value
exactly while `rsp_valid = 1` (R34); and until `cmd_ready` has been 1 after a reset nothing is in
flight, with at most `RST_READY` cycles left to go (R412). -/
abbrev State.Inv (s : State) : Prop :=
  s.build.supported = true ∧
  s.pending.length ≤ s.build.depth ∧
  (∀ e ∈ s.pending, e.Wf s.build) ∧
  s.rspValid = s.rsp.isSome ∧
  (∀ r ∈ s.rsp.toList, r.Wf s.build.fmt) ∧
  (∀ r ∈ s.delivered, r.Wf s.build.fmt) ∧
  (∀ k ∈ s.resetWait.toList, k ≤ s.build.rstReady ∧ s.pending = [])

/-! ### What the timing of a unit can depend on (R421) -/

/-- The host's pins at an edge, less the operands. -/
structure EdgeTiming where
  rst : Bool
  cmdValid : Bool
  cmd : Cmd
  rspReady : Bool
  deriving DecidableEq, Repr

/-- A state, less every operand and every result. -/
structure Timing where
  build : Build
  pending : List (Cmd × Nat)
  cmdReady : Bool
  rspValid : Bool
  resetWait : Option Nat
  inputs : List EdgeTiming
  tick : Nat
  deriving DecidableEq, Repr

def EdgeInput.timing (inp : EdgeInput) : EdgeTiming :=
  { rst := inp.rst, cmdValid := inp.cmdValid, cmd := inp.cmd, rspReady := inp.rspReady }

def State.timing (s : State) : Timing :=
  { build := s.build
    pending := s.pending.map fun e => (e.cmd, e.wait)
    cmdReady := s.cmdReady
    rspValid := s.rspValid
    resetWait := s.resetWait
    inputs := s.inputs.map EdgeInput.timing
    tick := s.tick }

/-! ### Runs -/

/-- `n` edges. -/
abbrev run (n : Nat) (s : State) : Result := Sys2Proof.core.run n s

/-- `rst` is 0 at the next `n` edges. -/
abbrev NoReset (n : Nat) (s : State) : Prop := ∀ inp ∈ s.inputs.take n, inp.rst = false

/-- The triple of R41. -/
def Entry.triple (e : Entry) : Cmd × Word × Word := (e.cmd, e.a, e.b)

/-- `execute` of R110 on a triple. -/
def executeTriple (bld : Build) (t : Cmd × Word × Word) : Option Response :=
  execute bld t.1 t.2.1 t.2.2

/-- The command that transfers at this edge, if one does: `cmd_valid` and `cmd_ready` are both 1
(R33). -/
def acceptedNow (s : State) : List (Cmd × Word × Word) :=
  let inp := s.input
  if inp.cmdValid && s.cmdReadyAt inp then
    [(inp.cmd, onLines s.build.fmt.W inp.a, onLines s.build.fmt.W inp.b)]
  else []

/-- The commands that transfer at the next `n` edges, in order. -/
def acceptedIn : Nat → State → List (Cmd × Word × Word)
  | 0, _ => []
  | n + 1, s => acceptedNow s ++
    (match step s with
      | .next t => acceptedIn n t
      | .fault _ => []
      | .refused _ => [])

/-- The word `y` of `execute` for an instruction's own command word (R110). -/
def resultOf (bld : Build) (i : Instr) (a b : Word) : Option Word :=
  (execute bld (encode i) a b).map Response.y

/-! ### Families of operations -/

/-- The operations with a FIX result whose one FIX operand is `a` (R105). -/
def unaryFix : List Instr :=
  [.neg, .abs, .floor, .ceil, .rnde, .rndhu, .sqrt, .exp, .ln, .log2, .log10,
   .sin, .cos, .tan, .sinf]

/-- The operations with a FIX result whose FIX operands are `a` and `b` (R105). -/
def binaryFix : List Instr := [.add, .sub, .mul, .div, .pow]

/-- The operation has a FIX result (R105). -/
def FixResult : Instr → Bool
  | .fromdbl | .lit _ _ | .const _ => true
  | i => decide (i ∈ unaryFix ++ binaryFix)

/-- The operation's operands are not packed values, or it reads the top bit of one whatever its tag
(R91, R105): every other treats a special by its tag alone. -/
def ReadsRawBits : Instr → Bool
  | .isneg | .rshre _ | .fromdbl | .lit _ _ => true
  | _ => false

/-- The operation reads the port `b` on a unit of this width (R105; FROMDBL does when `W = 32`). -/
def ReadsB (w : Width) : Instr → Bool
  | .eq | .eqn | .cmp | .lit _ _ => true
  | .fromdbl => w == .w32
  | i => decide (i ∈ binaryFix)

/-! ### Relations on words -/

/-- The same value in its canonical pattern (R83, R91). -/
def canonical (fmt : Format) (a : Word) : Word :=
  if isNaN a then NAN fmt else if isPInf a then PINF fmt else if isNInf a then NINF fmt else a

/-- The order of the values of two words that are no NaN (R137, R138): −Infinity below every normal,
every normal below +Infinity, normals by their value fields. -/
abbrev Below (fmt : Format) (a b : Word) : Prop :=
  (isNInf a = true ∧ isNInf b = false) ∨ (isPInf b = true ∧ isPInf a = false) ∨
    (isNormal a = true ∧ isNormal b = true ∧ v fmt a < v fmt b)

/-- A word that is no NaN has a negative sign (R89). -/
abbrev Negative (fmt : Format) (a : Word) : Prop :=
  isNInf a = true ∨ (isNormal a = true ∧ v fmt a < 0)

/-! ### Rounding relations -/

/-- `r` is the integer nearest to `n / d`, with an exact half going to the even neighbour (R221,
R222). -/
abbrev NearestEven (r n d : Int) : Prop :=
  2 * |n - r * d| ≤ d ∧ (2 * |n - r * d| = d → r % 2 = 0)

/-- `r` is the integer nearest to `n / d`, with an exact half going away from zero (R223). -/
abbrev NearestAway (r n d : Int) : Prop :=
  2 * |n - r * d| ≤ d ∧ (2 * |n - r * d| = d → |n| < |r * d|)

/-- `n` is the number in the range of a value field that is congruent to `x` modulo `2^(W−2)`: the
wrap of R250 and R258. -/
abbrev WrapsTo (fmt : Format) (x n : Int) : Prop :=
  vmin fmt ≤ n ∧ n ≤ vmax fmt ∧ (x - n) % 2 ^ (fmt.W - 2) = 0

/-- A finite binary64 pattern's value times `2^1075` (R95). -/
def dblScaled (d : BitVec 64) : Int :=
  let m : Int := (dblParts d).1 * 2 ^ (dblParts d).2
  if dblSign d then -m else m

end Sys2Proof.Machine
end

