-- ==== Sys2Proof/Certificates/Slice0/Obligations.lean ====
section
/-! DEFINITION. The statements about the unit. Each result statement says that the operation
completes, with the whole next state: `exec` answers `s` with its response ports driven and nothing
else changed, for every state with a command in flight, on every unit. -/

open Sys2Proof Sys2Proof.Machine

/-! ### Encoding and decoding -/

/-- Every instruction a command word can stand for is read back from its own word, with every
operand value (R100 to R105, R109). -/
def Obligations.DecodeOfEncodeIsTheInstruction : Prop :=
  ∀ (w : Width) (i : Instr), WellFormed w i = true → decode w (encode i) = .instr i

/-- Each word stands for one instruction: a legal word is the encoding of what it decodes to, and
that is within the limits of R107. -/
def Obligations.EncodeOfDecodeIsTheWord : Prop :=
  ∀ (w : Width) (c : Cmd) (i : Instr), decode w c = .instr i →
    WellFormed w i = true ∧ encode i = c

/-- R107 and R108: a command is illegal exactly under the seven clauses, and then its response is that
of IllegalCommand, whatever its operands. -/
def Obligations.IllegalExactlyUnderTheSevenClauses : Prop :=
  ∀ (w : Width) (c : Cmd),
    let OP := c.toNat % 64
    let IMM := c.toNat / 64 % 64
    let S := c.toNat / 4096 % 2
    let RSV := c.toNat / 8192
    let NMAX := match w with | .w32 => 9 | .w64 => 19
    ((∃ why, decode w c = .illegal why) ↔
      (OP = 0x00 ∨ OP = 0x0E ∨ OP = 0x0F ∨ (0x19 ≤ OP ∧ OP ≤ 0x1B) ∨ OP = 0x26 ∨ OP = 0x27 ∨
          0x2C ≤ OP) ∨
      RSV ≠ 0 ∨
      (S = 1 ∧ OP ≠ 0x1E) ∨
      (IMM ≠ 0 ∧ OP ≠ 0x18 ∧ OP ≠ 0x1E ∧ OP ≠ 0x1F) ∨
      (OP = 0x18 ∧ w.bits - 1 < IMM) ∨
      (OP = 0x1E ∧ NMAX < IMM) ∨
      (OP = 0x1F ∧ 11 < IMM)) ∧
    ∀ (why : Illegal) (bld : Build) (a b : Word), decode w c = .illegal why →
      bld.fmt.width = w → execute bld c a b = some ⟨NAN bld.fmt, 0, true⟩

/-- Words written out from the opcode map (R105) decode to the instructions they stand for. -/
def Obligations.TableWordsDecode : Prop :=
  ∀ w : Width,
    decode w 0b000_0_000000_000001#16 = .instr .isneg ∧
    decode w 0b000_0_000000_001010#16 = .instr .add ∧
    decode w 0b000_0_000000_001101#16 = .instr .div ∧
    decode w 0b000_0_000101_011000#16 = .instr (.rshre 5#6) ∧
    decode w 0b000_1_000010_011110#16 = .instr (.lit true 2#6) ∧
    decode w 0b000_0_000110_011111#16 = .instr (.const 6#6) ∧
    decode w 0b000_0_000000_100101#16 = .instr .pow ∧
    decode w 0b000_0_000000_101010#16 = .instr .tan ∧
    decode w 0x0000#16 = .illegal .reservedOp ∧
    decode w 0x200A#16 = .illegal .reservedBits

/-- The assembler's expansions (R116): a constant's name is CONST with the selectors 0 to 11 in
order, and a LITD is one LIT with the digit count, refused when there are more than `NMAX`
digits. The integer part is taken to fit its port: refusing one that does not is the model's choice
(log entry 13). -/
def Obligations.PseudoInstructionsExpand : Prop :=
  ([ConstName.zero, .one, .eps, .negEps, .min, .max, .pi, .tau, .e, .qnan, .pinf, .ninf].map
      fun name => lineConst name) =
    ((List.range 12).map fun k => ⟨encode (.const (BitVec.ofNat 6 k)), 0, 0⟩) ∧
  ∀ (fmt : Format) (negative : Bool) (whole fraction : List (Fin 10)),
    digitsValue whole < 2 ^ fmt.W →
    (fraction.length ≤ fmt.width.nmax →
      ∃ n : BitVec 6, n.toNat = fraction.length ∧
        litd fmt negative whole fraction = some
          ⟨encode (.lit negative n), BitVec.ofNat 64 (digitsValue whole),
            BitVec.ofNat 64 (digitsValue fraction)⟩ ∧
        decode fmt.width (encode (.lit negative n)) = .instr (.lit negative n)) ∧
    (fmt.width.nmax < fraction.length → litd fmt negative whole fraction = none)

/-! ### Running a command -/

/-- A step runs the decoded instruction: when the oldest command is due and decodes to `i`, the step
is `exec i` and then the edge's transfers (R110, R33): the response is offered, it leaves with its
command if the host takes it, a cycle passes for the others, and an accepted command joins
last. -/
def Obligations.StepRunsTheOldestCommand : Prop :=
  ∀ (s t : State) (e : Entry) (rest : List Entry) (i : Instr) (r : Response),
    s.build.supported = true → s.input.rst = false → s.pending = e :: rest → e.wait = 0 →
    decode s.build.fmt.width e.cmd = .instr i → exec i s = .next t → t.rsp = some r →
    ∃ u, step s = .next u ∧ u = t.finishEdge s.input (s.cmdReadyAt s.input) ∧
      u.rspValid = true ∧ u.rsp = some r ∧
      u.delivered = (if s.input.rspReady then s.delivered ++ [r] else s.delivered) ∧
      u.pending.map Entry.triple =
        (if s.input.rspReady then rest else e :: rest).map Entry.triple ++ acceptedNow s

/-- R384: an illegal command is answered in place with `y = NAN`, `yh = 0`, `ill = 1`, and changes
nothing beyond its place in `pending`: the step is the same as for a legal command, and neither
the operands nor anything else is recorded. -/
def Obligations.StepAnswersIllegalCommandInPlace : Prop :=
  ∀ (s : State) (e : Entry) (rest : List Entry) (why : Illegal),
    s.build.supported = true → s.input.rst = false → s.pending = e :: rest → e.wait = 0 →
    decode s.build.fmt.width e.cmd = .illegal why →
    ∃ u, step s = .next u ∧
      u = (s.drive ⟨NAN s.build.fmt, 0, true⟩).finishEdge s.input (s.cmdReadyAt s.input) ∧
      u.rspValid = true ∧ u.rsp = some ⟨NAN s.build.fmt, 0, true⟩ ∧
      u.build = s.build ∧
      u.delivered = (if s.input.rspReady then s.delivered ++ [⟨NAN s.build.fmt, 0, true⟩]
        else s.delivered) ∧
      u.pending.map Entry.triple =
        (if s.input.rspReady then rest else e :: rest).map Entry.triple ++ acceptedNow s

/-- R112: every legal command completes with `ill = 0`, and with `yh = 0` unless it is TODBL with
`W = 32`. An immediate outside its range completes as IllegalCommand (R107, R384). -/
def Obligations.EveryInstructionCompletes : Prop :=
  ∀ (s : State) (e : Entry) (rest : List Entry) (i : Instr), s.pending = e :: rest →
    (WellFormed s.build.fmt.width i = true →
      ∃ y yh, exec i s = .next (s.drive ⟨y, yh, false⟩) ∧
        (¬(i = .todbl ∧ s.build.fmt.width = .w32) → yh = 0)) ∧
    (WellFormed s.build.fmt.width i = false →
      exec i s = .next (s.drive ⟨NAN s.build.fmt, 0, true⟩))

/-- The frame of every instruction: only the response ports `rsp_valid`, `y`, `yh` and `ill` change.
There is no register, flag, accumulator or memory to leave unchanged (R35, R38, R45). -/
def Obligations.InstructionsChangeOnlyTheResponsePorts : Prop :=
  ∀ (i : Instr) (s t : State), exec i s = .next t →
    t.build = s.build ∧ t.pending = s.pending ∧ t.cmdReady = s.cmdReady ∧
    t.resetWait = s.resetWait ∧ t.inputs = s.inputs ∧ t.delivered = s.delivered ∧
    t.tick = s.tick ∧ t.rspValid = true ∧ ∃ r, t.rsp = some r

/-- R40 and R14: the response is a function of the command, its operands, the format and
`TRANS_IMPL` alone: two units that differ in everything else (latency, depth, readiness, what else
is in flight, the edge) answer alike, and that answer is `execute`. -/
def Obligations.ResponsesDependOnTheCommandAlone : Prop :=
  ∀ (s t : State) (e e' : Entry) (rest rest' : List Entry),
    s.pending = e :: rest → t.pending = e' :: rest' →
    s.build.fmt = t.build.fmt → s.build.trans = t.build.trans →
    e.triple = e'.triple →
    ∃ r, runOldest s = .next (s.drive r) ∧ runOldest t = .next (t.drive r) ∧
      executeTriple s.build e.triple = some r

/-! ### The packed value (30_encoding.md §1) -/

/-- R83 and R90: the canonical patterns, at both widths. R86, R87 and R90: an encoded number in range
is a normal whose value field is that number; a normal is the encoding of its value field, and its
top bit is 1 exactly when that is negative; a number out of range saturates. R85: every value field
is in range. -/
def Obligations.PackedValuesReadBack : Prop :=
  (∀ F : Nat,
    NAN ⟨.w64, F⟩ = 0x0000000000000001#64 ∧ PINF ⟨.w64, F⟩ = 0x0000000000000002#64 ∧
    NINF ⟨.w64, F⟩ = 0xFFFFFFFFFFFFFFFF#64 ∧
    NAN ⟨.w32, F⟩ = 0x00000001#64 ∧ PINF ⟨.w32, F⟩ = 0x00000002#64 ∧
    NINF ⟨.w32, F⟩ = 0xFFFFFFFF#64) ∧
  ∀ fmt : Format,
    topBit fmt.W (NAN fmt) = false ∧ topBit fmt.W (PINF fmt) = false ∧
    topBit fmt.W (NINF fmt) = true ∧
    (∀ n : Int, vmin fmt ≤ n → n ≤ vmax fmt →
      isNormal (enc fmt n) = true ∧ v fmt (enc fmt n) = n ∧ sat fmt n = enc fmt n) ∧
    (∀ n : Int, vmax fmt < n → sat fmt n = PINF fmt) ∧
    (∀ n : Int, n < vmin fmt → sat fmt n = NINF fmt) ∧
    ∀ a : Word,
      -2 ^ (fmt.W - 3) ≤ v fmt a ∧ v fmt a ≤ 2 ^ (fmt.W - 3) - 1 ∧
      (isNormal a = true → topBit fmt.W a = decide (v fmt a < 0)) ∧
      (Fits fmt.W a → isNormal a = true → enc fmt (v fmt a) = a)

/-! ### Classification and comparison (40_classify.md) -/

/-- R131 to R134: ISNEG is the top bit, whatever the tag; ISNAN, ISPINF and ISNINF read the tag
alone. -/
def Obligations.PredicatesReadTagOrTopBit : Prop :=
  encode .isneg = 0x0001#16 ∧ encode .isnan = 0x0002#16 ∧ encode .ispinf = 0x0003#16 ∧
  encode .isninf = 0x0004#16 ∧
  ∀ (s : State) (e : Entry) (rest : List Entry), s.pending = e :: rest →
    exec .isneg s = .next (s.drive
      ⟨if e.a.toNat / 2 ^ (s.build.fmt.W - 1) % 2 = 1 then 1 else 0, 0, false⟩) ∧
    exec .isnan s = .next (s.drive ⟨if e.a.toNat % 4 = 1 then 1 else 0, 0, false⟩) ∧
    exec .ispinf s = .next (s.drive ⟨if e.a.toNat % 4 = 2 then 1 else 0, 0, false⟩) ∧
    exec .isninf s = .next (s.drive ⟨if e.a.toNat % 4 = 3 then 1 else 0, 0, false⟩)

/-- R135 and R136: EQ is 1 for two Infinities of one sign and for two normals with identical words,
and for nothing else; EQN is 1 for two NaNs besides. -/
def Obligations.EqualityResults : Prop :=
  encode .eq = 0x0005#16 ∧ encode .eqn = 0x0006#16 ∧
  ∀ (s : State) (e : Entry) (rest : List Entry), s.pending = e :: rest →
    let W := s.build.fmt.W
    let ta := e.a.toNat % 4
    let tb := e.b.toNat % 4
    let same : Prop := ta = tb ∧
      (ta = 2 ∨ ta = 3 ∨ (ta = 0 ∧ e.a.toNat % 2 ^ W = e.b.toNat % 2 ^ W))
    (same → exec .eq s = .next (s.drive ⟨1, 0, false⟩) ∧
      exec .eqn s = .next (s.drive ⟨1, 0, false⟩)) ∧
    (ta = 1 ∧ tb = 1 → exec .eq s = .next (s.drive ⟨0, 0, false⟩) ∧
      exec .eqn s = .next (s.drive ⟨1, 0, false⟩)) ∧
    (¬same ∧ ¬(ta = 1 ∧ tb = 1) → exec .eq s = .next (s.drive ⟨0, 0, false⟩) ∧
      exec .eqn s = .next (s.drive ⟨0, 0, false⟩))

/-- R137 and R138: CMP is "greater" when an operand is a NaN, and else the order of the values:
`word(−1)`, `word(0)` or `word(1)`. -/
def Obligations.CompareOrdersTheValues : Prop :=
  encode .cmp = 0x0007#16 ∧
  ∀ (s : State) (e : Entry) (rest : List Entry), s.pending = e :: rest →
    let fmt := s.build.fmt
    ((isNaN e.a = true ∨ isNaN e.b = true) → exec .cmp s = .next (s.drive ⟨1, 0, false⟩)) ∧
    (isNaN e.a = false → isNaN e.b = false → Below fmt e.a e.b →
      exec .cmp s = .next (s.drive ⟨word fmt.W (-1), 0, false⟩)) ∧
    (isNaN e.a = false → isNaN e.b = false → Below fmt e.b e.a →
      exec .cmp s = .next (s.drive ⟨1, 0, false⟩)) ∧
    (isNaN e.a = false → isNaN e.b = false → ¬Below fmt e.a e.b → ¬Below fmt e.b e.a →
      exec .cmp s = .next (s.drive ⟨0, 0, false⟩))

/-- R142: on words without a NaN, CMP is a total preorder, whose classes are the single normals, all
+Infinity words and all −Infinity words, and EQ is 1 exactly when CMP is "equal". -/
def Obligations.CompareIsATotalPreorder : Prop :=
  ∀ (bld : Build) (a b c : Word), isNaN a = false → isNaN b = false → isNaN c = false →
    let atMost := fun x y => resultOf bld .cmp x y ≠ some 1
    resultOf bld .cmp a a = some 0 ∧
    (atMost a b ∨ atMost b a) ∧
    (atMost a b → atMost b c → atMost a c) ∧
    (resultOf bld .cmp a b = some 0 ↔
      (isPInf a = true ∧ isPInf b = true) ∨ (isNInf a = true ∧ isNInf b = true) ∨
      (isNormal a = true ∧ isNormal b = true ∧ zext bld.fmt.W a = zext bld.fmt.W b)) ∧
    (resultOf bld .eq a b = some 1 ↔ resultOf bld .cmp a b = some 0)

/-! ### Negate, absolute value, add, subtract (41_addsub.md) -/

/-- R161 and R162: NEG and ABS, saturating at `MIN`. -/
def Obligations.NegateAndAbsoluteResults : Prop :=
  encode .neg = 0x0008#16 ∧ encode .abs = 0x0009#16 ∧
  ∀ (s : State) (e : Entry) (rest : List Entry), s.pending = e :: rest →
    let fmt := s.build.fmt
    (isNaN e.a = true → exec .neg s = .next (s.drive ⟨NAN fmt, 0, false⟩) ∧
      exec .abs s = .next (s.drive ⟨NAN fmt, 0, false⟩)) ∧
    (isPInf e.a = true → exec .neg s = .next (s.drive ⟨NINF fmt, 0, false⟩) ∧
      exec .abs s = .next (s.drive ⟨PINF fmt, 0, false⟩)) ∧
    (isNInf e.a = true → exec .neg s = .next (s.drive ⟨PINF fmt, 0, false⟩) ∧
      exec .abs s = .next (s.drive ⟨PINF fmt, 0, false⟩)) ∧
    (isNormal e.a = true → v fmt e.a = vmin fmt →
      exec .neg s = .next (s.drive ⟨PINF fmt, 0, false⟩) ∧
      exec .abs s = .next (s.drive ⟨PINF fmt, 0, false⟩)) ∧
    (isNormal e.a = true → v fmt e.a ≠ vmin fmt →
      exec .neg s = .next (s.drive ⟨enc fmt (-v fmt e.a), 0, false⟩) ∧
      exec .abs s = .next (s.drive ⟨enc fmt |v fmt e.a|, 0, false⟩))

/-- R163, R164 and R166: the tables of ADD and SUB, cell by cell, exact and saturating on two
normals. R165: the source's carry-based overflow detection gives the same on two normals. -/
def Obligations.AddAndSubtractTables : Prop :=
  encode .add = 0x000A#16 ∧ encode .sub = 0x000B#16 ∧
  ∀ (s : State) (e : Entry) (rest : List Entry), s.pending = e :: rest →
    let fmt := s.build.fmt
    let add := fun y => exec .add s = .next (s.drive ⟨y, 0, false⟩)
    let sub := fun y => exec .sub s = .next (s.drive ⟨y, 0, false⟩)
    ((isNaN e.a = true ∨ isNaN e.b = true) → add (NAN fmt) ∧ sub (NAN fmt)) ∧
    (isNormal e.a = true → isNormal e.b = true →
      add (sat fmt (v fmt e.a + v fmt e.b)) ∧ sub (sat fmt (v fmt e.a - v fmt e.b)) ∧
      add (carrySum fmt (v fmt e.a) (v fmt e.b)) ∧
      sub (carrySum fmt (v fmt e.a) (-v fmt e.b))) ∧
    (isNormal e.a = true → isPInf e.b = true → add (PINF fmt) ∧ sub (NINF fmt)) ∧
    (isNormal e.a = true → isNInf e.b = true → add (NINF fmt) ∧ sub (PINF fmt)) ∧
    (isPInf e.a = true → isNormal e.b = true → add (PINF fmt) ∧ sub (PINF fmt)) ∧
    (isPInf e.a = true → isPInf e.b = true → add (PINF fmt) ∧ sub (NAN fmt)) ∧
    (isPInf e.a = true → isNInf e.b = true → add (NAN fmt) ∧ sub (PINF fmt)) ∧
    (isNInf e.a = true → isNormal e.b = true → add (NINF fmt) ∧ sub (NINF fmt)) ∧
    (isNInf e.a = true → isPInf e.b = true → add (NAN fmt) ∧ sub (NINF fmt)) ∧
    (isNInf e.a = true → isNInf e.b = true → add (NINF fmt) ∧ sub (NAN fmt))

/-- R167: ADD commutes on every pair of words; `ADD(MAX, EPS) = PINF`; SUB is ADD of NEG on every pair with `b ≠ MIN`; NEG
undoes NEG on every normal but `MIN`, which it takes to −Infinity. -/
def Obligations.AddSubtractNegateIdentities : Prop :=
  ∀ (bld : Build) (a b nb na : Word),
    resultOf bld .neg b 0 = some nb → resultOf bld .neg a 0 = some na →
    resultOf bld .add a b = resultOf bld .add b a ∧
    resultOf bld .add (enc bld.fmt (vmax bld.fmt)) (enc bld.fmt 1) = some (PINF bld.fmt) ∧
    (¬(isNormal b = true ∧ v bld.fmt b = vmin bld.fmt) →
      resultOf bld .sub a b = resultOf bld .add a nb) ∧
    (isNormal a = true → v bld.fmt a ≠ vmin bld.fmt → Fits bld.fmt.W a →
      resultOf bld .neg na 0 = some a) ∧
    (isNormal a = true → v bld.fmt a = vmin bld.fmt →
      resultOf bld .neg na 0 = some (NINF bld.fmt))

/-! ### Multiply and divide (42_muldiv.md) -/

/-- R191 to R193: MUL rounds the exact product once, to the nearest multiple of the unit with ties to
even, and saturates after the rounding; with an Infinity it follows the table. -/
def Obligations.MultiplyRoundsTheExactProductOnce : Prop :=
  encode .mul = 0x000C#16 ∧
  ∀ (s : State) (e : Entry) (rest : List Entry), s.pending = e :: rest →
    let fmt := s.build.fmt
    let mul := fun y => exec .mul s = .next (s.drive ⟨y, 0, false⟩)
    ((isNaN e.a = true ∨ isNaN e.b = true) → mul (NAN fmt)) ∧
    (isNormal e.a = true → isNormal e.b = true →
      ∃ r, NearestEven r (v fmt e.a * v fmt e.b) (2 ^ fmt.F) ∧ mul (sat fmt r)) ∧
    (isInf e.a = true → isNormal e.b = true → v fmt e.b = 0 → mul (NAN fmt)) ∧
    (isNormal e.a = true → v fmt e.a = 0 → isInf e.b = true → mul (NAN fmt)) ∧
    (isNaN e.a = false → isNaN e.b = false → (isInf e.a = true ∨ isInf e.b = true) →
      isZero fmt e.a = false → isZero fmt e.b = false →
      ((Negative fmt e.a ↔ Negative fmt e.b) → mul (PINF fmt)) ∧
      (¬(Negative fmt e.a ↔ Negative fmt e.b) → mul (NINF fmt)))

/-- R200, R202 to R204: DIV rounds the exact quotient once, to nearest with ties to even, and
saturates; a zero divisor gives NaN or the Infinity of the dividend's sign; with an Infinity it
follows the table. -/
def Obligations.DivideRoundsTheExactQuotientOnce : Prop :=
  encode .div = 0x000D#16 ∧
  ∀ (s : State) (e : Entry) (rest : List Entry), s.pending = e :: rest →
    let fmt := s.build.fmt
    let div := fun y => exec .div s = .next (s.drive ⟨y, 0, false⟩)
    ((isNaN e.a = true ∨ isNaN e.b = true) → div (NAN fmt)) ∧
    (isNormal e.a = true → isNormal e.b = true → v fmt e.b ≠ 0 →
      ∃ r, NearestEven r (v fmt e.a * 2 ^ fmt.F * (v fmt e.b).sign) |v fmt e.b| ∧
        div (sat fmt r)) ∧
    (isZero fmt e.a = true → isZero fmt e.b = true → div (NAN fmt)) ∧
    (isNormal e.a = true → 0 < v fmt e.a → isZero fmt e.b = true → div (PINF fmt)) ∧
    (isNormal e.a = true → v fmt e.a < 0 → isZero fmt e.b = true → div (NINF fmt)) ∧
    (isNormal e.a = true → isInf e.b = true → div (ZERO fmt)) ∧
    (isInf e.a = true → isInf e.b = true → div (NAN fmt)) ∧
    (isInf e.a = true → isNormal e.b = true →
      ((Negative fmt e.a ↔ Negative fmt e.b) → div (PINF fmt)) ∧
      (¬(Negative fmt e.a ↔ Negative fmt e.b) → div (NINF fmt)))

/-- R205: a zero divisor gives the Infinity of the dividend's sign, and NaN for 0/0; MUL commutes; ONE is neutral for MUL and DIV; a nonzero normal divided by itself is
ONE. -/
def Obligations.MultiplyDivideIdentities : Prop :=
  ∀ (bld : Build) (a b : Word), bld.fmt.legal = true →
    (isNormal a = true → v bld.fmt a ≠ 0 → resultOf bld .div a (ZERO bld.fmt) =
      some (if v bld.fmt a < 0 then NINF bld.fmt else PINF bld.fmt)) ∧
    resultOf bld .div (ZERO bld.fmt) (ZERO bld.fmt) = some (NAN bld.fmt) ∧
    resultOf bld .mul a b = resultOf bld .mul b a ∧
    (isNormal a = true → Fits bld.fmt.W a →
      resultOf bld .mul a (ONE bld.fmt) = some a ∧ resultOf bld .div a (ONE bld.fmt) = some a) ∧
    (isNormal a = true → v bld.fmt a ≠ 0 → resultOf bld .div a a = some (ONE bld.fmt))

/-! ### Rounding and conversion (43_round_convert.md) -/

/-- R221 to R223: `RTE` is the pseudocode of R221 and so the nearest integer, ties to even; `RNE` is
the nearest integer to a quotient of any sign, and is `RTE` on a power of two; `RHU` is the nearest
integer, ties away from zero. -/
def Obligations.RoundingPrimitivesRoundToNearest : Prop :=
  ∀ (x : Int) (s : Nat),
    let q := x / 2 ^ s
    let r := x - q * 2 ^ s
    rte x s = (if s = 0 then x
      else if r > 2 ^ (s - 1) ∨ (r = 2 ^ (s - 1) ∧ q % 2 = 1) then q + 1 else q) ∧
    NearestEven (rte x s) x (2 ^ s) ∧
    rne x (2 ^ s) = rte x s ∧
    NearestAway (rhu x s) x (2 ^ s) ∧
    ∀ d : Int, d ≠ 0 → NearestEven (rne x d) (x * d.sign) |d|

/-- R225, R230 to R233: FLOOR, CEIL, RNDE and RNDHU give the integer part under their policy, as a
saturated fixed-point value, and pass specials through in canonical form. -/
def Obligations.RoundingToFixedPoint : Prop :=
  encode .floor = 0x0010#16 ∧ encode .ceil = 0x0011#16 ∧ encode .rnde = 0x0012#16 ∧
  encode .rndhu = 0x0013#16 ∧
  ∀ (s : State) (e : Entry) (rest : List Entry), s.pending = e :: rest →
    let fmt := s.build.fmt
    let x := v fmt e.a
    let one : Int := 2 ^ fmt.F
    let gives := fun i y => exec i s = .next (s.drive ⟨y, 0, false⟩)
    (∀ i ∈ [Instr.floor, .ceil, .rnde, .rndhu],
      (isNaN e.a = true → gives i (NAN fmt)) ∧ (isPInf e.a = true → gives i (PINF fmt)) ∧
      (isNInf e.a = true → gives i (NINF fmt))) ∧
    (isNormal e.a = true →
      (∃ k, k * one ≤ x ∧ x < (k + 1) * one ∧ gives .floor (sat fmt (k * one))) ∧
      (∃ k, (k - 1) * one < x ∧ x ≤ k * one ∧ gives .ceil (sat fmt (k * one))) ∧
      (∃ k, NearestEven k x one ∧ gives .rnde (sat fmt (k * one))) ∧
      (∃ k, NearestAway k x one ∧ gives .rndhu (sat fmt (k * one))))

/-- R225, R234 to R237, R383: FLOORI, CEILI, RNDEI and RNDHUI give the integer part as a W-bit
integer, with the sentinels `INT_MAX` for NaN and +Infinity and `INT_MIN` for −Infinity, and no
normal gives a sentinel word. -/
def Obligations.RoundingToInteger : Prop :=
  encode .floori = 0x0014#16 ∧ encode .ceili = 0x0015#16 ∧ encode .rndei = 0x0016#16 ∧
  encode .rndhui = 0x0017#16 ∧
  ∀ (s : State) (e : Entry) (rest : List Entry), s.pending = e :: rest →
    let fmt := s.build.fmt
    let x := v fmt e.a
    let one : Int := 2 ^ fmt.F
    let gives := fun i n => exec i s = .next (s.drive ⟨word fmt.W n, 0, false⟩)
    let noSentinel := fun n => word fmt.W n ≠ word fmt.W (2 ^ (fmt.W - 1) - 1) ∧
      word fmt.W n ≠ word fmt.W (-2 ^ (fmt.W - 1))
    (∀ i ∈ [Instr.floori, .ceili, .rndei, .rndhui],
      (isNaN e.a = true → gives i (2 ^ (fmt.W - 1) - 1)) ∧
      (isPInf e.a = true → gives i (2 ^ (fmt.W - 1) - 1)) ∧
      (isNInf e.a = true → gives i (-2 ^ (fmt.W - 1)))) ∧
    (isNormal e.a = true →
      (∃ k, k * one ≤ x ∧ x < (k + 1) * one ∧ noSentinel k ∧ gives .floori k) ∧
      (∃ k, (k - 1) * one < x ∧ x ≤ k * one ∧ noSentinel k ∧ gives .ceili k) ∧
      (∃ k, NearestEven k x one ∧ noSentinel k ∧ gives .rndei k) ∧
      (∃ k, NearestAway k x one ∧ noSentinel k ∧ gives .rndhui k))

/-- R238: RSHRE shifts the whole word as a two's-complement integer, rounding to even; the result
fits the port; a count above `W − 1` is an illegal command. -/
def Obligations.ShiftRoundsARawInteger : Prop :=
  (∀ c : BitVec 6, encode (.rshre c) = BitVec.ofNat 16 (0x18 + 64 * c.toNat)) ∧
  ∀ (s : State) (e : Entry) (rest : List Entry) (c : BitVec 6), s.pending = e :: rest →
    let fmt := s.build.fmt
    (c.toNat ≤ fmt.W - 1 → ∃ r,
      NearestEven r (signed fmt.W e.a) (2 ^ c.toNat) ∧
      -2 ^ (fmt.W - 1) ≤ r ∧ r < 2 ^ (fmt.W - 1) ∧
      exec (.rshre c) s = .next (s.drive ⟨word fmt.W r, 0, false⟩)) ∧
    (fmt.W - 1 < c.toNat → exec (.rshre c) s = .next (s.drive ⟨NAN fmt, 0, true⟩))

/-- R240 and R241: TODBL gives the finite binary64 pattern nearest to the value, ties to the even
significand, whole in `y` when `W = 64` and split over `y` and `yh` when `W = 32`; NaN and the
Infinities have their patterns. -/
def Obligations.ToDoubleIsNearest : Prop :=
  encode .todbl = 0x001C#16 ∧
  ∀ (s : State) (e : Entry) (rest : List Entry), s.pending = e :: rest →
    s.build.fmt.legal = true →
    let fmt := s.build.fmt
    let x := v fmt e.a
    ∃ d : BitVec 64,
      (fmt.width = .w64 → exec .todbl s = .next (s.drive ⟨d, 0, false⟩)) ∧
      (fmt.width = .w32 → exec .todbl s = .next (s.drive
        ⟨BitVec.ofNat 64 (d.toNat % 2 ^ 32), BitVec.ofNat 64 (d.toNat / 2 ^ 32), false⟩)) ∧
      (isNaN e.a = true → d = 0x7FF8000000000000#64) ∧
      (isPInf e.a = true → d = 0x7FF0000000000000#64) ∧
      (isNInf e.a = true → d = 0xFFF0000000000000#64) ∧
      (isNormal e.a = true → x = 0 → d = 0#64) ∧
      (isNormal e.a = true → dblExp d ≠ 2047 ∧
        ∀ d' : BitVec 64, dblExp d' ≠ 2047 →
          |dblScaled d * 2 ^ fmt.F - x * 2 ^ 1075| ≤ |dblScaled d' * 2 ^ fmt.F - x * 2 ^ 1075| ∧
          (|dblScaled d * 2 ^ fmt.F - x * 2 ^ 1075| = |dblScaled d' * 2 ^ fmt.F - x * 2 ^ 1075| →
            dblScaled d = dblScaled d' ∨ dblFrac d % 2 = 0))

/-- R242: FROMDBL rounds the exact value of a finite pattern to the nearest value field, ties to
even, and saturates; a binary64 NaN gives NaN and an infinity its Infinity. The pattern is `a` when
`W = 64` and `{b, a}` when `W = 32` (R62). -/
def Obligations.FromDoubleRoundsOnce : Prop :=
  encode .fromdbl = 0x001D#16 ∧
  ∀ (s : State) (e : Entry) (rest : List Entry) (d : BitVec 64), s.pending = e :: rest →
    (s.build.fmt.width = .w64 → d = e.a) →
    (s.build.fmt.width = .w32 →
      d.toNat = e.a.toNat % 2 ^ 32 + 2 ^ 32 * (e.b.toNat % 2 ^ 32)) →
    let fmt := s.build.fmt
    let gives := fun y => exec .fromdbl s = .next (s.drive ⟨y, 0, false⟩)
    (dblExp d = 2047 → dblFrac d ≠ 0 → gives (NAN fmt)) ∧
    (dblExp d = 2047 → dblFrac d = 0 → dblSign d = false → gives (PINF fmt)) ∧
    (dblExp d = 2047 → dblFrac d = 0 → dblSign d = true → gives (NINF fmt)) ∧
    (dblExp d ≠ 2047 →
      ∃ r, NearestEven r (dblScaled d * 2 ^ fmt.F) (2 ^ 1075) ∧ gives (sat fmt r))

/-- R243: `FROMDBL(TODBL(x)) = x` exactly for every normal when `W = 32`, and for every normal with
`|v(x)| < 2^53` when `W = 64`. -/
def Obligations.DoubleRoundTripIsExact : Prop :=
  ∀ (bld : Build) (a : Word) (r : Response), bld.fmt.legal = true →
    isNormal a = true → Fits bld.fmt.W a →
    (bld.fmt.width = .w32 ∨ |v bld.fmt a| < 2 ^ 53) →
    execute bld (encode .todbl) a 0 = some r →
    resultOf bld .fromdbl r.y r.yh = some a

/-- R250: LIT is the literal's value rounded to even, with the sign applied, wrapped modulo
`2^(W−2)`: never a special, never saturated. A digit count above `NMAX` is an illegal command. -/
def Obligations.LiteralRoundsAndWraps : Prop :=
  (∀ (sign : Bool) (n : BitVec 6),
    encode (.lit sign n) = BitVec.ofNat 16 (0x1E + 64 * n.toNat + 4096 * sign.toNat)) ∧
  ∀ (s : State) (e : Entry) (rest : List Entry) (sign : Bool) (n : BitVec 6),
    s.pending = e :: rest →
    let fmt := s.build.fmt
    let NMAX := match fmt.width with | .w32 => 9 | .w64 => 19
    let M : Int := zext fmt.W e.a
    let D : Int := zext fmt.W e.b
    (n.toNat ≤ NMAX → ∃ f y : Int,
      NearestEven f (D * 2 ^ fmt.F) (10 ^ n.toNat) ∧
      WrapsTo fmt (if sign then -(M * 2 ^ fmt.F + f) else M * 2 ^ fmt.F + f) y ∧
      exec (.lit sign n) s = .next (s.drive ⟨enc fmt y, 0, false⟩)) ∧
    (NMAX < n.toNat → exec (.lit sign n) s = .next (s.drive ⟨NAN fmt, 0, true⟩))

/-- R255 to R258: the constant table. π, τ and e are their 128-bit masters rounded to even to `F`
fraction bits and wrapped like a literal. A selector above 11 is an illegal command. -/
def Obligations.ConstantTable : Prop :=
  (∀ sel : BitVec 6, encode (.const sel) = BitVec.ofNat 16 (0x1F + 64 * sel.toNat)) ∧
  ∀ (s : State) (e : Entry) (rest : List Entry), s.pending = e :: rest →
    let fmt := s.build.fmt
    let gives := fun sel y => exec (.const sel) s = .next (s.drive ⟨y, 0, false⟩)
    let rounded := fun (master : Int) sel => ∃ k y : Int,
      NearestEven k master (2 ^ (128 - fmt.F)) ∧ WrapsTo fmt k y ∧ gives sel (enc fmt y)
    gives 0#6 (enc fmt 0) ∧ gives 1#6 (enc fmt (2 ^ fmt.F)) ∧ gives 2#6 (enc fmt 1) ∧
    gives 3#6 (enc fmt (-1)) ∧ gives 4#6 (enc fmt (-2 ^ (fmt.W - 3))) ∧
    gives 5#6 (enc fmt (2 ^ (fmt.W - 3) - 1)) ∧
    rounded 0x3243F6A8885A308D313198A2E03707345 6#6 ∧
    rounded 0x6487ED5110B4611A62633145C06E0E689 7#6 ∧
    rounded 0x2B7E151628AED2A6ABF7158809CF4F3C7 8#6 ∧
    gives 9#6 (NAN fmt) ∧ gives 10#6 (PINF fmt) ∧ gives 11#6 (NINF fmt) ∧
    ∀ sel : BitVec 6, 11 < sel.toNat →
      exec (.const sel) s = .next (s.drive ⟨NAN fmt, 0, true⟩)

/-! ### Square root, exponential, logarithms, power (44_transcendental.md) -/

/-- R280 and R282: SQRT is the value field nearest to the exact root of every non-negative normal,
always a normal; +Infinity gives +Infinity; NaN, −Infinity and negative normals give NaN. -/
def Obligations.SquareRootIsNearest : Prop :=
  encode .sqrt = 0x0020#16 ∧
  ∀ (s : State) (e : Entry) (rest : List Entry), s.pending = e :: rest →
    s.build.fmt.legal = true →
    let fmt := s.build.fmt
    let gives := fun y => exec .sqrt s = .next (s.drive ⟨y, 0, false⟩)
    ((isNaN e.a = true ∨ Negative fmt e.a) → gives (NAN fmt)) ∧
    (isPInf e.a = true → gives (PINF fmt)) ∧
    (isNormal e.a = true → 0 ≤ v fmt e.a →
      ∃ r : Int, 0 ≤ r ∧ r ≤ vmax fmt ∧
        4 * (v fmt e.a * 2 ^ fmt.F) < (2 * r + 1) ^ 2 ∧
        (r = 0 ∨ (2 * r - 1) ^ 2 < 4 * (v fmt e.a * 2 ^ fmt.F)) ∧
        gives (enc fmt r))

/-- R288 and R311, in both modes of `TRANS_IMPL`: the special values of EXP, `EXP(ZERO) = ONE`, and
on any normal +Infinity or a normal that is not negative. -/
def Obligations.ExponentialSpecialsAndSign : Prop :=
  encode .exp = 0x0021#16 ∧
  ∀ (s : State) (e : Entry) (rest : List Entry), s.pending = e :: rest →
    s.build.fmt.legal = true →
    let fmt := s.build.fmt
    ∃ y, exec .exp s = .next (s.drive ⟨y, 0, false⟩) ∧
      (isNaN e.a = true → y = NAN fmt) ∧ (isPInf e.a = true → y = PINF fmt) ∧
      (isNInf e.a = true → y = ZERO fmt) ∧
      (isNormal e.a = true → v fmt e.a = 0 → y = ONE fmt) ∧
      (isNormal e.a = true → y = PINF fmt ∨ (isNormal y = true ∧ 0 ≤ v fmt y))

/-- R287 and R288: with `TRANS_IMPL = reference`, EXP of a special is as the rule lists it and EXP of
a normal is `EXP_REF`, its loop written as the rule writes it: for `i` from 1 to `Q`, one factor
`EXP2_Q[i]` where bit `Q − i` of `f` is 1. The masters are written out as R286 lists them. -/
def Obligations.ExponentialFollowsTheReference : Prop :=
  encode .exp = 0x0021#16 ∧
  exp2Masters =
    [0x16A09E667F3BCC908B2FB1366EA957D3E, 0x1306FE0A31B7152DE8D5A46305C85EDED,
     0x1172B83C7D517ADCDF7C8C50EB14A7920, 0x10B5586CF9890F6298B92B71842A98364,
     0x1059B0D31585743AE7C548EB68CA417FE, 0x102C9A3E778060EE6F7CACA4F7A29BDE9,
     0x10163DA9FB33356D84A66AE336DCDFA40, 0x100B1AFA5ABCBED6129AB13EC11DC9544,
     0x10058C86DA1C09EA1FF19D294CF2F679C, 0x1002C605E2E8CEC506D21BFC89A23A011,
     0x100162F3904051FA128BCA9C55C31E5E0, 0x1000B175EFFDC76BA38E31671CA939726,
     0x100058BA01FB9F96D6CACD4B180917C3E, 0x10002C5CC37DA9491D0985C348C68E7B4,
     0x1000162E525EE054754457D5995292027, 0x10000B17255775C040618BF4A4ADE83FD]
    ++ [0x1000058B91B5BC9AE2EED81E9B7D4CFAC, 0x100002C5C89D5EC6CA4D7C8ACC017B7CA,
     0x10000162E43F4F831060E02D839A9D16D, 0x100000B1721BCFC99D9F890EA06911763,
     0x10000058B90CF1E6D97F9CA14DBCC1629, 0x1000002C5C863B73F016468F6BAC5CA2C,
     0x100000162E430E5A18F6119E3C02282A6, 0x1000000B1721835514B86E6D96EFD1BFF,
     0x100000058B90C0B48C6BE5DF846C5B2F0, 0x10000002C5C8601CC6B9E94213C72737B,
     0x1000000162E42FFF037DF38AA2B219F07, 0x10000000B17217FBA9C739AA5819F44FA,
     0x1000000058B90BFCDEE5ACD3C1CEDC824, 0x100000002C5C85FE31F35A6A30DA1BE51,
     0x10000000162E42FF0999CE3541B9FFFD0, 0x100000000B17217F80F4EF5AADDA45554]
    ++ [0x10000000058B90BFBF8479BD5A81B51AE, 0x1000000002C5C85FDF84BD62AE30A74CD,
     0x100000000162E42FEFB2FED257559BDAA, 0x1000000000B17217F7D5A7716BBA4A9AF,
     0x100000000058B90BFBE9DDBAC5E109CCF, 0x10000000002C5C85FDF4B15DE6F17EB0E,
     0x1000000000162E42FEFA494F1478FDE05, 0x10000000000B17217F7D20CF927C8E94D,
     0x1000000000058B90BFBE8F71CB4E4B33E, 0x100000000002C5C85FDF477B662B26946,
     0x10000000000162E42FEFA3AE53369388D, 0x100000000000B17217F7D1D351A389D41,
     0x10000000000058B90BFBE8E8B2D3D4EDF, 0x1000000000002C5C85FDF4741BEA6E77F,
     0x100000000000162E42FEFA39FE95583C3, 0x1000000000000B17217F7D1CFB72B45E3]
    ++ [0x100000000000058B90BFBE8E7CC35C3F2, 0x10000000000002C5C85FDF473E242EA39,
     0x1000000000000162E42FEFA39F02B772C, 0x10000000000000B17217F7D1CF7D83C1A,
     0x1000000000000058B90BFBE8E7BDCBE2E, 0x100000000000002C5C85FDF473DEA871F,
     0x10000000000000162E42FEFA39EF44D92, 0x100000000000000B17217F7D1CF79E949,
     0x10000000000000058B90BFBE8E7BCE545, 0x1000000000000002C5C85FDF473DE6ECA,
     0x100000000000000162E42FEFA39EF366F, 0x1000000000000000B17217F7D1CF79AFA,
     0x100000000000000058B90BFBE8E7BCD6E, 0x10000000000000002C5C85FDF473DE6B3,
     0x1000000000000000162E42FEFA39EF359, 0x10000000000000000B17217F7D1CF79AC]
    ++ [0x1000000000000000058B90BFBE8E7BCD6, 0x100000000000000002C5C85FDF473DE6B,
     0x10000000000000000162E42FEFA39EF35, 0x100000000000000000B17217F7D1CF79B,
     0x10000000000000000058B90BFBE8E7BCD, 0x1000000000000000002C5C85FDF473DE7,
     0x100000000000000000162E42FEFA39EF3, 0x1000000000000000000B17217F7D1CF7A,
     0x100000000000000000058B90BFBE8E7BD, 0x10000000000000000002C5C85FDF473DE,
     0x1000000000000000000162E42FEFA39EF, 0x10000000000000000000B17217F7D1CF8,
     0x1000000000000000000058B90BFBE8E7C, 0x100000000000000000002C5C85FDF473E,
     0x10000000000000000000162E42FEFA39F, 0x100000000000000000000B17217F7D1CF] ∧
  ∀ (s : State) (e : Entry) (rest : List Entry), s.pending = e :: rest →
    s.build.trans = .reference →
    let fmt := s.build.fmt
    let gives := fun y => exec .exp s = .next (s.drive ⟨y, 0, false⟩)
    let Q := fmt.W + 16
    let T := rte (v fmt e.a * rte 0x171547652B82FE1777D0FFDA0D23A7D12 (128 - Q)) fmt.F
    let n := T / 2 ^ Q
    let f := T % 2 ^ Q
    let Y := (List.range Q).foldl (fun (Y : Int) j =>
      if f / 2 ^ (Q - (j + 1)) % 2 = 1 then
        rte (Y * rte (exp2Masters.getD j 0) (128 - Q)) Q
      else Y) (2 ^ Q)
    let sh : Int := Q - fmt.F - n
    let R := if 0 ≤ sh then rte Y sh.toNat else Y * 2 ^ (-sh).toNat
    (isNaN e.a = true → gives (NAN fmt)) ∧ (isPInf e.a = true → gives (PINF fmt)) ∧
    (isNInf e.a = true → gives (ZERO fmt)) ∧
    (isNormal e.a = true →
      gives (if sh < -(fmt.W : Int) then PINF fmt else if R > vmax fmt then PINF fmt
        else enc fmt R))

/-- R296 and R311, in both modes of `TRANS_IMPL`: the special values of LN, LOG2 and LOG10, zero at
ONE, and the sign of the result on the two sides of ONE. -/
def Obligations.LogarithmSpecialsAndSign : Prop :=
  encode .ln = 0x0022#16 ∧ encode .log2 = 0x0023#16 ∧ encode .log10 = 0x0024#16 ∧
  ∀ (s : State) (e : Entry) (rest : List Entry) (i : Instr), s.pending = e :: rest →
    s.build.fmt.legal = true → i ∈ [Instr.ln, .log2, .log10] →
    let fmt := s.build.fmt
    let x := v fmt e.a
    ∃ y, exec i s = .next (s.drive ⟨y, 0, false⟩) ∧
      (isNaN e.a = true → y = NAN fmt) ∧ (isPInf e.a = true → y = PINF fmt) ∧
      (isNInf e.a = true → y = NAN fmt) ∧
      (isNormal e.a = true → x < 0 → y = NAN fmt) ∧
      (isNormal e.a = true → x = 0 → y = NINF fmt) ∧
      (isNormal e.a = true → x = 2 ^ fmt.F → y = ZERO fmt) ∧
      (isNormal e.a = true → 2 ^ fmt.F ≤ x →
        y = PINF fmt ∨ (isNormal y = true ∧ 0 ≤ v fmt y)) ∧
      (isNormal e.a = true → 0 < x → x < 2 ^ fmt.F →
        y = NINF fmt ∨ (isNormal y = true ∧ v fmt y ≤ 0))

/-- R297 and R311, in both modes of `TRANS_IMPL`: LOG2 of a power of two is exact wherever its
logarithm is representable. -/
def Obligations.Log2OfPowersOfTwoIsExact : Prop :=
  ∀ (s : State) (e : Entry) (rest : List Entry) (j : Nat), s.pending = e :: rest →
    s.build.fmt.legal = true →
    let fmt := s.build.fmt
    let L : Int := ((j : Int) - fmt.F) * 2 ^ fmt.F
    isNormal e.a = true → v fmt e.a = 2 ^ j → vmin fmt ≤ L → L ≤ vmax fmt →
    exec .log2 s = .next (s.drive ⟨enc fmt L, 0, false⟩)

/-- R295, R297 to R299: with `TRANS_IMPL = reference`, LOG2, LN and LOG10 have the special values of
R296, and of a positive normal they are `LOG2_CORE`, its loop written as the rule writes it, scaled and rounded once more. -/
def Obligations.LogarithmsFollowTheReference : Prop :=
  ∀ (s : State) (e : Entry) (rest : List Entry), s.pending = e :: rest →
    s.build.trans = .reference →
    let fmt := s.build.fmt
    let gives := fun i y => exec i s = .next (s.drive ⟨y, 0, false⟩)
    let Q := fmt.W + 16
    let m := (v fmt e.a).toNat
    let top := m.log2
    let YL := (List.range Q).foldl (fun (YL : Int × Int) j =>
      let Y := rte (YL.1 * YL.1) Q
      if 2 ^ (Q + 1) ≤ Y then (rte Y 1, YL.2 + 2 ^ (Q - (j + 1))) else (Y, YL.2))
      ((m : Int) * 2 ^ (Q - top), 0)
    let L := ((top : Int) - fmt.F) * 2 ^ Q + YL.2
    let LN2 := rte 0xB17217F7D1CF79ABC9E3B39803F2F6AF (128 - Q)
    let LG2 := rte 0x4D104D427DE7FBCC47C4ACD605BE48BC (128 - Q)
    (∀ i ∈ [Instr.ln, .log2, .log10],
      (isNaN e.a = true → gives i (NAN fmt)) ∧ (isPInf e.a = true → gives i (PINF fmt)) ∧
      (isNInf e.a = true → gives i (NAN fmt)) ∧
      (isNormal e.a = true → v fmt e.a < 0 → gives i (NAN fmt)) ∧
      (isNormal e.a = true → v fmt e.a = 0 → gives i (NINF fmt))) ∧
    (isNormal e.a = true → 0 < v fmt e.a →
      gives .log2 (sat fmt (rte L (Q - fmt.F))) ∧
      gives .ln (sat fmt (rte (L * LN2) (2 * Q - fmt.F))) ∧
      gives .log10 (sat fmt (rte (L * LG2) (2 * Q - fmt.F))))

/-- R305, R307 and R308, in both modes of `TRANS_IMPL`: the special-value table of POW. A zero exponent
of a normal base other than zero gives ONE without a condition, as R305's corner cases, R307 and
R308 say and R305's pseudocode does not where the logarithm saturates: the model's reading, log
entry 9. -/
def Obligations.PowerSpecials : Prop :=
  encode .pow = 0x0025#16 ∧
  ∀ (s : State) (e : Entry) (rest : List Entry), s.pending = e :: rest →
    s.build.fmt.legal = true →
    let fmt := s.build.fmt
    let x := v fmt e.a
    let y := v fmt e.b
    let one : Int := 2 ^ fmt.F
    let gives := fun r => exec .pow s = .next (s.drive ⟨r, 0, false⟩)
    (∃ r, gives r) ∧
    ((isNaN e.a = true ∨ isNaN e.b = true) → gives (NAN fmt)) ∧
    (Negative fmt e.a → ¬(isNormal e.b = true ∧ y % one = 0) → gives (NAN fmt)) ∧
    (isNormal e.a = true → x ≠ 0 → isNormal e.b = true → y = 0 → gives (ONE fmt)) ∧
    (isNormal e.a = true → 0 < x → resultOf s.build .ln e.a 0 = some (ZERO fmt) →
      isInf e.b = true → gives (NAN fmt)) ∧
    (isNormal e.a = true → one < x → resultOf s.build .ln e.a 0 ≠ some (ZERO fmt) →
      (isPInf e.b = true → gives (PINF fmt)) ∧ (isNInf e.b = true → gives (ZERO fmt))) ∧
    (isNormal e.a = true → 0 < x → x < one → resultOf s.build .ln e.a 0 ≠ some (ZERO fmt) →
      (isPInf e.b = true → gives (ZERO fmt)) ∧ (isNInf e.b = true → gives (PINF fmt))) ∧
    (isNormal e.a = true → x = one → isNormal e.b = true → gives (ONE fmt)) ∧
    (isNormal e.a = true → x = one → isInf e.b = true → gives (NAN fmt)) ∧
    (isNormal e.a = true → x = 0 → isNormal e.b = true →
      (y < 0 → gives (PINF fmt)) ∧ (y = 0 → gives (NAN fmt)) ∧ (0 < y → gives (ZERO fmt))) ∧
    (isNormal e.a = true → x = 0 → isPInf e.b = true → gives (ZERO fmt)) ∧
    (isNormal e.a = true → x = 0 → isNInf e.b = true → gives (PINF fmt)) ∧
    (isPInf e.a = true → isNormal e.b = true →
      (y < 0 → gives (ZERO fmt)) ∧ (y = 0 → gives (NAN fmt)) ∧ (0 < y → gives (PINF fmt))) ∧
    (isPInf e.a = true → isPInf e.b = true → gives (PINF fmt)) ∧
    (isPInf e.a = true → isNInf e.b = true → gives (ZERO fmt)) ∧
    (isNInf e.a = true → isNormal e.b = true → y % one = 0 →
      (y < 0 → gives (ZERO fmt)) ∧ (y = 0 → gives (NAN fmt)) ∧
      (0 < y → y / one % 2 = 1 → gives (NINF fmt)) ∧
      (0 < y → y / one % 2 = 0 → gives (PINF fmt)))

/-- R305 and R306: POW is NaN for a NaN and for a negative base with an exponent that is no integer;
ONE for a zero exponent of a normal base other than zero; else it is the composition of the unit's
own MUL, EXP and NEG with LN of the base, or, for a negative base, with the logarithm of its
magnitude, negated for an odd exponent. For a zero exponent the composition is ONE too wherever that
logarithm is a normal; ONE where it is not is the model's reading (log entry 9). The logarithms of
the opaque mode are free values (log entry 8). -/
def Obligations.PowerIsTheComposition : Prop :=
  encode .pow = 0x0025#16 ∧
  ∀ (bld : Build) (a b : Word),
    let fmt := bld.fmt
    let integer : Prop := isNormal b = true ∧ v fmt b % 2 ^ fmt.F = 0
    let toTheZero : Prop := isNormal a = true ∧ v fmt a ≠ 0 ∧ isNormal b = true ∧ v fmt b = 0
    ((isNaN a = true ∨ isNaN b = true) → resultOf bld .pow a b = some (NAN fmt)) ∧
    (Negative fmt a → ¬integer → resultOf bld .pow a b = some (NAN fmt)) ∧
    (toTheZero → resultOf bld .pow a b = some (ONE fmt)) ∧
    (isNaN a = false → isNaN b = false → (Negative fmt a → integer) →
      ∀ l p r nr : Word,
        (Negative fmt a → l = lnMagnitude bld a) →
        (¬Negative fmt a → resultOf bld .ln a 0 = some l) →
        resultOf bld .mul b l = some p → resultOf bld .exp p 0 = some r →
        resultOf bld .neg r 0 = some nr →
        (¬toTheZero → resultOf bld .pow a b =
          some (if Negative fmt a ∧ v fmt b / 2 ^ fmt.F % 2 = 1 then nr else r)) ∧
        (toTheZero → fmt.legal = true → isNormal l = true → r = ONE fmt)) ∧
    (isNInf a = true → lnMagnitude bld a = PINF fmt) ∧
    (isNormal a = true → v fmt a < 0 →
      (bld.trans = .reference → lnMagnitude bld a =
        sat fmt (rte (log2Core fmt (-v fmt a).toNat * ln2Q fmt) (2 * (fmt.W + 16) - fmt.F))) ∧
      ∀ n : Word, v fmt a ≠ vmin fmt → resultOf bld .neg a 0 = some n →
        resultOf bld .ln n 0 = some (lnMagnitude bld a))

/-! ### Trigonometry (45_cordic_trig.md) -/

/-- R335: the reduced angle is in its quadrant and below the bound the rule gives, and its turn
fraction is the nearest one to the operand's. -/
def Obligations.ReducedAnglesAreInRange : Prop :=
  ∀ (fmt : Format) (x : Int),
    let r := reduce fmt x
    r.q ≤ 3 ∧ r.w < 2 ^ 30 ∧ 0 ≤ r.theta ∧ r.theta ≤ 421657428 ∧
    ∃ u : Int,
      NearestEven u (x * rte 0x28BE60DB9391054A7F09D5F47D4D3770 (128 - (fmt.W + 48)))
        (2 ^ (fmt.F + (fmt.W + 48) - 32)) ∧
      u % 2 ^ 32 = r.q * 2 ^ 30 + r.w ∧ NearestEven r.theta (r.w * 0x6487ED511) (2 ^ 36)

/-- R345, R355 and R358, in both modes of `TRANS_IMPL`: every special gives NaN; the values at zero;
a normal gives a normal for SIN, COS and SINF, with `TRANS_IMPL = opaque` one of magnitude at most
`v(OUT(2^28 + 5))`; and a result depends on a normal only through `REDUCE`. What else the opaque
mode leaves free is log entry 8. -/
def Obligations.TrigonometricSpecialsAndZero : Prop :=
  encode .sin = 0x0028#16 ∧ encode .cos = 0x0029#16 ∧ encode .tan = 0x002A#16 ∧
  encode .sinf = 0x002B#16 ∧
  ∀ (s : State) (e : Entry) (rest : List Entry), s.pending = e :: rest →
    s.build.fmt.legal = true →
    let fmt := s.build.fmt
    let gives := fun i y => exec i s = .next (s.drive ⟨y, 0, false⟩)
    (∀ i ∈ [Instr.sin, .cos, .tan, .sinf], isNormal e.a = false → gives i (NAN fmt)) ∧
    (isNormal e.a = true → v fmt e.a = 0 →
      gives .sin (ZERO fmt) ∧ gives .cos (ONE fmt) ∧ gives .tan (ZERO fmt) ∧
      gives .sinf (ZERO fmt)) ∧
    (∀ i ∈ [Instr.sin, .cos, .sinf], isNormal e.a = true →
      ∃ y, isNormal y = true ∧ gives i y ∧
        (s.build.trans = .uninterpreted → |v fmt y| ≤ v fmt (enc fmt
          (if fmt.F ≤ 28 then rte (2 ^ 28 + 5) (28 - fmt.F)
            else (2 ^ 28 + 5) * 2 ^ (fmt.F - 28))))) ∧
    (∀ i ∈ [Instr.sin, .cos, .tan, .sinf], ∀ a y : Word, isNormal e.a = true →
      isNormal a = true → reduce fmt (v fmt e.a) = reduce fmt (v fmt a) →
      resultOf s.build i a 0 = some y → gives i y)

/-- R338 to R342: with `TRANS_IMPL = reference`, SIN and COS of a special are NaN, and of a normal are the CORDIC engine on the
reduced angle, its rotations written as the rule writes them, through the quadrant map and the
output stage; at `w = 0` the engine is bypassed. The step angles are written out as R332 lists
them. -/
def Obligations.SineAndCosineFollowTheReference : Prop :=
  encode .sin = 0x0028#16 ∧ encode .cos = 0x0029#16 ∧
  ∀ (s : State) (e : Entry) (rest : List Entry), s.pending = e :: rest →
    s.build.trans = .reference →
    let fmt := s.build.fmt
    let gives := fun i y => exec i s = .next (s.drive ⟨y, 0, false⟩)
    let r := reduce fmt (v fmt e.a)
    let ATAN : List Int :=
      [210828714, 124459457, 65760959, 33381290, 16755422, 8385879, 4193963,
       2097109, 1048571, 524287, 262144, 131072, 65536, 32768,
       16384, 8192, 4096, 2048, 1024, 512, 256,
       128, 64, 32, 16, 8, 4, 2]
    let xyz := (List.range 28).foldl (fun (t : Int × Int × Int) i =>
      if 0 ≤ t.2.2 then
        (t.1 - t.2.1 / 2 ^ i, t.2.1 + t.1 / 2 ^ i, t.2.2 - ATAN.getD i 0)
      else (t.1 + t.2.1 / 2 ^ i, t.2.1 - t.1 / 2 ^ i, t.2.2 + ATAN.getD i 0))
      (163008219, 0, r.theta)
    let c := if r.w = 0 then 2 ^ 28 else xyz.1
    let sn := if r.w = 0 then 0 else xyz.2.1
    let out := fun z : Int =>
      enc fmt (if fmt.F ≤ 28 then rte z (28 - fmt.F) else z * 2 ^ (fmt.F - 28))
    (isNormal e.a = false → gives .sin (NAN fmt) ∧ gives .cos (NAN fmt)) ∧
    (isNormal e.a = true →
      gives .sin (out (if r.q = 0 then sn else if r.q = 1 then c else if r.q = 2 then -sn
        else -c)) ∧
      gives .cos (out (if r.q = 0 then c else if r.q = 1 then -sn else if r.q = 2 then -c
        else sn)))

/-- R331 and R340: the CORDIC engine makes 28 micro-rotations, none of its values reaches `±2^29` on
the way, for any angle in the reduced range, and so the output stage never overflows: not on the
engine's two results, nor on the columns of the quadrant map or the value of the fast sine, whatever
the operand. -/
def Obligations.CordicNeverOverflows : Prop :=
  atanTable.length = 28 ∧
  (∀ theta : Int, 0 ≤ theta → theta ≤ 421657428 →
    (∀ n : Nat,
      let t := rotations 0 (atanTable.take n) { x := kGain, y := 0, z := theta }
      |t.x| < 2 ^ 29 ∧ |t.y| < 2 ^ 29 ∧ |t.z| < 2 ^ 29) ∧
    ∀ fmt : Format, fmt.legal = true →
      vmin fmt ≤ outValue fmt (cordic theta).1 ∧ outValue fmt (cordic theta).1 ≤ vmax fmt ∧
      vmin fmt ≤ outValue fmt (cordic theta).2 ∧ outValue fmt (cordic theta).2 ≤ vmax fmt) ∧
  ∀ (fmt : Format) (x : Int), fmt.legal = true →
    ∀ z ∈ [sinColumn (reduce fmt x), cosColumn (reduce fmt x), sinfColumn (reduce fmt x)],
      |z| < 2 ^ 29 ∧ vmin fmt ≤ outValue fmt z ∧ outValue fmt z ≤ vmax fmt

/-- R351: with `TRANS_IMPL = reference`, SINF of a special is NaN, and of a normal is the degree-7
polynomial on the folded angle. -/
def Obligations.FastSineFollowsTheReference : Prop :=
  encode .sinf = 0x002B#16 ∧
  ∀ (s : State) (e : Entry) (rest : List Entry), s.pending = e :: rest →
    s.build.trans = .reference →
    let fmt := s.build.fmt
    let gives := fun y => exec .sinf s = .next (s.drive ⟨y, 0, false⟩)
    let r := reduce fmt (v fmt e.a)
    let th := if r.q = 1 ∨ r.q = 3 then 421657428 - r.theta else r.theta
    let t := rte (th ^ 2) 28
    let p := [2236962, 44739243, 2 ^ 28].foldl (fun (p c : Int) => c - rte (t * p) 28) 53261
    let z := rte (th * p) 28
    let z := if r.q = 0 ∨ r.q = 1 then z else -z
    (isNormal e.a = false → gives (NAN fmt)) ∧
    (isNormal e.a = true →
      gives (enc fmt (if fmt.F ≤ 28 then rte z (28 - fmt.F) else z * 2 ^ (fmt.F - 28))))

/-- R343: TAN is DIV of the unit's own SIN and COS. -/
def Obligations.TangentIsTheQuotient : Prop :=
  encode .tan = 0x002A#16 ∧
  ∀ (s : State) (e : Entry) (rest : List Entry) (sn cs y : Word), s.pending = e :: rest →
    resultOf s.build .sin e.a 0 = some sn → resultOf s.build .cos e.a 0 = some cs →
    resultOf s.build .div sn cs = some y →
    exec .tan s = .next (s.drive ⟨y, 0, false⟩)

/-! ### Rules over the whole command set -/

/-- R381: a NaN operand that the operation reads gives the canonical NaN, for every operation with a
FIX result and a FIX operand. -/
def Obligations.NaNPropagates : Prop :=
  ∀ (s : State) (e : Entry) (rest : List Entry), s.pending = e :: rest →
    (∀ i ∈ unaryFix, isNaN e.a = true → exec i s = .next (s.drive ⟨NAN s.build.fmt, 0, false⟩)) ∧
    (∀ i ∈ binaryFix, (isNaN e.a = true ∨ isNaN e.b = true) →
      exec i s = .next (s.drive ⟨NAN s.build.fmt, 0, false⟩))

/-- R91: every operation on packed values but ISNEG treats a special word exactly as the canonical
pattern of its tag. -/
def Obligations.SpecialsAreReadByTheirTag : Prop :=
  ∀ (bld : Build) (i : Instr) (a b : Word), ReadsRawBits i = false →
    WellFormed bld.fmt.width i = true →
    execute bld (encode i) a b =
      execute bld (encode i) (canonical bld.fmt a) (canonical bld.fmt b)

/-- R91 and R83: every FIX result that is no normal is one of the three canonical patterns. -/
def Obligations.SpecialResultsAreCanonical : Prop :=
  ∀ (bld : Build) (i : Instr) (a b y : Word), FixResult i = true →
    resultOf bld i a b = some y →
    isNormal y = true ∨ y = NAN bld.fmt ∨ y = PINF bld.fmt ∨ y = NINF bld.fmt

/-- R106: an operand port that the operation does not read has no effect on the response. -/
def Obligations.UnreadPortsHaveNoEffect : Prop :=
  ∀ (bld : Build) (i : Instr) (a b b' : Word),
    (ReadsB bld.fmt.width i = false →
      execute bld (encode i) a b = execute bld (encode i) a b') ∧
    ∀ (sel : BitVec 6) (a' : Word),
      execute bld (encode (.const sel)) a b = execute bld (encode (.const sel)) a' b'

/-! ### The unit as a machine -/

/-- Every step keeps the invariant: `pending` within `DEPTH`, every word on its lines, every response
one the unit can give, the response ports valued exactly while `rsp_valid = 1`. -/
def Obligations.StepKeepsTheInvariant : Prop :=
  ∀ s t : State, s.Inv → step s = .next t → t.Inv

/-- The invariant holds after reset. -/
def Obligations.ResetMeetsTheInvariant : Prop := State.reset.Inv

/-- R380 and R401: no command and nothing the host does stops a unit that exists; parameters outside
R10 and R11 make no unit. -/
def Obligations.NothingStopsTheUnit : Prop :=
  (∀ s : State, s.build.supported = true → ∃ t, step s = .next t ∧ t.build = s.build) ∧
  (∀ s : State, s.build.supported = false → step s = .refused .unsupportedBuild) ∧
  (∀ (W F : Nat) (fmt : Format), Format.ofNumbers W F = some fmt ↔
    fmt.W = W ∧ fmt.F = F ∧ fmt.legal = true) ∧
  (∀ W F : Nat, Format.ofNumbers W F = none ↔ ¬((W = 32 ∨ W = 64) ∧ F ≤ W - 4))

/-- R410 and R411: at an edge with `rst = 1`, whatever else the pins say, `pending` is emptied,
nothing transfers, and `cmd_ready` and `rsp_valid` are 0; the dropped commands get no response. The
count towards `RST_READY` starts afresh, from the cycle of the model's reading (log entry 7). -/
def Obligations.ResetEdgeDropsTheCommandsInFlight : Prop :=
  ∀ s : State, s.build.supported = true → s.input.rst = true →
    ∃ t, step s = .next t ∧ t.pending = [] ∧ t.cmdReady = false ∧ t.rspValid = false ∧
      t.rsp = none ∧ t.delivered = s.delivered ∧ t.build = s.build ∧
      t.resetWait = some s.build.rstReady

/-- R43, R33 and R420: `cmd_ready` is 0 while `rst = 1` and whenever `pending` is full; `rsp_valid`
is 1 exactly at an edge without reset at which there is an oldest command and its latency has
passed, and else the response ports have no value; and where `rsp_valid` or `rsp_ready` is 0 no
response is delivered and, without reset, no command leaves. -/
def Obligations.HandshakeBounds : Prop :=
  ∀ s t : State, step s = .next t →
    (s.input.rst = true → t.cmdReady = false ∧ t.rspValid = false) ∧
    (s.build.depth ≤ s.pending.length → t.cmdReady = false) ∧
    (s.pending = [] → t.rspValid = false) ∧
    (t.rspValid = true ↔
      s.input.rst = false ∧ ∃ e rest, s.pending = e :: rest ∧ e.wait = 0) ∧
    (t.rspValid = false → t.rsp = none) ∧
    ((t.rspValid = false ∨ s.input.rspReady = false) → t.delivered = s.delivered ∧
      (s.input.rst = false →
        t.pending.map Entry.triple = s.pending.map Entry.triple ++ acceptedNow s))

/-- R34: `cmd`, `a` and `b` have no effect at an edge at which no command transfers. -/
def Obligations.OperandsAreSampledAtTheTransferOnly : Prop :=
  ∀ (s : State) (inp : EdgeInput) (later : List EdgeInput) (c : Cmd) (a b : Word),
    s.inputs = inp :: later →
    (inp.cmdValid = false ∨ s.cmdReadyAt inp = false) →
    step { s with inputs := { inp with cmd := c, a := a, b := b } :: later } = step s

/-- R412: `cmd_ready` becomes 1 within `RST_READY` cycles of the release of `rst`, whatever the
implementation chooses. That the first edge with `rst = 0` is cycle 0 is the model's reading (log
entry 7). -/
def Obligations.ReadyWithinRstReadyOfReset : Prop :=
  ∀ s t : State, s.build.supported = true → s.input.rst = true → step s = .next t →
    NoReset (s.build.rstReady + 1) t →
    ∃ j u, j ≤ s.build.rstReady ∧ run (j + 1) t = .next u ∧ u.cmdReady = true

/-- R420: the response to a command accepted at edge `t` is offered no earlier than edge
`t + LAT(op)`, and exactly then if every older response has transferred: `n` edges after the
acceptance, once all older responses have left, it is due exactly when `LAT ≤ n`. -/
def Obligations.ResponsesAreOfferedAtTheirLatency : Prop :=
  ∀ (n : Nat) (s t u : State), s.build.supported = true → s.input.rst = false →
    s.input.cmdValid = true → s.cmdReadyAt s.input = true →
    step s = .next t → NoReset n t → run n t = .next u →
    u.delivered.length = s.delivered.length + s.pending.length →
    u.oldestDue = decide (latency s.build s.input.cmd ≤ n + 1) ∧
    (u.input.rst = false → ∃ w, step u = .next w ∧ w.rspValid = u.oldestDue)

/-- R426: an offered response that the host does not take stays offered, with the same `y`, `yh` and
`ill`, unless a reset intervenes. -/
def Obligations.OfferedResponsesAreHeld : Prop :=
  ∀ s t u : State, step s = .next t → t.rspValid = true → s.input.rspReady = false →
    t.input.rst = false → step t = .next u →
    u.rspValid = true ∧ u.rsp = t.rsp

/-- R426, progress: when the host takes responses and does not reset, every command in flight is
answered within a number of edges that depends only on the commands in flight. -/
def Obligations.CommandsInFlightAreAnswered : Prop :=
  ∀ s : State, s.build.supported = true →
    let bound := (s.pending.map fun e => e.wait + 1).sum
    (∀ inp ∈ s.inputs.take bound, inp.rst = false ∧ inp.rspReady = true) →
    ∃ t, run bound s = .next t ∧
      s.delivered.length + s.pending.length ≤ t.delivered.length

/-- R70 and R71: responses leave in the order of acceptance, none twice, none left out: after any
number of edges without reset, the responses taken since are `execute` of a first part of the
commands that were in flight or have been accepted since, and the rest of them are in flight. -/
def Obligations.ResponsesLeaveInOrder : Prop :=
  ∀ (n : Nat) (s t : State), NoReset n s → run n s = .next t →
    ∃ k, let all := s.pending.map Entry.triple ++ acceptedIn n s
      k ≤ all.length ∧ t.pending.map Entry.triple = all.drop k ∧
      ∃ rs, t.delivered = s.delivered ++ rs ∧
        rs.map some = (all.take k).map (executeTriple s.build)

/-- R421, the constant-time property: two units that agree in everything but operands and results
(the same build, command words, host handshake timing and resets) show the same `cmd_ready` and
`rsp_valid` at every edge, and keep agreeing. -/
def Obligations.HandshakeTimingIsIndependentOfOperands : Prop :=
  ∀ (n : Nat) (s s' t : State), s.timing = s'.timing → run n s = .next t →
    ∃ t', run n s' = .next t' ∧ t.timing = t'.timing ∧ t.cmdReady = t'.cmdReady ∧
      t.rspValid = t'.rspValid
end

