-- ==== Sys2Proof/Laws/Bits.lean ====
section
/-! SUPPORT. Ports and fields as numbers: what `word`, `onLines`, `sext` and the packed-value helpers
come to. -/

namespace Sys2Proof.Machine

theorem Width.bits_le (w : Width) : w.bits ≤ 64 := by cases w <;> decide

theorem Width.le_bits (w : Width) : 32 ≤ w.bits := by cases w <;> decide

theorem two_pow_bits_le (w : Width) : 2 ^ w.bits ≤ 2 ^ 64 := by cases w <;> decide

/-- The number on the lines that `word` drives. -/
theorem word_toNat (w : Width) (n : Int) : (word w.bits n).toNat = (n % 2 ^ w.bits).toNat := by
  cases w <;> simp only [word, Width.bits, BitVec.toNat_ofNat] <;> omega

theorem word_fits (w : Width) (n : Int) : (word w.bits n).toNat < 2 ^ w.bits := by
  rw [word_toNat]; cases w <;> simp only [Width.bits] <;> omega

theorem onLines_toNat (w : Width) (a : Word) : (onLines w.bits a).toNat = a.toNat % 2 ^ w.bits := by
  cases w <;> simp only [onLines, zext, Width.bits, BitVec.toNat_ofNat] <;> omega

theorem onLines_fits (w : Width) (a : Word) : (onLines w.bits a).toNat < 2 ^ w.bits := by
  rw [onLines_toNat]; cases w <;> simp only [Width.bits] <;> omega

/-- `sext_N(x)` lies in the range of an N-bit two's-complement number. -/
theorem sext_range {N : Nat} (hN : 0 < N) (x : Int) :
    -2 ^ (N - 1) ≤ sext N x ∧ sext N x < 2 ^ (N - 1) := by
  obtain ⟨k, rfl⟩ : ∃ k, N = k + 1 := ⟨N - 1, by omega⟩
  have hp : (0 : Int) < 2 ^ k := by positivity
  have h1 := Int.emod_nonneg x (show (2 : Int) ^ (k + 1) ≠ 0 by positivity)
  have h2 := Int.emod_lt_of_pos x (show (0 : Int) < 2 ^ (k + 1) by positivity)
  simp only [sext, Nat.add_sub_cancel, pow_succ] at *
  split <;> constructor <;> omega

/-- `sext_N(x)` is congruent to `x` modulo `2^N`. -/
theorem sext_emod (N : Nat) (x : Int) : sext N x % 2 ^ N = x % 2 ^ N := by
  unfold sext
  dsimp only
  split
  · exact Int.emod_emod_of_dvd x (dvd_refl _)
  · rw [Int.sub_emod, Int.emod_self, Int.sub_zero, Int.emod_emod_of_dvd _ (dvd_refl _),
      Int.emod_emod_of_dvd _ (dvd_refl _)]

/-- The value field is in the range `[VMIN, VMAX]` for every word (R85). -/
theorem v_range (fmt : Format) (a : Word) : vmin fmt ≤ v fmt a ∧ v fmt a ≤ vmax fmt := by
  have hW : 0 < fmt.W - 2 := by have := Width.le_bits fmt.width; simp only [Format.W]; omega
  have h := sext_range hW (a.toNat / 4 : Nat)
  have e : fmt.W - 2 - 1 = fmt.W - 3 := by omega
  rw [e] at h
  unfold v vmin vmax
  omega

/-- The tag of a word is its number modulo 4 (R84). -/
theorem tag_toNat (a : Word) : (tag a).toNat = a.toNat % 4 := by
  simp [tag]

end Sys2Proof.Machine
end

