-- ==== Sys2Proof/Laws/State.lean ====
section
/-! SUPPORT. What each update of the state does to each field: one lemma a field, so that no proof
unfolds a record update. -/

namespace Sys2Proof.Machine

/-! ### The response ports -/

@[simp] theorem State.drive_build (s : State) (r : Response) :
    (s.drive r).build = s.build := rfl

@[simp] theorem State.drive_pending (s : State) (r : Response) :
    (s.drive r).pending = s.pending := rfl

@[simp] theorem State.drive_cmdReady (s : State) (r : Response) :
    (s.drive r).cmdReady = s.cmdReady := rfl

@[simp] theorem State.drive_rspValid (s : State) (r : Response) :
    (s.drive r).rspValid = true := rfl

@[simp] theorem State.drive_rsp (s : State) (r : Response) :
    (s.drive r).rsp = some r := rfl

@[simp] theorem State.drive_resetWait (s : State) (r : Response) :
    (s.drive r).resetWait = s.resetWait := rfl

@[simp] theorem State.drive_inputs (s : State) (r : Response) :
    (s.drive r).inputs = s.inputs := rfl

@[simp] theorem State.drive_delivered (s : State) (r : Response) :
    (s.drive r).delivered = s.delivered := rfl

@[simp] theorem State.drive_tick (s : State) (r : Response) :
    (s.drive r).tick = s.tick := rfl

@[simp] theorem State.quiet_build (s : State) :
    (s.quiet).build = s.build := rfl

@[simp] theorem State.quiet_pending (s : State) :
    (s.quiet).pending = s.pending := rfl

@[simp] theorem State.quiet_cmdReady (s : State) :
    (s.quiet).cmdReady = s.cmdReady := rfl

@[simp] theorem State.quiet_rspValid (s : State) :
    (s.quiet).rspValid = false := rfl

@[simp] theorem State.quiet_rsp (s : State) :
    (s.quiet).rsp = none := rfl

@[simp] theorem State.quiet_resetWait (s : State) :
    (s.quiet).resetWait = s.resetWait := rfl

@[simp] theorem State.quiet_inputs (s : State) :
    (s.quiet).inputs = s.inputs := rfl

@[simp] theorem State.quiet_delivered (s : State) :
    (s.quiet).delivered = s.delivered := rfl

@[simp] theorem State.quiet_tick (s : State) :
    (s.quiet).tick = s.tick := rfl

/-! ### The two transactions and the passing of a cycle -/

@[simp] theorem State.accept_build (s : State) (c : Cmd) (a b : Word) :
    (s.accept c a b).build = s.build := rfl

@[simp] theorem State.accept_pending (s : State) (c : Cmd) (a b : Word) :
    (s.accept c a b).pending = s.pending ++
      [{ cmd := c, a := onLines s.build.fmt.W a, b := onLines s.build.fmt.W b,
         wait := latency s.build c - 1 }] := rfl

@[simp] theorem State.accept_cmdReady (s : State) (c : Cmd) (a b : Word) :
    (s.accept c a b).cmdReady = s.cmdReady := rfl

@[simp] theorem State.accept_rspValid (s : State) (c : Cmd) (a b : Word) :
    (s.accept c a b).rspValid = s.rspValid := rfl

@[simp] theorem State.accept_rsp (s : State) (c : Cmd) (a b : Word) :
    (s.accept c a b).rsp = s.rsp := rfl

@[simp] theorem State.accept_resetWait (s : State) (c : Cmd) (a b : Word) :
    (s.accept c a b).resetWait = s.resetWait := rfl

@[simp] theorem State.accept_inputs (s : State) (c : Cmd) (a b : Word) :
    (s.accept c a b).inputs = s.inputs := rfl

@[simp] theorem State.accept_delivered (s : State) (c : Cmd) (a b : Word) :
    (s.accept c a b).delivered = s.delivered := rfl

@[simp] theorem State.accept_tick (s : State) (c : Cmd) (a b : Word) :
    (s.accept c a b).tick = s.tick := rfl

@[simp] theorem State.transfer_build (s : State) :
    (s.transfer).build = s.build := rfl

@[simp] theorem State.transfer_pending (s : State) :
    (s.transfer).pending = s.pending.tail := rfl

@[simp] theorem State.transfer_cmdReady (s : State) :
    (s.transfer).cmdReady = s.cmdReady := rfl

@[simp] theorem State.transfer_rspValid (s : State) :
    (s.transfer).rspValid = s.rspValid := rfl

@[simp] theorem State.transfer_rsp (s : State) :
    (s.transfer).rsp = s.rsp := rfl

@[simp] theorem State.transfer_resetWait (s : State) :
    (s.transfer).resetWait = s.resetWait := rfl

@[simp] theorem State.transfer_inputs (s : State) :
    (s.transfer).inputs = s.inputs := rfl

@[simp] theorem State.transfer_delivered (s : State) :
    (s.transfer).delivered = s.delivered ++ s.rsp.toList := rfl

@[simp] theorem State.transfer_tick (s : State) :
    (s.transfer).tick = s.tick := rfl

@[simp] theorem State.age_build (s : State) :
    (s.age).build = s.build := rfl

@[simp] theorem State.age_pending (s : State) :
    (s.age).pending = s.pending.map fun e => { e with wait := e.wait - 1 } := rfl

@[simp] theorem State.age_cmdReady (s : State) :
    (s.age).cmdReady = s.cmdReady := rfl

@[simp] theorem State.age_rspValid (s : State) :
    (s.age).rspValid = s.rspValid := rfl

@[simp] theorem State.age_rsp (s : State) :
    (s.age).rsp = s.rsp := rfl

@[simp] theorem State.age_resetWait (s : State) :
    (s.age).resetWait = s.resetWait := rfl

@[simp] theorem State.age_inputs (s : State) :
    (s.age).inputs = s.inputs := rfl

@[simp] theorem State.age_delivered (s : State) :
    (s.age).delivered = s.delivered := rfl

@[simp] theorem State.age_tick (s : State) :
    (s.age).tick = s.tick := rfl

/-! ### Reset -/

@[simp] theorem State.resetEdge_build (s : State) :
    (s.resetEdge).build = s.build := rfl

@[simp] theorem State.resetEdge_pending (s : State) :
    (s.resetEdge).pending = [] := rfl

@[simp] theorem State.resetEdge_cmdReady (s : State) :
    (s.resetEdge).cmdReady = false := rfl

@[simp] theorem State.resetEdge_rspValid (s : State) :
    (s.resetEdge).rspValid = false := rfl

@[simp] theorem State.resetEdge_rsp (s : State) :
    (s.resetEdge).rsp = none := rfl

@[simp] theorem State.resetEdge_resetWait (s : State) :
    (s.resetEdge).resetWait = some s.build.rstReady := rfl

@[simp] theorem State.resetEdge_inputs (s : State) :
    (s.resetEdge).inputs = s.inputs.tail := rfl

@[simp] theorem State.resetEdge_delivered (s : State) :
    (s.resetEdge).delivered = s.delivered := rfl

@[simp] theorem State.resetEdge_tick (s : State) :
    (s.resetEdge).tick = s.tick + 1 := rfl

/-! ### The end of an edge -/

variable (s : State) (inp : EdgeInput) (ready : Bool)

@[simp] theorem State.finishEdge_build : (s.finishEdge inp ready).build = s.build := by
  unfold State.finishEdge; dsimp only; split <;> split <;> rfl

@[simp] theorem State.finishEdge_cmdReady : (s.finishEdge inp ready).cmdReady = ready := rfl

@[simp] theorem State.finishEdge_rspValid : (s.finishEdge inp ready).rspValid = s.rspValid := by
  unfold State.finishEdge; dsimp only; split <;> split <;> rfl

@[simp] theorem State.finishEdge_rsp : (s.finishEdge inp ready).rsp = s.rsp := by
  unfold State.finishEdge; dsimp only; split <;> split <;> rfl

@[simp] theorem State.finishEdge_resetWait :
    (s.finishEdge inp ready).resetWait = nextResetWait s.resetWait ready := rfl

@[simp] theorem State.finishEdge_inputs : (s.finishEdge inp ready).inputs = s.inputs.tail := rfl

@[simp] theorem State.finishEdge_tick : (s.finishEdge inp ready).tick = s.tick + 1 := rfl

/-- What the host has after an edge: what it had, and the offered response if it takes it. -/
theorem State.finishEdge_delivered :
    (s.finishEdge inp ready).delivered =
      if s.rspValid && inp.rspReady then s.delivered ++ s.rsp.toList else s.delivered := by
  unfold State.finishEdge; dsimp only; split <;> split <;> rfl

/-- What is in flight after an edge: the oldest entry leaves if its response transfers, a cycle
passes for the others, and an accepted command joins last. -/
theorem State.finishEdge_pending :
    (s.finishEdge inp ready).pending =
      ((if s.rspValid && inp.rspReady then s.pending.tail else s.pending).map
        fun e => { e with wait := e.wait - 1 }) ++
      (if inp.cmdValid && ready then
        [{ cmd := inp.cmd, a := onLines s.build.fmt.W inp.a, b := onLines s.build.fmt.W inp.b,
           wait := latency s.build inp.cmd - 1 }]
      else []) := by
  unfold State.finishEdge; dsimp only
  split <;> split <;> simp

end Sys2Proof.Machine
end

