-- ==== Sys2Proof/Laws/Ops.lean ====
section
/-! SUPPORT. One lemma for each shared operation over the state that says what it can do. -/

namespace Sys2Proof.Machine

/-- With a command in flight, a meaning drives its function of the build and the operands. -/
theorem State.answer_cons {s : State} {e : Entry} {rest : List Entry}
    (h : s.pending = e :: rest) (f : Build → Word → Word → Response) :
    s.answer f = .next (s.drive (f s.build e.a e.b)) := by
  unfold State.answer; rw [h]

/-- Everything `answer` can do when it answers a next state. -/
theorem State.answer_next {s t : State} {f : Build → Word → Word → Response}
    (h : s.answer f = .next t) :
    ∃ e rest, s.pending = e :: rest ∧ t = s.drive (f s.build e.a e.b) := by
  unfold State.answer at h
  split at h
  · cases h
  · next e rest he => exact ⟨e, rest, he, by cases h; rfl⟩

theorem raiseIllegal_cons {s : State} {e : Entry} {rest : List Entry} (h : s.pending = e :: rest) :
    raiseIllegal s = .next (s.drive (illegalResponse s.build.fmt)) :=
  State.answer_cons h _

/-- `LAT` is at least 1 (R420). -/
theorem one_le_latency (bld : Build) (c : Cmd) : 1 ≤ latency bld c := by
  unfold latency; exact le_max_left _ _

/-- `cmd_ready` is 0 while `rst = 1` and whenever `pending` is full (R43). -/
theorem State.cmdReadyAt_room {s : State} {inp : EdgeInput} (h : s.cmdReadyAt inp = true) :
    inp.rst = false ∧ s.pending.length < s.build.depth := by
  simp [State.cmdReadyAt, State.hasRoom] at h; exact ⟨h.1.1, h.1.2⟩

/-- `rsp_valid` is 0 while `rst = 1` and whenever `pending` is empty; when it is 1 the oldest
command's latency has passed (R43, R420). -/
theorem State.rspValidAt_due {s : State} {inp : EdgeInput} (h : s.rspValidAt inp = true) :
    inp.rst = false ∧ ∃ e rest, s.pending = e :: rest ∧ e.wait = 0 := by
  unfold State.rspValidAt State.oldestDue at h
  split at h
  · simp at h
  · next e rest he => simp at h; exact ⟨h.1, e, rest, he, h.2⟩

end Sys2Proof.Machine
end

