-- ==== Sys2Proof/Laws/Execute.lean ====
section
/-! SUPPORT. What `exec`, `runOldest`, `clockEdge` and `step` can do, said once. -/

namespace Sys2Proof.Machine

/-- A zero exponent of a normal base other than zero, in terms of the value fields. -/
theorem zeroExponent_iff (fmt : Format) (a b : Word) : zeroExponent fmt a b = true ↔
    isNormal a = true ∧ v fmt a ≠ 0 ∧ isNormal b = true ∧ v fmt b = 0 := by
  simp only [zeroExponent, isZero, Bool.and_eq_true, Bool.not_eq_true', Bool.and_eq_false_iff,
    beq_iff_eq, beq_eq_false_iff_ne]
  constructor
  · rintro ⟨⟨ha, h⟩, hb, hv⟩
    exact ⟨ha, h.resolve_left (by simp [ha]), hb, hv⟩
  · rintro ⟨ha, h, hb, hv⟩
    exact ⟨⟨ha, .inr h⟩, hb, hv⟩

/-- The response of an instruction as a function of the build and the operands: all that its meaning
computes (R40). -/
def responseOf (i : Instr) (bld : Build) (a b : Word) : Response :=
  let fmt := bld.fmt
  match i with
  | .isneg => resultY (boolWord fmt (topBit fmt.W a))
  | .isnan => resultY (boolWord fmt (isNaN a))
  | .ispinf => resultY (boolWord fmt (isPInf a))
  | .isninf => resultY (boolWord fmt (isNInf a))
  | .eq => resultY (boolWord fmt (equals fmt a b))
  | .eqn => resultY (boolWord fmt (equalsWithNaN fmt a b))
  | .cmp => resultY (word fmt.W (compare fmt a b))
  | .neg => resultY (negate fmt a)
  | .abs => resultY (absolute fmt a)
  | .add => resultY (addition fmt a b)
  | .sub => resultY (subtraction fmt a b)
  | .mul => resultY (multiply fmt a b)
  | .div => resultY (divide fmt a b)
  | .floor => resultY (roundFix fmt (fl fmt) a)
  | .ceil => resultY (roundFix fmt (ce fmt) a)
  | .rnde => resultY (roundFix fmt (re fmt) a)
  | .rndhu => resultY (roundFix fmt (rh fmt) a)
  | .floori => resultY (roundInt fmt (fl fmt) a)
  | .ceili => resultY (roundInt fmt (ce fmt) a)
  | .rndei => resultY (roundInt fmt (re fmt) a)
  | .rndhui => resultY (roundInt fmt (rh fmt) a)
  | .rshre count =>
    if count.toNat ≤ fmt.width.maxShift then
      resultY (intWord fmt (rte (signed fmt.W a) count.toNat))
    else illegalResponse fmt
  | .todbl => resultDbl fmt (toDouble fmt a)
  | .fromdbl => resultY (fromDouble fmt (dblOperand fmt a b))
  | .lit sign n =>
    if n.toNat ≤ fmt.width.nmax then resultY (literal fmt sign n.toNat a b)
    else illegalResponse fmt
  | .const sel =>
    match constant fmt sel.toNat with
    | some y => resultY y
    | none => illegalResponse fmt
  | .sqrt => resultY (squareRoot fmt a)
  | .exp => resultY (exponential bld a)
  | .ln => resultY (logarithm bld .e a)
  | .log2 => resultY (logarithm bld .two a)
  | .log10 => resultY (logarithm bld .ten a)
  | .pow => resultY (power bld a b)
  | .sin => resultY (sine bld a)
  | .cos => resultY (cosine bld a)
  | .tan => resultY (tangent bld a)
  | .sinf => resultY (fastSine bld a)

/-- Every meaning drives its response for the oldest command in flight, and does nothing else. -/
theorem exec_eq_answer (i : Instr) (s : State) : exec i s = s.answer (responseOf i) := by
  cases i with
  | rshre c =>
    simp only [exec, execRshre, raiseIllegal, State.answer, responseOf]
    split <;> split <;> rfl
  | lit sign n =>
    simp only [exec, execLit, raiseIllegal, State.answer, responseOf]
    split <;> split <;> rfl
  | const sel =>
    cases hs : s.pending <;> cases hc : constant s.build.fmt sel.toNat <;>
      simp [exec, execConst, raiseIllegal, State.answer, responseOf, hs, hc]
  | _ => rfl

/-- With a command in flight, `exec` answers. -/
theorem exec_cons {s : State} {e : Entry} {rest : List Entry} (h : s.pending = e :: rest)
    (i : Instr) : exec i s = .next (s.drive (responseOf i s.build e.a e.b)) := by
  rw [exec_eq_answer, State.answer_cons h]

/-- Everything `exec` can do when it answers a next state. -/
theorem exec_next {i : Instr} {s t : State} (h : exec i s = .next t) :
    ∃ e rest, s.pending = e :: rest ∧ t = s.drive (responseOf i s.build e.a e.b) :=
  State.answer_next (exec_eq_answer i s ▸ h)

/-- Everything `runOldest` can do when it answers a next state: it drives one response. -/
theorem runOldest_next {s t : State} (h : runOldest s = .next t) :
    ∃ e rest r, s.pending = e :: rest ∧ t = s.drive r := by
  unfold runOldest at h
  split at h
  · cases h
  · split at h
    · next i _ =>
      obtain ⟨e, rest, he, ht⟩ := exec_next h
      exact ⟨e, rest, _, he, ht⟩
    · obtain ⟨e, rest, he, ht⟩ := State.answer_next h
      exact ⟨e, rest, _, he, ht⟩

/-- With a command in flight, `runOldest` answers. -/
theorem runOldest_cons {s : State} {e : Entry} {rest : List Entry} (h : s.pending = e :: rest) :
    ∃ r, runOldest s = .next (s.drive r) := by
  unfold runOldest
  rw [h]
  dsimp only
  split
  · next i _ =>
    exact ⟨_, exec_cons h i⟩
  · exact ⟨_, raiseIllegal_cons h⟩

/-- `runOldest` is `execute` of the oldest triple: what it drives depends on nothing else (R40,
R110). -/
theorem runOldest_eq_execute {s : State} {e : Entry} {rest : List Entry}
    (h : s.pending = e :: rest) :
    ∃ r, execute s.build e.cmd e.a e.b = some r ∧ runOldest s = .next (s.drive r) := by
  have hu : (unitWith s.build e.cmd e.a e.b).pending =
      [{ cmd := e.cmd, a := e.a, b := e.b, wait := 0 }] := rfl
  unfold execute runOldest
  rw [h, hu]
  dsimp only
  cases hd : decode s.build.fmt.width e.cmd with
  | instr i =>
    have hd' : decode (unitWith s.build e.cmd e.a e.b).build.fmt.width e.cmd = .instr i := hd
    rw [hd']
    dsimp only
    rw [exec_cons h i, exec_cons hu i]
    exact ⟨_, rfl, rfl⟩
  | illegal why =>
    have hd' : decode (unitWith s.build e.cmd e.a e.b).build.fmt.width e.cmd = .illegal why := hd
    rw [hd']
    dsimp only
    rw [raiseIllegal_cons h, raiseIllegal_cons hu]
    exact ⟨_, rfl, rfl⟩

/-- Everything a step can do when it answers a next state: a reset edge; an edge at which a response
is driven; or an edge at which none is due. -/
theorem step_next {s t : State} (h : step s = .next t) :
    s.build.supported = true ∧
    ((s.input.rst = true ∧ t = s.resetEdge) ∨
     (s.input.rst = false ∧ ∃ e rest r, s.pending = e :: rest ∧ e.wait = 0 ∧
        runOldest s = .next (s.drive r) ∧
        t = (s.drive r).finishEdge s.input (s.cmdReadyAt s.input)) ∨
     (s.input.rst = false ∧ s.oldestDue = false ∧
        t = s.quiet.finishEdge s.input (s.cmdReadyAt s.input))) := by
  unfold step at h
  split at h
  · next hs =>
    refine ⟨hs, ?_⟩
    split at h
    · next hr => cases h; exact .inl ⟨hr, rfl⟩
    · next hr =>
      have hr : s.input.rst = false := by simpa using hr
      unfold clockEdge at h
      dsimp only at h
      split at h
      · next hv =>
        obtain ⟨-, e, rest, he, hw⟩ := State.rspValidAt_due hv
        obtain ⟨r, hrun⟩ := runOldest_cons he
        rw [hrun] at h
        cases h
        exact .inr (.inl ⟨hr, e, rest, r, he, hw, hrun, rfl⟩)
      · next hv =>
        cases h
        refine .inr (.inr ⟨hr, ?_, rfl⟩)
        simpa [State.rspValidAt, hr] using hv
  · cases h

end Sys2Proof.Machine
end

