-- ==== Sys2Proof/Laws/PerInstr.lean ====
section
/-! SUPPORT. Statements made instruction by instruction. The family `EncodedFields`: the encoded word
of every instruction carries the instruction's `OP` number, 000 in `RSV`, and 0 in `S` unless it
is a LIT (30_encoding.md R100 to R105). -/

namespace Sys2Proof.Laws.EncodedFields

/-- The fields of an instruction's word (R100, R103, R104). -/
def Statement (i : Instr) : Prop :=
  opField (encode i) = opcode i ∧ rsvField (encode i) = 0#3 ∧
    (signField (encode i) = true → ∃ n, i = .lit true n)

/-- A word put together by `fields`, as a number. -/
theorem fields_toNat (op imm : BitVec 6) (sign : Bool) :
    (fields op imm sign).toNat = op.toNat + 64 * imm.toNat + 4096 * sign.toNat := by
  have h : (0#3 ++ (BitVec.ofBool sign ++ (imm ++ op)) : BitVec (3 + (1 + (6 + 6)))).toNat =
      op.toNat + 64 * imm.toNat + 4096 * sign.toNat := by
    have ho := op.isLt
    have hi := imm.isLt
    have h12 : imm.toNat <<< 6 + op.toNat < 2 ^ (6 + 6) := by rw [Nat.shiftLeft_eq]; omega
    simp only [BitVec.toNat_append, BitVec.toNat_ofBool, BitVec.toNat_ofNat]
    rw [← Nat.shiftLeft_add_eq_or_of_lt ho, ← Nat.shiftLeft_add_eq_or_of_lt h12]
    simp [Nat.shiftLeft_eq]
    omega
  exact h

/-- The fields put together by `fields` are those read back. -/
theorem fields_read (op imm : BitVec 6) (sign : Bool) :
    opField (fields op imm sign) = op ∧ immField (fields op imm sign) = imm ∧
      signField (fields op imm sign) = sign ∧ rsvField (fields op imm sign) = 0#3 := by
  have ho := op.isLt
  have hi := imm.isLt
  have hs : sign.toNat ≤ 1 := by cases sign <;> decide
  have hf := fields_toNat op imm sign
  refine ⟨?_, ?_, ?_, ?_⟩
  · apply BitVec.eq_of_toNat_eq
    simp only [opField, BitVec.extractLsb'_toNat, Nat.shiftRight_eq_div_pow, hf]; omega
  · apply BitVec.eq_of_toNat_eq
    simp only [immField, BitVec.extractLsb'_toNat, Nat.shiftRight_eq_div_pow, hf]; omega
  · simp only [signField, BitVec.getLsbD, Nat.testBit_eq_decide_div_mod_eq, hf]
    cases sign <;> simp only [Bool.toNat] <;> simp <;> omega
  · apply BitVec.eq_of_toNat_eq
    simp only [rsvField, BitVec.extractLsb'_toNat, Nat.shiftRight_eq_div_pow, hf,
      BitVec.toNat_ofNat]; omega

theorem isneg : Statement .isneg :=
  ⟨by decide, by decide, fun h => absurd h (by decide)⟩

theorem isnan : Statement .isnan :=
  ⟨by decide, by decide, fun h => absurd h (by decide)⟩

theorem ispinf : Statement .ispinf :=
  ⟨by decide, by decide, fun h => absurd h (by decide)⟩

theorem isninf : Statement .isninf :=
  ⟨by decide, by decide, fun h => absurd h (by decide)⟩

theorem eq : Statement .eq :=
  ⟨by decide, by decide, fun h => absurd h (by decide)⟩

theorem eqn : Statement .eqn :=
  ⟨by decide, by decide, fun h => absurd h (by decide)⟩

theorem cmp : Statement .cmp :=
  ⟨by decide, by decide, fun h => absurd h (by decide)⟩

theorem neg : Statement .neg :=
  ⟨by decide, by decide, fun h => absurd h (by decide)⟩

theorem abs : Statement .abs :=
  ⟨by decide, by decide, fun h => absurd h (by decide)⟩

theorem add : Statement .add :=
  ⟨by decide, by decide, fun h => absurd h (by decide)⟩

theorem sub : Statement .sub :=
  ⟨by decide, by decide, fun h => absurd h (by decide)⟩

theorem mul : Statement .mul :=
  ⟨by decide, by decide, fun h => absurd h (by decide)⟩

theorem div : Statement .div :=
  ⟨by decide, by decide, fun h => absurd h (by decide)⟩

theorem floor : Statement .floor :=
  ⟨by decide, by decide, fun h => absurd h (by decide)⟩

theorem ceil : Statement .ceil :=
  ⟨by decide, by decide, fun h => absurd h (by decide)⟩

theorem rnde : Statement .rnde :=
  ⟨by decide, by decide, fun h => absurd h (by decide)⟩

theorem rndhu : Statement .rndhu :=
  ⟨by decide, by decide, fun h => absurd h (by decide)⟩

theorem floori : Statement .floori :=
  ⟨by decide, by decide, fun h => absurd h (by decide)⟩

theorem ceili : Statement .ceili :=
  ⟨by decide, by decide, fun h => absurd h (by decide)⟩

theorem rndei : Statement .rndei :=
  ⟨by decide, by decide, fun h => absurd h (by decide)⟩

theorem rndhui : Statement .rndhui :=
  ⟨by decide, by decide, fun h => absurd h (by decide)⟩

theorem rshre (x : BitVec 6) : Statement (.rshre x) := by
  obtain ⟨h1, -, h3, h4⟩ := fields_read (opcode (.rshre x)) x false
  exact ⟨h1, h4, fun h => by rw [encode, h3] at h; cases h⟩

theorem todbl : Statement .todbl :=
  ⟨by decide, by decide, fun h => absurd h (by decide)⟩

theorem fromdbl : Statement .fromdbl :=
  ⟨by decide, by decide, fun h => absurd h (by decide)⟩

theorem lit (sign : Bool) (n : BitVec 6) : Statement (.lit sign n) := by
  obtain ⟨h1, -, h3, h4⟩ := fields_read (opcode (.lit sign n)) n sign
  exact ⟨h1, h4, fun h => by rw [encode, h3] at h; exact ⟨n, by rw [h]⟩⟩

theorem const (x : BitVec 6) : Statement (.const x) := by
  obtain ⟨h1, -, h3, h4⟩ := fields_read (opcode (.const x)) x false
  exact ⟨h1, h4, fun h => by rw [encode, h3] at h; cases h⟩

theorem sqrt : Statement .sqrt :=
  ⟨by decide, by decide, fun h => absurd h (by decide)⟩

theorem exp : Statement .exp :=
  ⟨by decide, by decide, fun h => absurd h (by decide)⟩

theorem ln : Statement .ln :=
  ⟨by decide, by decide, fun h => absurd h (by decide)⟩

theorem log2 : Statement .log2 :=
  ⟨by decide, by decide, fun h => absurd h (by decide)⟩

theorem log10 : Statement .log10 :=
  ⟨by decide, by decide, fun h => absurd h (by decide)⟩

theorem pow : Statement .pow :=
  ⟨by decide, by decide, fun h => absurd h (by decide)⟩

theorem sin : Statement .sin :=
  ⟨by decide, by decide, fun h => absurd h (by decide)⟩

theorem cos : Statement .cos :=
  ⟨by decide, by decide, fun h => absurd h (by decide)⟩

theorem tan : Statement .tan :=
  ⟨by decide, by decide, fun h => absurd h (by decide)⟩

theorem sinf : Statement .sinf :=
  ⟨by decide, by decide, fun h => absurd h (by decide)⟩

end Sys2Proof.Laws.EncodedFields
end

