-- ==== Sys2Proof/Tests/Slice0.lean ====
section
/-! SUPPORT. The model's own tests. Expected words are the spec's: the examples and corner cases of the
operation rules and rows of the vector files, named beside each test. Then, for every statement with
hypotheses, a witness that meets them. -/

namespace Sys2Proof.Tests
open Sys2Proof Sys2Proof.Machine

-- One theorem at a time: many kernel evaluations waiting at once need a thread each.
set_option Elab.async false

/-- A unit of width `W` and `F` fraction bits with the default mode. -/
def unit (w : Width) (F : Nat) : Build := { resetBuild with fmt := { width := w, frac := F } }

/-- The usual configurations of the vector files. -/
def w64 : Build := unit .w64 32
def w32 : Build := unit .w32 16

/-- The same unit with `TRANS_IMPL` opaque. -/
def openly (bld : Build) : Build := { bld with trans := .uninterpreted }

/-- What the host has after one edge at which the command is due and the response is taken. -/
def answered (bld : Build) (c : Cmd) (a b : Word) : List Response :=
  match step (unitWith bld c a b) with
  | .next t => t.delivered
  | .fault _ => []
  | .refused _ => []

/-- A legal command's response. -/
def y (w : Word) : List Response := [⟨w, 0, false⟩]

/-! ### Well-formedness refuses -/

theorem test_shift_limit : WellFormed .w64 (.rshre 63#6) = true ∧
    WellFormed .w32 (.rshre 31#6) = true ∧ WellFormed .w32 (.rshre 32#6) = false := by decide

theorem test_digit_limit : WellFormed .w64 (.lit true 19#6) = true ∧
    WellFormed .w64 (.lit true 20#6) = false ∧ WellFormed .w32 (.lit false 10#6) = false := by decide

theorem test_selector_limit : WellFormed .w64 (.const 11#6) = true ∧
    WellFormed .w64 (.const 12#6) = false := by decide

theorem test_decoder_refuses : decode .w32 0b000_0_100000_011000#16 = .illegal .shiftTooLarge ∧
    decode .w64 0b000_0_010100_011110#16 = .illegal .digitsTooMany ∧
    decode .w64 0b000_0_001100_011111#16 = .illegal .selectorTooLarge ∧
    decode .w64 0b000_0_000001_001010#16 = .illegal .immediateNotZero ∧
    decode .w64 0b000_1_000000_001010#16 = .illegal .signNotLit ∧
    decode .w64 0b100_0_000000_001010#16 = .illegal .reservedBits ∧
    decode .w64 0b000_0_000000_001110#16 = .illegal .reservedOp := by decide

/-! ### Every row of the opcode map (R105), its word written out: RSV S IMM OP -/

theorem test_decode_classify : decodeTableWord 16 0b000_0_000000_000001 = some .isneg ∧
    decodeTableWord 16 0b000_0_000000_000010 = some .isnan ∧
    decodeTableWord 16 0b000_0_000000_000011 = some .ispinf ∧
    decodeTableWord 16 0b000_0_000000_000100 = some .isninf ∧
    decodeTableWord 16 0b000_0_000000_000101 = some .eq ∧
    decodeTableWord 16 0b000_0_000000_000110 = some .eqn ∧
    decodeTableWord 16 0b000_0_000000_000111 = some .cmp := by decide

theorem test_decode_arithmetic : decodeTableWord 16 0b000_0_000000_001000 = some .neg ∧
    decodeTableWord 16 0b000_0_000000_001001 = some .abs ∧
    decodeTableWord 16 0b000_0_000000_001010 = some .add ∧
    decodeTableWord 16 0b000_0_000000_001011 = some .sub ∧
    decodeTableWord 16 0b000_0_000000_001100 = some .mul ∧
    decodeTableWord 16 0b000_0_000000_001101 = some .div := by decide

theorem test_decode_round : decodeTableWord 16 0b000_0_000000_010000 = some .floor ∧
    decodeTableWord 16 0b000_0_000000_010001 = some .ceil ∧
    decodeTableWord 16 0b000_0_000000_010010 = some .rnde ∧
    decodeTableWord 16 0b000_0_000000_010011 = some .rndhu ∧
    decodeTableWord 16 0b000_0_000000_010100 = some .floori ∧
    decodeTableWord 16 0b000_0_000000_010101 = some .ceili ∧
    decodeTableWord 16 0b000_0_000000_010110 = some .rndei ∧
    decodeTableWord 16 0b000_0_000000_010111 = some .rndhui := by decide

theorem test_decode_convert : decodeTableWord 16 0b000_0_111111_011000 = some (.rshre 63#6) ∧
    decodeTableWord 16 0b000_0_000000_011100 = some .todbl ∧
    decodeTableWord 16 0b000_0_000000_011101 = some .fromdbl ∧
    decodeTableWord 16 0b000_0_000101_011110 = some (.lit false 5#6) ∧
    decodeTableWord 16 0b000_1_010011_011110 = some (.lit true 19#6) ∧
    decodeTableWord 16 0b000_0_001011_011111 = some (.const 11#6) := by decide

theorem test_decode_transcendental : decodeTableWord 16 0b000_0_000000_100000 = some .sqrt ∧
    decodeTableWord 16 0b000_0_000000_100001 = some .exp ∧
    decodeTableWord 16 0b000_0_000000_100010 = some .ln ∧
    decodeTableWord 16 0b000_0_000000_100011 = some .log2 ∧
    decodeTableWord 16 0b000_0_000000_100100 = some .log10 ∧
    decodeTableWord 16 0b000_0_000000_100101 = some .pow ∧
    decodeTableWord 16 0b000_0_000000_101000 = some .sin ∧
    decodeTableWord 16 0b000_0_000000_101001 = some .cos ∧
    decodeTableWord 16 0b000_0_000000_101010 = some .tan ∧
    decodeTableWord 16 0b000_0_000000_101011 = some .sinf := by decide

/-! ### One step of each operation: the rules' own examples and corner cases -/

/-- R131: its example, and the top bit of a non-canonical NaN. -/
theorem test_isneg : answered w64 0x0001 0xFFFFFFFC00000000 0 = y 1 ∧
    answered w64 0x0001 0x8000000000000001 0 = y 1 := by decide +kernel

/-- R132: its example and its corner case. -/
theorem test_isnan : answered w64 0x0002 0x0000000000000001 0 = y 1 ∧
    answered w64 0x0002 0xFFFFFFFFFFFFFFFD 0 = y 1 := by decide +kernel

/-- R133: its example and its corner case. -/
theorem test_ispinf : answered w64 0x0003 0x0000000000000002 0 = y 1 ∧
    answered w64 0x0003 0x8000000000000002 0 = y 1 := by decide +kernel

/-- R134: its example and its corner case. -/
theorem test_isninf : answered w64 0x0004 0xFFFFFFFFFFFFFFFF 0 = y 1 ∧
    answered w64 0x0004 0x0000000000000003 0 = y 1 := by decide +kernel

/-- R135: a non-canonical +Infinity equals the canonical one; NaN equals nothing. -/
theorem test_eq : answered w64 0x0005 0x0000000000000006 0x0000000000000002 = y 1 ∧
    answered w64 0x0005 0x0000000000000001 0x0000000000000001 = y 0 := by decide +kernel

/-- R136: two NaNs are equal. -/
theorem test_eqn : answered w64 0x0006 0x0000000000000005 0x0000000000000001 = y 1 ∧
    answered w64 0x0006 0x0000000000000001 0x0000000000000000 = y 0 := by decide +kernel

/-- R137: its example, and a NaN is "greater". -/
theorem test_cmp : answered w64 0x0007 0xFFFFFFFC00000000 0x0000000400000000
      = y 0xFFFFFFFFFFFFFFFF ∧
    answered w64 0x0007 0x0000000000000001 0x0000000000000001 = y 1 := by decide +kernel

/-- R161: its example, and NEG(MIN). -/
theorem test_neg : answered w64 0x0008 0x0000000600000000 0 = y 0xFFFFFFFA00000000 ∧
    answered w64 0x0008 0x8000000000000000 0 = y 0x0000000000000002 := by decide +kernel

/-- R162: its example, and a non-canonical +Infinity with its top bit set. -/
theorem test_abs : answered w64 0x0009 0xFFFFFFF600000000 0 = y 0x0000000A00000000 ∧
    answered w64 0x0009 0x8000000000000002 0 = y 0x0000000000000002 := by decide +kernel

/-- R163: its example, and ADD(MAX, EPS). -/
theorem test_add : answered w64 0x000A 0x0000000600000000 0xFFFFFFF600000000
      = y 0xFFFFFFFC00000000 ∧
    answered w64 0x000A 0x7FFFFFFFFFFFFFFC 0x0000000000000004 = y 0x0000000000000002 := by
  decide +kernel

/-- R164: its example. R167: SUB(NEG_EPS, MIN) = MAX. -/
theorem test_sub : answered w64 0x000B 0x0000000600000000 0x0000000A00000000
      = y 0xFFFFFFFC00000000 ∧
    answered w64 0x000B 0xFFFFFFFFFFFFFFFC 0x8000000000000000 = y 0x7FFFFFFFFFFFFFFC := by
  decide +kernel

/-- R191: its example, and MUL(3·EPS, 0.5) = 2·EPS, a tie. -/
theorem test_mul : answered w64 0x000C 0x0000000600000000 0xFFFFFFF600000000
      = y 0xFFFFFFF100000000 ∧
    answered w64 0x000C 0x000000000000000C 0x0000000200000000 = y 0x0000000000000008 := by
  decide +kernel

/-- R200: its example, and DIV(NINF, NEG_EPS) = PINF. -/
theorem test_div : answered w64 0x000D 0x0000000400000000 0x0000000C00000000
      = y 0x0000000155555554 ∧
    answered w64 0x000D 0xFFFFFFFFFFFFFFFF 0xFFFFFFFFFFFFFFFC = y 0x0000000000000002 := by
  decide +kernel

/-- R230: its example. -/
theorem test_floor : answered w64 0x0010 0xFFFFFFF600000000 0 = y 0xFFFFFFF400000000 := by
  decide +kernel

/-- R231: its example, and CEIL(MAX) = PINF. -/
theorem test_ceil : answered w64 0x0011 0xFFFFFFF600000000 0 = y 0xFFFFFFF800000000 ∧
    answered w64 0x0011 0x7FFFFFFFFFFFFFFC 0 = y 0x0000000000000002 := by decide +kernel

/-- R232: its example, and RNDE(1.5) = 2.0. -/
theorem test_rnde : answered w64 0x0012 0x0000000A00000000 0 = y 0x0000000800000000 ∧
    answered w64 0x0012 0x0000000600000000 0 = y 0x0000000800000000 := by decide +kernel

/-- R233: its example, and RNDHU(0.5) = 1.0. -/
theorem test_rndhu : answered w64 0x0013 0xFFFFFFF600000000 0 = y 0xFFFFFFF400000000 ∧
    answered w64 0x0013 0x0000000200000000 0 = y 0x0000000400000000 := by decide +kernel

/-- R234: its example, and the sentinel of −Infinity. -/
theorem test_floori : answered w64 0x0014 0xFFFFFFF600000000 0 = y 0xFFFFFFFFFFFFFFFD ∧
    answered w64 0x0014 0xFFFFFFFFFFFFFFFF 0 = y 0x8000000000000000 := by decide +kernel

/-- R235: its example, and the sentinel of NaN. -/
theorem test_ceili : answered w64 0x0015 0x0000000A00000000 0 = y 0x0000000000000003 ∧
    answered w64 0x0015 0x0000000000000001 0 = y 0x7FFFFFFFFFFFFFFF := by decide +kernel

/-- R236: its example, and RNDEI(2.5) = 2. -/
theorem test_rndei : answered w64 0x0016 0x0000000600000000 0 = y 2 ∧
    answered w64 0x0016 0x0000000A00000000 0 = y 2 := by decide +kernel

/-- R237: its example, and RNDHUI(2.5) = 3. -/
theorem test_rndhui : answered w64 0x0017 0xFFFFFFFE00000000 0 = y 0xFFFFFFFFFFFFFFFF ∧
    answered w64 0x0017 0x0000000A00000000 0 = y 3 := by decide +kernel

/-- R238: its example, and RSHRE(INT_MAX, W − 1) = 1. -/
theorem test_rshre : answered w64 0x0058 0x0000000000000005 0 = y 2 ∧
    answered w64 0x0FD8 0x7FFFFFFFFFFFFFFF 0 = y 1 := by decide +kernel

/-- Vector rows V211 and V595: whole when W = 64, split when W = 32. -/
theorem test_todbl : answered w64 0x001C 0x0000000600000000 0 = y 0x3FF8000000000000 ∧
    answered w32 0x001C 0x7FFFFFFC 0 = [⟨0xFF000000, 0x40BFFFFF, false⟩] := by decide +kernel

/-- R242: its example, and 536870912.0 = 2^29 gives PINF. -/
theorem test_fromdbl : answered w64 0x001D 0xC004000000000000 0 = y 0xFFFFFFF600000000 ∧
    answered w64 0x001D 0x41C0000000000000 0 = y 0x0000000000000002 := by decide +kernel

/-- R250: its example, and LIT #0, 2^29, 0 wraps to MIN. -/
theorem test_lit : answered w64 0x015E 3 14159 = y 0x0000000C90FCF80C ∧
    answered w64 0x001E 0x20000000 0 = y 0x8000000000000000 := by decide +kernel

/-- R255: its example, and PI wrapped with W = 32, F = 28. -/
theorem test_const : answered w64 0x019F 0 0 = y 0x0000000C90FDAA24 ∧
    answered (unit .w32 28) 0x019F 0 0 = y 0xC90FDAA4 := by decide +kernel

/-- R280: its example, and SQRT(NEG_EPS) = NAN. -/
theorem test_sqrt : answered w64 0x0020 0x0000000800000000 0 = y 0x00000005A82799A0 ∧
    answered w64 0x0020 0xFFFFFFFFFFFFFFFC 0 = y 1 := by decide +kernel

/-- R288: its example, and EXP(21.0) = PINF. -/
theorem test_exp : answered w64 0x0021 0x0000000400000000 0 = y 0x0000000ADF85458C ∧
    answered w64 0x0021 0x0000005400000000 0 = y 2 := by decide +kernel

/-- R298: its example, and LN(ZERO) = NINF. -/
theorem test_ln : answered w64 0x0022 0x0000000800000000 0 = y 0x00000002C5C85FE0 ∧
    answered w64 0x0022 0 0 = y 0xFFFFFFFFFFFFFFFF := by decide +kernel

/-- R297: its example, and LOG2(EPS) = NINF with W = 64, F = 60. -/
theorem test_log2 : answered w64 0x0023 0x0000002000000000 0 = y 0x0000000C00000000 ∧
    answered (unit .w64 60) 0x0023 4 0 = y 0xFFFFFFFFFFFFFFFF := by decide +kernel

/-- R299: its example. -/
theorem test_log10 : answered w64 0x0024 0x00000FA000000000 0 = y 0x0000000C00000000 := by
  decide +kernel

/-- R305: its example, and POW(MIN, 1.0) = NINF. R307, R308: POW(EPS, ZERO) = ONE with W = 64, F = 60,
where LN(EPS) saturates. -/
theorem test_pow : answered w64 0x0025 0xFFFFFFF800000000 0x0000000C00000000
      = y 0xFFFFFFDFFFFFFFF0 ∧
    answered w64 0x0025 0x8000000000000000 0x0000000400000000 = y 0xFFFFFFFFFFFFFFFF ∧
    answered (unit .w64 60) 0x0025 4 0 = y 0x4000000000000000 := by decide +kernel

/-- R341: its example, and SIN(ZERO) = ZERO. -/
theorem test_sin : answered w64 0x0028 0x0000000200000000 0 = y 0x00000001EAEE8700 ∧
    answered w64 0x0028 0 0 = y 0 := by decide +kernel

/-- R342: its example, and COS(CONST PI) = −1.0. -/
theorem test_cos : answered w64 0x0029 0x0000000200000000 0 = y 0x0000000382A50240 ∧
    answered w64 0x0029 0x0000000C90FDAA24 0 = y 0xFFFFFFFC00000000 := by decide +kernel

/-- R343: its example, and TAN of the packed π/2 is PINF. -/
theorem test_tan : answered w64 0x002A 0x0000000200000000 0 = y 0x000000022F69EA48 ∧
    answered w64 0x002A 0x00000006487ED510 0 = y 0x0000000000000002 := by decide +kernel

/-- R351: its example, and SINF(ZERO) = ZERO. -/
theorem test_sinf : answered w64 0x002B 0x0000000200000000 0 = y 0x00000001EAEE8700 ∧
    answered w64 0x002B 0 0 = y 0 := by decide +kernel

/-- R384: an all-zero word, and a shift count above `W − 1`, are answered in place. -/
theorem test_illegal : answered w64 0x0000 5 6 = [⟨0x0000000000000001, 0, true⟩] ∧
    answered w32 0x0818 5 6 = [⟨0x00000001, 0, true⟩] := by decide +kernel

/-- R311 in opaque mode: EXP(ZERO) = ONE, LN(ONE) = ZERO, LOG2(8.0) = 3.0, COS(ZERO) = ONE. -/
theorem test_opaque : answered (openly w64) 0x0021 0 0 = y 0x0000000400000000 ∧
    answered (openly w64) 0x0022 0x0000000400000000 0 = y 0 ∧
    answered (openly w64) 0x0023 0x0000002000000000 0 = y 0x0000000C00000000 ∧
    answered (openly w64) 0x0029 0 0 = y 0x0000000400000000 := by decide +kernel

/-! ### The host's two questions, on every row of the opcode table -/

/-- The word is decoded to an instruction and the first step after reset answers it as legal. -/
def runsFirst (w : Nat) : Bool :=
  (decodeTableWord 16 w).isSome &&
    (match step (State.reset.withFetchWord 16 w) with
      | .next t => t.delivered.any fun r => !r.ill
      | .fault _ => false
      | .refused _ => false)

theorem test_first_steps_01_to_17 :
    ((List.range 0x18).filter fun w => w ≠ 0 ∧ w ≠ 0xE ∧ w ≠ 0xF).all runsFirst = true := by
  decide +kernel

theorem test_first_steps_18_to_2B :
    ([0x18, 0x1C, 0x1D, 0x1E, 0x1F, 0x20, 0x21, 0x22, 0x23, 0x24, 0x25, 0x28, 0x29, 0x2A,
      0x2B].all runsFirst) = true := by decide +kernel

/-! ### Witnesses: for every statement with hypotheses, inputs that meet them -/

/-- A unit with the two operands in flight, on which a property of the format and the operands
holds. -/
def meets (bld : Build) (a b : Word) (p : Format → Word → Word → Bool) : Bool :=
  decide ((unitWith bld 0 a b).pending = [⟨0, a, b, 0⟩]) && p bld.fmt a b

/-- Named words of W = 64, F = 32. -/
def one : Word := 0x0000000400000000
def minusOne : Word := 0xFFFFFFFC00000000
def half : Word := 0x0000000200000000
def maxW : Word := 0x7FFFFFFFFFFFFFFC
def minW : Word := 0x8000000000000000
def nanW : Word := 1
def pinfW : Word := 2
def ninfW : Word := 0xFFFFFFFFFFFFFFFF

theorem witness_DecodeOfEncodeIsTheInstruction :
    WellFormed .w64 (.rshre 63#6) = true ∧ WellFormed .w32 (.lit true 9#6) = true ∧
    WellFormed .w64 (.const 11#6) = true ∧ WellFormed .w32 .add = true := by decide

theorem witness_EncodeOfDecodeIsTheWord :
    decode .w64 0x0FD8 = .instr (.rshre 63#6) ∧ decode .w32 0x125E = .instr (.lit true 9#6) ∧
    decode .w32 0x000A = .instr .add := by decide

theorem witness_IllegalExactlyUnderTheSevenClauses :
    decode .w32 0x003F = .illegal .reservedOp ∧ decode .w64 0x002C = .illegal .reservedOp ∧
    decode .w64 0xE00A = .illegal .reservedBits ∧ decode .w64 0x1018 = .illegal .signNotLit ∧
    decode .w64 0x0FCA = .illegal .immediateNotZero ∧
    decode .w32 0x0818 = .illegal .shiftTooLarge ∧
    decode .w32 0x029E = .illegal .digitsTooMany ∧
    decode .w64 0x031F = .illegal .selectorTooLarge ∧ w64.fmt.width = .w64 := by decide

/-- 4294967295 fits 32 lines; nine digits are sent, ten are refused. -/
theorem witness_PseudoInstructionsExpand :
    digitsValue [4, 2, 9, 4, 9, 6, 7, 2, 9, 5] < 2 ^ w32.fmt.W ∧
    (List.replicate 9 (9 : Fin 10)).length ≤ w32.fmt.width.nmax ∧
    w32.fmt.width.nmax < (List.replicate 10 (9 : Fin 10)).length := by decide

/-- A due ADD on its way, on a unit whose host offers nothing and takes responses. -/
def adding : State := unitWith w64 0x000A one half

theorem witness_StepRunsTheOldestCommand :
    adding.build.supported = true ∧ adding.input.rst = false ∧
    adding.pending = [⟨0x000A, one, half, 0⟩] ∧
    decode adding.build.fmt.width 0x000A = .instr .add ∧
    ∃ t r, exec .add adding = .next t ∧ t.rsp = some r :=
  ⟨by decide, by decide, rfl, by decide, _, _, exec_cons rfl .add, rfl⟩

theorem witness_StepAnswersIllegalCommandInPlace :
    (unitWith w32 0 5 6).build.supported = true ∧ (unitWith w32 0 5 6).input.rst = false ∧
    (unitWith w32 0 5 6).pending = [⟨0, 5, 6, 0⟩] ∧
    decode (unitWith w32 0 5 6).build.fmt.width 0 = .illegal .reservedOp := by decide

theorem witness_EveryInstructionCompletes :
    adding.pending = [⟨0x000A, one, half, 0⟩] ∧
    WellFormed adding.build.fmt.width (.rshre 63#6) = true ∧
    WellFormed adding.build.fmt.width (.const 12#6) = false := by decide

theorem witness_InstructionsChangeOnlyTheResponsePorts :
    ∃ t, exec .add adding = .next t := ⟨_, exec_cons rfl .add⟩

/-- The same ADD on a unit with another depth and latency, and another command behind it. -/
def addingElsewhere : State :=
  { unitWith { w64 with depth := 7, lat := ⟨[], [], 9⟩, ready := .leftOpen } 0x000A one half with
    pending := [⟨0x000A, one, half, 3⟩, ⟨0, 0, 0, 0⟩], tick := 12 }

theorem witness_ResponsesDependOnTheCommandAlone :
    adding.pending = [⟨0x000A, one, half, 0⟩] ∧
    addingElsewhere.pending = [⟨0x000A, one, half, 3⟩, ⟨0, 0, 0, 0⟩] ∧
    adding.build.fmt = addingElsewhere.build.fmt ∧
    adding.build.trans = addingElsewhere.build.trans ∧
    Entry.triple ⟨0x000A, one, half, 0⟩ = Entry.triple ⟨0x000A, one, half, 3⟩ := by decide

theorem witness_PackedValuesReadBack :
    vmin w32.fmt ≤ vmax w32.fmt ∧ vmax w32.fmt < 0x20000000 ∧ -0x20000001 < vmin w32.fmt ∧
    isNormal minW = true ∧ Fits w64.fmt.W minW := by decide

theorem witness_PredicatesReadTagOrTopBit : meets w64 nanW 0 (fun _ _ _ => true) = true := by
  decide

/-- Two +Infinities, one of them non-canonical; identical normals; two NaNs; and none of these. -/
theorem witness_EqualityResults :
    meets w64 6 pinfW (fun _ a b => a.toNat % 4 == b.toNat % 4 && a.toNat % 4 == 2) = true ∧
    meets w64 minW minW (fun _ a b => isNormal a && a == b) = true ∧
    meets w64 5 nanW (fun _ a b => isNaN a && isNaN b) = true ∧
    meets w64 maxW pinfW (fun _ a b => a.toNat % 4 != b.toNat % 4) = true := by decide

theorem witness_CompareOrdersTheValues :
    meets w64 nanW one (fun _ a b => isNaN a || isNaN b) = true ∧
    meets w64 ninfW minW (fun f a b => !isNaN a && !isNaN b && decide (Below f a b)) = true ∧
    meets w64 pinfW maxW (fun f a b => !isNaN a && !isNaN b && decide (Below f b a)) = true ∧
    meets w64 6 pinfW (fun f a b =>
      !isNaN a && !isNaN b && !decide (Below f a b) && !decide (Below f b a)) = true := by decide

theorem witness_CompareIsATotalPreorder :
    isNaN ninfW = false ∧ isNaN minW = false ∧ isNaN pinfW = false ∧
    resultOf w64 .cmp ninfW minW ≠ some 1 ∧ resultOf w64 .cmp minW pinfW ≠ some 1 := by decide

theorem witness_NegateAndAbsoluteResults :
    meets w64 5 0 (fun _ a _ => isNaN a) = true ∧ meets w64 6 0 (fun _ a _ => isPInf a) = true ∧
    meets w64 7 0 (fun _ a _ => isNInf a) = true ∧
    meets w64 minW 0 (fun f a _ => isNormal a && v f a == vmin f) = true ∧
    meets w64 maxW 0 (fun f a _ => isNormal a && v f a != vmin f) = true := by decide

theorem witness_AddAndSubtractTables :
    meets w64 nanW pinfW (fun _ a b => isNaN a || isNaN b) = true ∧
    meets w64 maxW 4 (fun _ a b => isNormal a && isNormal b) = true ∧
    meets w64 minW pinfW (fun _ a b => isNormal a && isPInf b) = true ∧
    meets w64 maxW ninfW (fun _ a b => isNormal a && isNInf b) = true ∧
    meets w64 pinfW minW (fun _ a b => isPInf a && isNormal b) = true ∧
    meets w64 pinfW 6 (fun _ a b => isPInf a && isPInf b) = true ∧
    meets w64 pinfW ninfW (fun _ a b => isPInf a && isNInf b) = true ∧
    meets w64 ninfW maxW (fun _ a b => isNInf a && isNormal b) = true ∧
    meets w64 ninfW pinfW (fun _ a b => isNInf a && isPInf b) = true ∧
    meets w64 ninfW 7 (fun _ a b => isNInf a && isNInf b) = true := by decide

theorem witness_AddSubtractNegateIdentities :
    (∃ n, resultOf w64 .neg maxW 0 = some n) ∧ (∃ n, resultOf w64 .neg minW 0 = some n) ∧
    ¬(isNormal maxW = true ∧ v w64.fmt maxW = vmin w64.fmt) ∧ isNormal maxW = true ∧
    v w64.fmt maxW ≠ vmin w64.fmt ∧ Fits w64.fmt.W maxW ∧ isNormal minW = true ∧
    v w64.fmt minW = vmin w64.fmt :=
  ⟨⟨_, rfl⟩, ⟨_, rfl⟩, by decide⟩

theorem witness_MultiplyRoundsTheExactProductOnce :
    meets w64 nanW 0 (fun _ a b => isNaN a || isNaN b) = true ∧
    meets w64 12 half (fun _ a b => isNormal a && isNormal b) = true ∧
    meets w64 pinfW 0 (fun f a b => isInf a && isNormal b && v f b == 0) = true ∧
    meets w64 0 ninfW (fun f a b => isNormal a && v f a == 0 && isInf b) = true ∧
    meets w64 ninfW (-4) (fun f a b => isInf a && !isNaN b && !isZero f a && !isZero f b &&
      decide (Negative f a) && decide (Negative f b)) = true ∧
    meets w64 ninfW 4 (fun f a b => isInf a && !isNaN b && !isZero f a && !isZero f b &&
      decide (Negative f a) && !decide (Negative f b)) = true := by decide

theorem witness_DivideRoundsTheExactQuotientOnce :
    meets w64 pinfW nanW (fun _ a b => isNaN a || isNaN b) = true ∧
    meets w64 minW minusOne (fun f a b => isNormal a && isNormal b && v f b != 0) = true ∧
    meets w64 0 0 (fun f a b => isZero f a && isZero f b) = true ∧
    meets w64 4 0 (fun f a b => isNormal a && decide (0 < v f a) && isZero f b) = true ∧
    meets w64 (-4) 0 (fun f a b => isNormal a && decide (v f a < 0) && isZero f b) = true ∧
    meets w64 maxW ninfW (fun _ a b => isNormal a && isInf b) = true ∧
    meets w64 pinfW ninfW (fun _ a b => isInf a && isInf b) = true ∧
    meets w64 pinfW 0 (fun f a b => isInf a && isNormal b && !decide (Negative f a) &&
      !decide (Negative f b)) = true ∧
    meets w64 pinfW (-4) (fun f a b => isInf a && isNormal b && !decide (Negative f a) &&
      decide (Negative f b)) = true := by decide

theorem witness_MultiplyDivideIdentities :
    w64.fmt.legal = true ∧ isNormal minW = true ∧ Fits w64.fmt.W minW ∧ v w64.fmt minW ≠ 0 := by
  decide

theorem witness_RoundingPrimitivesRoundToNearest : (-3 : Int) ≠ 0 := by decide

theorem witness_RoundingToFixedPoint :
    Instr.floor ∈ [Instr.floor, .ceil, .rnde, .rndhu] ∧
    meets w64 5 0 (fun _ a _ => isNaN a) = true ∧ meets w64 6 0 (fun _ a _ => isPInf a) = true ∧
    meets w64 7 0 (fun _ a _ => isNInf a) = true ∧
    meets w64 maxW 0 (fun _ a _ => isNormal a) = true := by decide

theorem witness_RoundingToInteger :
    Instr.rndhui ∈ [Instr.floori, .ceili, .rndei, .rndhui] ∧
    meets w32 5 0 (fun _ a _ => isNaN a) = true ∧ meets w32 6 0 (fun _ a _ => isPInf a) = true ∧
    meets w32 7 0 (fun _ a _ => isNInf a) = true ∧
    meets (unit .w32 0) 0x7FFFFFFC 0 (fun _ a _ => isNormal a) = true := by decide

theorem witness_ShiftRoundsARawInteger :
    meets w32 0x7FFFFFFF 0 (fun f _ _ => decide ((31#6).toNat ≤ f.W - 1)) = true ∧
    meets w32 0x7FFFFFFF 0 (fun f _ _ => decide (f.W - 1 < (32#6).toNat)) = true := by decide

theorem witness_ToDoubleIsNearest :
    meets w64 nanW 0 (fun f a _ => f.legal && f.width == .w64 && isNaN a) = true ∧
    meets w32 6 0 (fun f a _ => f.legal && f.width == .w32 && isPInf a) = true ∧
    meets w64 7 0 (fun f a _ => f.legal && isNInf a) = true ∧
    meets w64 0 0 (fun f a _ => f.legal && isNormal a && v f a == 0) = true ∧
    meets (unit .w64 60) maxW 0 (fun f a _ => f.legal && isNormal a) = true := by decide

/-- A NaN, the two infinities, and the largest finite pattern; `d` is `a`, and `{b, a}`. -/
theorem witness_FromDoubleRoundsOnce :
    meets w64 0x7FF0000000000001 0 (fun _ d _ => dblExp d == 2047 && dblFrac d != 0) = true ∧
    meets w64 0x7FF0000000000000 0
      (fun _ d _ => dblExp d == 2047 && dblFrac d == 0 && !dblSign d) = true ∧
    meets w32 0 0xFFF00000 (fun _ a b =>
      let d : BitVec 64 := 0xFFF0000000000000
      d.toNat == a.toNat % 2 ^ 32 + 2 ^ 32 * (b.toNat % 2 ^ 32) &&
        dblExp d == 2047 && dblFrac d == 0 && dblSign d) = true ∧
    meets w64 0x7FEFFFFFFFFFFFFF 0 (fun _ d _ => dblExp d != 2047) = true := by decide

theorem witness_DoubleRoundTripIsExact :
    w64.fmt.legal = true ∧ isNormal 0x007FFFFFFFFFFFFC = true ∧
    Fits w64.fmt.W 0x007FFFFFFFFFFFFC ∧ |v w64.fmt 0x007FFFFFFFFFFFFC| < 2 ^ 53 ∧
    (execute w64 (encode .todbl) 0x007FFFFFFFFFFFFC 0).isSome = true ∧
    w32.fmt.legal = true ∧ w32.fmt.width = .w32 ∧ isNormal 0x7FFFFFFC = true ∧
    Fits w32.fmt.W 0x7FFFFFFC ∧ (execute w32 (encode .todbl) 0x7FFFFFFC 0).isSome = true := by
  decide +kernel

theorem witness_LiteralRoundsAndWraps :
    meets w64 ninfW ninfW (fun _ _ _ => decide ((19#6).toNat ≤ 19)) = true ∧
    meets w32 0 0 (fun _ _ _ => decide (9 < (10#6).toNat)) = true := by decide

theorem witness_ConstantTable :
    meets w32 5 6 (fun _ _ _ => decide (11 < (12#6).toNat)) = true := by decide

theorem witness_SquareRootIsNearest :
    meets w64 nanW 0 (fun f a _ => f.legal && isNaN a) = true ∧
    meets w64 ninfW 0 (fun f a _ => f.legal && decide (Negative f a)) = true ∧
    meets w64 (-4) 0 (fun f a _ => f.legal && decide (Negative f a)) = true ∧
    meets w64 pinfW 0 (fun f a _ => f.legal && isPInf a) = true ∧
    meets (unit .w64 60) maxW 0 (fun f a _ => f.legal && isNormal a && decide (0 ≤ v f a)) = true ∧
    meets w64 0 0 (fun f a _ => f.legal && isNormal a && decide (0 ≤ v f a)) = true := by decide

theorem witness_ExponentialSpecialsAndSign :
    meets (openly w64) nanW 0 (fun f a _ => f.legal && isNaN a) = true ∧
    meets w64 pinfW 0 (fun f a _ => f.legal && isPInf a) = true ∧
    meets w64 ninfW 0 (fun f a _ => f.legal && isNInf a) = true ∧
    meets w64 0 0 (fun f a _ => f.legal && isNormal a && v f a == 0) = true ∧
    meets w64 minW 0 (fun f a _ => f.legal && isNormal a) = true := by decide

theorem witness_ExponentialFollowsTheReference :
    w64.trans = .reference ∧ meets w64 nanW 0 (fun _ a _ => isNaN a) = true ∧
    meets w64 pinfW 0 (fun _ a _ => isPInf a) = true ∧
    meets w64 ninfW 0 (fun _ a _ => isNInf a) = true ∧
    meets w64 minW 0 (fun _ a _ => isNormal a) = true := by decide

theorem witness_LogarithmSpecialsAndSign :
    Instr.log10 ∈ [Instr.ln, .log2, .log10] ∧
    meets (openly w64) nanW 0 (fun f a _ => f.legal && isNaN a) = true ∧
    meets w64 pinfW 0 (fun f a _ => f.legal && isPInf a) = true ∧
    meets w64 ninfW 0 (fun f a _ => f.legal && isNInf a) = true ∧
    meets w64 (-4) 0 (fun f a _ => f.legal && isNormal a && decide (v f a < 0)) = true ∧
    meets w64 0 0 (fun f a _ => f.legal && isNormal a && v f a == 0) = true ∧
    meets w64 one 0 (fun f a _ => f.legal && isNormal a && v f a == 2 ^ f.F) = true ∧
    meets w64 (one - 4) 0
      (fun f a _ => f.legal && isNormal a && decide (0 < v f a) && decide (v f a < 2 ^ f.F)) = true := by
  decide

/-- The smallest and the largest power of two with W = 64, F = 32. -/
theorem witness_Log2OfPowersOfTwoIsExact :
    meets w64 4 0 (fun f a _ => f.legal && isNormal a && v f a == 2 ^ 0 &&
      decide (vmin f ≤ ((0 : Int) - f.F) * 2 ^ f.F) && decide (((0 : Int) - f.F) * 2 ^ f.F ≤ vmax f))
      = true ∧
    meets (openly w64) 0x4000000000000000 0 (fun f a _ => f.legal && isNormal a && v f a == 2 ^ 60 &&
      decide (vmin f ≤ ((60 : Int) - f.F) * 2 ^ f.F) &&
      decide (((60 : Int) - f.F) * 2 ^ f.F ≤ vmax f)) = true := by decide

theorem witness_LogarithmsFollowTheReference :
    w64.trans = .reference ∧ Instr.ln ∈ [Instr.ln, .log2, .log10] ∧
    meets w64 nanW 0 (fun _ a _ => isNaN a) = true ∧
    meets w64 pinfW 0 (fun _ a _ => isPInf a) = true ∧
    meets w64 ninfW 0 (fun _ a _ => isNInf a) = true ∧
    meets w64 (-4) 0 (fun f a _ => isNormal a && decide (v f a < 0)) = true ∧
    meets w64 0 0 (fun f a _ => isNormal a && v f a == 0) = true ∧
    meets w64 4 0 (fun f a _ => isNormal a && decide (0 < v f a)) = true := by decide

theorem witness_PowerSpecials :
    meets (openly w64) nanW 0 (fun f a b => f.legal && (isNaN a || isNaN b)) = true ∧
    meets w64 minusOne half (fun f a b => f.legal && decide (Negative f a) &&
      !(isNormal b && v f b % 2 ^ f.F == 0)) = true ∧
    meets w64 minusOne 0 (fun f a b => f.legal && isNormal a && v f a != 0 && isNormal b &&
      v f b == 0) = true ∧
    meets (unit .w64 60) 4 0 (fun f a b => f.legal && isNormal a && v f a != 0 && isNormal b &&
      v f b == 0) = true ∧
    meets w64 one minW (fun f a b => f.legal && isNormal a && v f a == 2 ^ f.F && isNormal b)
      = true ∧
    meets w64 one ninfW (fun f a b => f.legal && isNormal a && v f a == 2 ^ f.F && isInf b) = true := by
  decide +kernel

/-- The base ONE, whose logarithm is ZERO; the normals next to it; MAX and EPS. -/
theorem witness_PowerSpecials_infinite_exponent :
    meets w64 one pinfW (fun f a b => f.legal && isNormal a && decide (0 < v f a) && isInf b &&
      resultOf w64 .ln a 0 == some (ZERO f)) = true ∧
    meets w64 (one + 4) pinfW (fun f a b => f.legal && isNormal a && decide (2 ^ f.F < v f a) &&
      resultOf w64 .ln a 0 != some (ZERO f) && isPInf b) = true ∧
    meets w64 maxW ninfW (fun f a b => f.legal && isNormal a && decide (2 ^ f.F < v f a) &&
      resultOf w64 .ln a 0 != some (ZERO f) && isNInf b) = true ∧
    meets w64 (one - 4) pinfW (fun f a b => f.legal && isNormal a && decide (0 < v f a) &&
      decide (v f a < 2 ^ f.F) && resultOf w64 .ln a 0 != some (ZERO f) && isPInf b) = true ∧
    meets w64 4 ninfW (fun f a b => f.legal && isNormal a && decide (0 < v f a) &&
      decide (v f a < 2 ^ f.F) && resultOf w64 .ln a 0 != some (ZERO f) && isNInf b) = true := by
  decide +kernel

theorem witness_PowerSpecials_zero_and_infinity :
    meets w64 0 (-4) (fun f a b => isZero f a && isNormal b && decide (v f b < 0)) = true ∧
    meets w64 0 0 (fun f a b => isZero f a && isNormal b && v f b == 0) = true ∧
    meets w64 0 4 (fun f a b => isZero f a && isNormal b && decide (0 < v f b)) = true ∧
    meets w64 0 pinfW (fun f a b => isZero f a && isPInf b) = true ∧
    meets w64 0 ninfW (fun f a b => isZero f a && isNInf b) = true ∧
    meets w64 pinfW (-4) (fun f a b => isPInf a && isNormal b && decide (v f b < 0)) = true ∧
    meets w64 pinfW 0 (fun f a b => isPInf a && isNormal b && v f b == 0) = true ∧
    meets w64 pinfW 4 (fun f a b => isPInf a && isNormal b && decide (0 < v f b)) = true ∧
    meets w64 pinfW pinfW (fun _ a b => isPInf a && isPInf b) = true ∧
    meets w64 pinfW ninfW (fun _ a b => isPInf a && isNInf b) = true ∧
    meets w64 ninfW minusOne (fun f a b => isNInf a && isNormal b && v f b % 2 ^ f.F == 0 &&
      decide (v f b < 0)) = true ∧
    meets w64 ninfW 0 (fun f a b => isNInf a && isNormal b && v f b == 0) = true ∧
    meets w64 ninfW one (fun f a b => isNInf a && isNormal b && v f b % 2 ^ f.F == 0 &&
      decide (0 < v f b) && v f b / 2 ^ f.F % 2 == 1) = true ∧
    meets w64 ninfW (one + one) (fun f a b => isNInf a && isNormal b && v f b % 2 ^ f.F == 0 &&
      decide (0 < v f b) && v f b / 2 ^ f.F % 2 == 0) = true := by decide

/-- A NaN; −1 to the power 0.5; −1 to the power 0; −1, whose negation is no MIN. -/
theorem witness_PowerIsTheComposition :
    isNaN nanW = true ∧ Negative w64.fmt minusOne ∧
    ¬(isNormal half = true ∧ v w64.fmt half % 2 ^ w64.fmt.F = 0) ∧
    (isNormal minusOne = true ∧ v w64.fmt minusOne ≠ 0 ∧ isNormal 0 = true ∧ v w64.fmt 0 = 0 ∧
      w64.fmt.legal = true ∧ isNormal (lnMagnitude w64 minusOne) = true) ∧
    isNInf ninfW = true ∧ isNormal minusOne = true ∧ v w64.fmt minusOne < 0 ∧
    w64.trans = .reference ∧ v w64.fmt minusOne ≠ vmin w64.fmt ∧
    resultOf w64 .neg minusOne 0 = some one := by decide +kernel

/-- The composition: a positive base, MIN to the power one, and −1 to the power zero. -/
theorem witness_PowerIsTheComposition_chain :
    (isNaN maxW = false ∧ isNaN half = false ∧ ¬Negative w64.fmt maxW ∧
      ∃ l p r nr, resultOf w64 .ln maxW 0 = some l ∧ resultOf w64 .mul half l = some p ∧
        resultOf w64 .exp p 0 = some r ∧ resultOf w64 .neg r 0 = some nr) ∧
    (isNaN minW = false ∧ isNaN one = false ∧ Negative w64.fmt minW ∧
      (isNormal one = true ∧ v w64.fmt one % 2 ^ w64.fmt.F = 0) ∧ v w64.fmt one ≠ 0 ∧
      ∃ p r nr, resultOf w64 .mul one (lnMagnitude w64 minW) = some p ∧
        resultOf w64 .exp p 0 = some r ∧ resultOf w64 .neg r 0 = some nr) ∧
    (isNaN minusOne = false ∧ Negative w64.fmt minusOne ∧
      (isNormal 0 = true ∧ v w64.fmt 0 % 2 ^ w64.fmt.F = 0) ∧
      ∃ p r nr, resultOf w64 .mul 0 (lnMagnitude w64 minusOne) = some p ∧
        resultOf w64 .exp p 0 = some r ∧ resultOf w64 .neg r 0 = some nr) :=
  ⟨⟨by decide, by decide, by decide, _, _, _, _, rfl, rfl, rfl, rfl⟩,
    ⟨by decide, by decide, by decide, by decide, by decide, _, _, _, rfl, rfl, rfl⟩,
    by decide, by decide, by decide, _, _, _, rfl, rfl, rfl⟩

theorem witness_TrigonometricSpecialsAndZero :
    Instr.tan ∈ [Instr.sin, .cos, .tan, .sinf] ∧ Instr.cos ∈ [Instr.sin, .cos, .sinf] ∧
    meets (openly w64) pinfW 0 (fun f a _ => f.legal && !isNormal a) = true ∧
    meets w64 0 0 (fun f a _ => f.legal && isNormal a && v f a == 0) = true ∧
    meets w64 maxW 0 (fun f a _ => f.legal && isNormal a) = true ∧
    meets (openly (unit .w32 28)) 0x7FFFFFFC 0 (fun f a _ => f.legal && isNormal a) = true ∧
    (openly (unit .w32 28)).trans = .uninterpreted ∧
    meets (unit .w64 60) 0 4 (fun f a b => f.legal && isNormal a && isNormal b &&
      decide (reduce f (v f a) = reduce f (v f b))) = true ∧
    (resultOf (unit .w64 60) .sin 4 0).isSome = true := by decide +kernel

theorem witness_SineAndCosineFollowTheReference :
    w64.trans = .reference ∧ meets w64 pinfW 0 (fun _ a _ => !isNormal a) = true ∧
    meets w64 maxW 0 (fun _ a _ => isNormal a) = true := by decide

theorem witness_CordicNeverOverflows :
    (0 : Int) ≤ 421657428 ∧
    sinfColumn (reduce ⟨.w64, 60⟩ (vmin ⟨.w64, 60⟩)) ∈
      [sinColumn (reduce ⟨.w64, 60⟩ (vmin ⟨.w64, 60⟩)),
        cosColumn (reduce ⟨.w64, 60⟩ (vmin ⟨.w64, 60⟩)),
        sinfColumn (reduce ⟨.w64, 60⟩ (vmin ⟨.w64, 60⟩))] ∧ (⟨.w64, 60⟩ : Format).legal = true ∧
    (⟨.w32, 28⟩ : Format).legal = true := by decide +kernel

theorem witness_FastSineFollowsTheReference :
    w64.trans = .reference ∧ meets w64 nanW 0 (fun _ a _ => !isNormal a) = true ∧
    meets w64 minW 0 (fun _ a _ => isNormal a) = true := by decide

theorem witness_TangentIsTheQuotient :
    ∃ sn cs q, (unitWith w64 0 half 0).pending = [⟨0, half, 0, 0⟩] ∧
      resultOf w64 .sin half 0 = some sn ∧ resultOf w64 .cos half 0 = some cs ∧
      resultOf w64 .div sn cs = some q := ⟨_, _, _, rfl, rfl, rfl, rfl⟩

theorem witness_NaNPropagates :
    Instr.sinf ∈ unaryFix ∧ Instr.pow ∈ binaryFix ∧
    meets w64 5 0 (fun _ a _ => isNaN a) = true ∧
    meets w64 one 5 (fun _ _ b => isNaN b) = true := by decide

theorem witness_SpecialsAreReadByTheirTag :
    ReadsRawBits .add = false ∧ WellFormed .w64 .add = true := by decide

theorem witness_SpecialResultsAreCanonical :
    FixResult .add = true ∧ resultOf w64 .add 6 one = some pinfW := by decide +kernel

theorem witness_UnreadPortsHaveNoEffect :
    ReadsB .w64 .fromdbl = false ∧ ReadsB .w32 .fromdbl = true ∧ ReadsB .w64 .sin = false := by
  decide

/-! #### The handshake -/

/-- The host's pins: an ADD offered or nothing, and whether responses are taken. -/
def pins (rst offer take : Bool) : EdgeInput :=
  { rst := rst, cmdValid := offer, cmd := 0x000A, a := one, b := half, rspReady := take }

/-- A unit that has been ready, with a host that holds back, then takes. -/
def holding : State :=
  { adding with resetWait := none, inputs := [pins false false false, pins false false true] }

def stepped (s : State) : Option State :=
  match step s with
  | .next t => some t
  | .fault _ => none
  | .refused _ => none

theorem witness_StepKeepsTheInvariant : holding.Inv ∧ (stepped holding).isSome = true := by
  decide +kernel

theorem test_reset_inv : State.reset.Inv := by decide

theorem witness_NothingStopsTheUnit :
    holding.build.supported = true ∧
    ({ holding with build := { w64 with depth := 0 } } : State).build.supported = false ∧
    (unit .w32 29).supported = false := by decide

/-- Reset while a response is offered and a command is offered: nothing transfers. -/
def resetting : State := { holding with inputs := [pins true true true] }

theorem witness_ResetEdgeDropsTheCommandsInFlight :
    resetting.build.supported = true ∧ resetting.input.rst = true ∧ resetting.pending ≠ [] := by
  decide

/-- A command one cycle from its latency, with another offered. -/
def waiting : State :=
  { adding with pending := [⟨0x000A, one, half, 1⟩], resetWait := none,
                inputs := [pins false true true] }

theorem witness_HandshakeBounds :
    (stepped resetting).isSome = true ∧ resetting.input.rst = true ∧
    ({ holding with build := { w64 with depth := 1 } } : State).build.depth ≤
      holding.pending.length ∧
    (stepped { holding with build := { w64 with depth := 1 } }).isSome = true ∧
    (stepped State.reset).isSome = true ∧ State.reset.pending = [] := by decide +kernel

/-- A due command that is held back; a command that is not due, on its way in. -/
theorem witness_HandshakeBounds_due_and_not_due :
    (∃ t, step holding = .next t ∧ t.rspValid = true ∧ holding.input.rspReady = false ∧
      holding.input.rst = false ∧ holding.pending = [⟨0x000A, one, half, 0⟩]) ∧
    ∃ t, step waiting = .next t ∧ t.rspValid = false ∧ waiting.input.rst = false ∧
      waiting.pending = [⟨0x000A, one, half, 1⟩] ∧ acceptedNow waiting ≠ [] :=
  ⟨⟨_, rfl, rfl, rfl, rfl, rfl⟩, _, rfl, rfl, rfl, rfl, by decide⟩

theorem witness_OperandsAreSampledAtTheTransferOnly :
    holding.inputs = [pins false false false, pins false false true] ∧
    (pins false false false).cmdValid = false ∧
    ({ holding with build := { w64 with depth := 1 } } : State).cmdReadyAt (pins false true true)
      = false := by decide

theorem witness_ReadyWithinRstReadyOfReset :
    resetting.build.supported = true ∧ resetting.input.rst = true ∧
    ∃ t, step resetting = .next t ∧ NoReset (resetting.build.rstReady + 1) t :=
  ⟨by decide, by decide, _, rfl, by decide⟩

/-- An ADD accepted with nothing in flight, and one edge later: due at its latency of 2. -/
def accepting : State :=
  { State.reset with resetWait := none, inputs := [pins false true true, pins false false true] }

theorem witness_ResponsesAreOfferedAtTheirLatency :
    accepting.build.supported = true ∧ accepting.input.rst = false ∧
    accepting.input.cmdValid = true ∧ accepting.cmdReadyAt accepting.input = true ∧
    ∃ t u, step accepting = .next t ∧ NoReset 1 t ∧ run 1 t = .next u ∧
      u.delivered.length = accepting.delivered.length + accepting.pending.length ∧
      u.input.rst = false ∧ u.oldestDue = true :=
  ⟨by decide, by decide, by decide, by decide, _, _, rfl, by decide, rfl, by decide, by decide,
    by decide⟩

theorem witness_OfferedResponsesAreHeld :
    ∃ t u, step holding = .next t ∧ t.rspValid = true ∧ holding.input.rspReady = false ∧
      t.input.rst = false ∧ step t = .next u :=
  ⟨_, _, rfl, rfl, rfl, rfl, rfl⟩

/-- Two commands in flight, the second not yet due. -/
def twoInFlight : State :=
  { adding with pending := [⟨0x000A, one, half, 0⟩, ⟨0, 0, 0, 1⟩],
                inputs := [pins false false true, pins false false true, pins false false true] }

theorem witness_CommandsInFlightAreAnswered :
    twoInFlight.build.supported = true ∧
    (∀ inp ∈ twoInFlight.inputs.take (twoInFlight.pending.map fun e => e.wait + 1).sum,
      inp.rst = false ∧ inp.rspReady = true) ∧
    (twoInFlight.pending.map fun e => e.wait + 1).sum = 3 := by decide

theorem witness_ResponsesLeaveInOrder :
    NoReset 2 twoInFlight ∧ ∃ t, run 2 twoInFlight = .next t := ⟨by decide, _, rfl⟩

/-- The same unit with other operands. -/
def twoOthers : State :=
  { twoInFlight with pending := [⟨0x000A, nanW, maxW, 0⟩, ⟨0, 7, 7, 1⟩],
                     delivered := [⟨0, 0, false⟩] }

theorem witness_HandshakeTimingIsIndependentOfOperands :
    twoInFlight.timing = twoOthers.timing ∧ twoInFlight ≠ twoOthers ∧
    ∃ t, run 3 twoInFlight = .next t := ⟨by decide, by decide, _, rfl⟩

end Sys2Proof.Tests
end

/-! Noninterference (10_state.md R40, 00_scope.md R14): of the build, an operation's response reads the
format and `TRANS_IMPL` only. -/

namespace Sys2Proof.Machine

section SameFormatAndTrans

variable {bld bld' : Build} (hfmt : bld.fmt = bld'.fmt) (htrans : bld.trans = bld'.trans)
include hfmt htrans

/-! ### Each operation that is given the whole build -/

theorem exponential_congr (a : Word) : exponential bld a = exponential bld' a := by
  simp only [exponential, hfmt, htrans]

theorem logOf_congr (base : LogBase) (m : Nat) : logOf bld base m = logOf bld' base m := by
  simp only [logOf, hfmt, htrans]

theorem logarithm_congr (base : LogBase) (a : Word) :
    logarithm bld base a = logarithm bld' base a := by
  simp only [logarithm, logOf_congr hfmt htrans, hfmt]

theorem lnMagnitude_congr (a : Word) : lnMagnitude bld a = lnMagnitude bld' a := by
  simp only [lnMagnitude, logOf_congr hfmt htrans, hfmt]

theorem power_congr (a b : Word) : power bld a b = power bld' a b := by
  simp only [power, exponential_congr hfmt htrans, lnMagnitude_congr hfmt htrans,
    logarithm_congr hfmt htrans, hfmt]

theorem sine_congr (a : Word) : sine bld a = sine bld' a := by
  simp only [sine, hfmt, htrans]

theorem cosine_congr (a : Word) : cosine bld a = cosine bld' a := by
  simp only [cosine, hfmt, htrans]

theorem tangent_congr (a : Word) : tangent bld a = tangent bld' a := by
  simp only [tangent, sine_congr hfmt htrans, cosine_congr hfmt htrans, hfmt]

theorem fastSine_congr (a : Word) : fastSine bld a = fastSine bld' a := by
  simp only [fastSine, hfmt, htrans]

/-! ### Every operation, and every command word -/

/-- The operations that read `TRANS_IMPL` are those of chapters 44 and 45 but SQRT (R311, R358); all
others are given the format alone. -/
theorem responseOf_congr (i : Instr) (a b : Word) :
    responseOf i bld a b = responseOf i bld' a b := by
  cases i with
  | exp => simp only [responseOf, exponential_congr hfmt htrans]
  | ln | log2 | log10 => simp only [responseOf, logarithm_congr hfmt htrans]
  | pow => simp only [responseOf, power_congr hfmt htrans]
  | sin => simp only [responseOf, sine_congr hfmt htrans]
  | cos => simp only [responseOf, cosine_congr hfmt htrans]
  | tan => simp only [responseOf, tangent_congr hfmt htrans]
  | sinf => simp only [responseOf, fastSine_congr hfmt htrans]
  | _ => simp only [responseOf, hfmt]

end SameFormatAndTrans

/-- A unit whose oldest command is legal runs its operation (R110). -/
theorem runOldest_of_instr {s : State} {e : Entry} {rest : List Entry} {i : Instr}
    (hs : s.pending = e :: rest) (hd : decode s.build.fmt.width e.cmd = .instr i) :
    runOldest s = exec i s := by
  simp only [runOldest, hs, hd]

/-- A unit whose oldest command is illegal raises IllegalCommand (R384). -/
theorem runOldest_of_illegal {s : State} {e : Entry} {rest : List Entry} {why : Illegal}
    (hs : s.pending = e :: rest) (hd : decode s.build.fmt.width e.cmd = .illegal why) :
    runOldest s = raiseIllegal s := by
  simp only [runOldest, hs, hd]

theorem unitWith_pending (bld : Build) (c : Cmd) (a b : Word) :
    (unitWith bld c a b).pending = [{ cmd := c, a := a, b := b, wait := 0 }] := rfl

theorem execute_of_runOldest {bld : Build} {c : Cmd} {a b : Word} {r : Response}
    (h : runOldest (unitWith bld c a b) = .next ((unitWith bld c a b).drive r)) :
    execute bld c a b = some r := by
  simp only [execute, h, State.drive_rsp]

/-- `execute` of a legal command (R110). -/
theorem execute_of_instr {bld : Build} {c : Cmd} {i : Instr}
    (hd : decode bld.fmt.width c = .instr i) (a b : Word) :
    execute bld c a b = some (responseOf i bld a b) :=
  have hs := unitWith_pending bld c a b
  execute_of_runOldest ((runOldest_of_instr hs hd).trans (exec_cons hs i))

/-- `execute` of an illegal command (R384). -/
theorem execute_of_illegal {bld : Build} {c : Cmd} {why : Illegal}
    (hd : decode bld.fmt.width c = .illegal why) (a b : Word) :
    execute bld c a b = some (illegalResponse bld.fmt) :=
  have hs := unitWith_pending bld c a b
  execute_of_runOldest ((runOldest_of_illegal hs hd).trans (raiseIllegal_cons hs))

/-- `execute` is the same function on two units of one format and one `TRANS_IMPL`, whatever their
depth, latency and readiness (R14, R40). -/
theorem execute_congr {bld bld' : Build} (hfmt : bld.fmt = bld'.fmt)
    (htrans : bld.trans = bld'.trans) (c : Cmd) (a b : Word) :
    execute bld c a b = execute bld' c a b := by
  cases hd : decode bld.fmt.width c with
  | instr i =>
    have hd' : decode bld'.fmt.width c = .instr i := hfmt ▸ hd
    rw [execute_of_instr hd, execute_of_instr hd', responseOf_congr hfmt htrans]
  | illegal why =>
    have hd' : decode bld'.fmt.width c = .illegal why := hfmt ▸ hd
    rw [execute_of_illegal hd, execute_of_illegal hd', hfmt]

/-- Settles O10: each unit drives `execute` of its oldest triple, and the two builds give one
`execute`. -/
theorem responsesDependOnTheCommandAlone : Obligations.ResponsesDependOnTheCommandAlone := by
  intro s t e e' rest rest' hs ht hfmt htrans htriple
  obtain ⟨r, hexec, hrun⟩ := runOldest_eq_execute hs
  obtain ⟨r', hexec', hrun'⟩ := runOldest_eq_execute ht
  have hsame : executeTriple s.build e.triple = executeTriple t.build e'.triple := by
    rw [htriple]
    exact execute_congr hfmt htrans _ _ _
  obtain rfl : r = r' := Option.some.inj (hexec.symm.trans (hsame.trans hexec'))
  exact ⟨r, hrun, hrun', hexec⟩

end Sys2Proof.Machine

/-! In-order delivery (10_state.md R70, R71). One edge answers at most the oldest command in flight;
that is a relation between the states around the edge, and it composes along a run. -/

namespace Sys2Proof.Machine

/-! ### What an edge does to the build, the host's script and the commands in flight -/

theorem step_build {s t : State} (h : step s = .next t) : t.build = s.build := by
  obtain ⟨-, ⟨-, rfl⟩ | ⟨-, e, rest, r, -, -, -, rfl⟩ | ⟨-, -, rfl⟩⟩ := step_next h <;> simp

theorem step_inputs {s t : State} (h : step s = .next t) : t.inputs = s.inputs.tail := by
  obtain ⟨-, ⟨-, rfl⟩ | ⟨-, e, rest, r, -, -, -, rfl⟩ | ⟨-, -, rfl⟩⟩ := step_next h <;> simp

/-- The passing of a cycle leaves the triples in flight alone. -/
theorem map_triple_age (es : List Entry) :
    (es.map fun e => { e with wait := e.wait - 1 }).map Entry.triple = es.map Entry.triple := by
  rw [List.map_map]; rfl

/-- The triples in flight after an edge of `s`, where `u` is `s` with its response ports driven. -/
theorem finishEdge_triples {s u : State} (hbuild : u.build = s.build) :
    (u.finishEdge s.input (s.cmdReadyAt s.input)).pending.map Entry.triple =
      (if u.rspValid && s.input.rspReady then u.pending.tail else u.pending).map Entry.triple ++
        acceptedNow s := by
  rw [State.finishEdge_pending, List.map_append, map_triple_age, hbuild, acceptedNow]
  congr 1
  split <;> rfl

/-! ### Runs, edge by edge -/

/-- A run of `n + 1` edges is one edge and a run of `n`. -/
theorem run_succ {n : Nat} {s u : State} (h : run (n + 1) s = .next u) :
    ∃ t, step s = .next t ∧ run n t = .next u := by
  simp only [run, Host.Core.run] at h
  split at h
  · next t hstep => exact ⟨t, hstep, h⟩
  · cases h
  · cases h

theorem acceptedIn_succ {n : Nat} {s t : State} (h : step s = .next t) :
    acceptedIn (n + 1) s = acceptedNow s ++ acceptedIn n t := by
  rw [acceptedIn, h]

/-- Without reset at `n + 1` edges, there is none at the first, nor at the `n` after it. -/
theorem NoReset.of_step {n : Nat} {s t : State} (h : NoReset (n + 1) s) (hs : step s = .next t) :
    s.input.rst = false ∧ NoReset n t := by
  rw [NoReset, step_inputs hs, State.input]
  cases hin : s.inputs with
  | nil => exact ⟨rfl, by simp⟩
  | cons inp later =>
    rw [NoReset, hin, List.take_succ_cons, List.forall_mem_cons] at h
    exact h

/-! ### Answering in order -/

/-- Between `s` and `t` the commands `accepted` were accepted, and the host was given `execute` of
the oldest commands, in order; all others are in flight in `t`, in order (R71). -/
def AnsweredInOrder (s : State) (accepted : List (Cmd × Word × Word)) (t : State) : Prop :=
  ∃ answered rs,
    s.pending.map Entry.triple ++ accepted = answered ++ t.pending.map Entry.triple ∧
    t.delivered = s.delivered ++ rs ∧
    rs.map some = answered.map (executeTriple s.build)

theorem AnsweredInOrder.refl (s : State) : AnsweredInOrder s [] s :=
  ⟨[], [], by simp, by simp, rfl⟩

theorem AnsweredInOrder.trans {s t u : State} {accepted accepted' : List (Cmd × Word × Word)}
    (hbuild : t.build = s.build) (hst : AnsweredInOrder s accepted t)
    (htu : AnsweredInOrder t accepted' u) : AnsweredInOrder s (accepted ++ accepted') u := by
  obtain ⟨answered, rs, hflight, hgiven, hexec⟩ := hst
  obtain ⟨answered', rs', hflight', hgiven', hexec'⟩ := htu
  refine ⟨answered ++ answered', rs ++ rs', ?_, ?_, ?_⟩
  · rw [← List.append_assoc, hflight, List.append_assoc, hflight', List.append_assoc]
  · rw [hgiven', hgiven, List.append_assoc]
  · rw [List.map_append, List.map_append, hexec, hexec', hbuild]

/-- An edge at which no response transfers answers nothing. -/
theorem answeredInOrder_of_no_transfer {s u : State} (hbuild : u.build = s.build)
    (hpending : u.pending = s.pending) (hdelivered : u.delivered = s.delivered)
    (hno : (u.rspValid && s.input.rspReady) = false) :
    AnsweredInOrder s (acceptedNow s) (u.finishEdge s.input (s.cmdReadyAt s.input)) := by
  refine ⟨[], [], ?_, ?_, rfl⟩
  · simp [finishEdge_triples hbuild, hno, hpending]
  · simp [State.finishEdge_delivered, hno, hdelivered]

/-- An edge at which the driven response transfers answers the oldest command. -/
theorem answeredInOrder_of_transfer {s : State} {e : Entry} {rest : List Entry} {r : Response}
    (hs : s.pending = e :: rest) (hexec : executeTriple s.build e.triple = some r)
    (htake : s.input.rspReady = true) :
    AnsweredInOrder s (acceptedNow s)
      ((s.drive r).finishEdge s.input (s.cmdReadyAt s.input)) := by
  refine ⟨[e.triple], [r], ?_, ?_, ?_⟩
  · simp [finishEdge_triples (s.drive_build r), htake, hs]
  · simp [State.finishEdge_delivered, htake]
  · simp [hexec]

/-- One edge without reset: the host takes the response of the oldest command, or nothing. -/
theorem answeredInOrder_of_step {s t : State} (hrst : s.input.rst = false)
    (h : step s = .next t) : AnsweredInOrder s (acceptedNow s) t := by
  obtain ⟨-, ⟨hrst', -⟩ | ⟨-, e, rest, r, hs, -, hrun, rfl⟩ | ⟨-, -, rfl⟩⟩ := step_next h
  · rw [hrst] at hrst'; cases hrst'
  · cases htake : s.input.rspReady with
    | false => exact answeredInOrder_of_no_transfer rfl rfl rfl (by simp [htake])
    | true =>
      obtain ⟨r', hexec, hrun'⟩ := runOldest_eq_execute hs
      have hports : s.drive r = s.drive r' := by
        rw [hrun] at hrun'; cases hrun'; rfl
      rw [hports]
      exact answeredInOrder_of_transfer hs hexec htake
  · exact answeredInOrder_of_no_transfer rfl rfl rfl rfl

/-- Edges without reset answer in order, however many they are. -/
theorem answeredInOrder_of_run {n : Nat} {s t : State} (hno : NoReset n s)
    (h : run n s = .next t) : AnsweredInOrder s (acceptedIn n s) t := by
  induction n generalizing s with
  | zero => cases h; exact .refl _
  | succ n ih =>
    obtain ⟨u, hstep, hrun⟩ := run_succ h
    obtain ⟨hrst, hno'⟩ := hno.of_step hstep
    rw [acceptedIn_succ hstep]
    exact (answeredInOrder_of_step hrst hstep).trans (step_build hstep) (ih hno' hrun)

/-- Settles O59: the commands answered along the run are a first part of those in flight before and
accepted since. -/
theorem responsesLeaveInOrder : Obligations.ResponsesLeaveInOrder := by
  intro n s t hno h
  obtain ⟨answered, rs, hflight, hgiven, hexec⟩ := answeredInOrder_of_run hno h
  refine ⟨answered.length, ?_⟩
  dsimp only
  rw [hflight, List.drop_left, List.take_left]
  exact ⟨by simp, rfl, rs, hgiven, hexec⟩

end Sys2Proof.Machine

/-! The decoder (30_encoding.md R100 to R108): the fields of a word as numbers, and what `decode`
refuses. -/

namespace Sys2Proof

/-! ### The fields of a command word, as numbers (R100) -/

theorem opField_toNat (c : Cmd) : (opField c).toNat = c.toNat % 64 := by
  simp [opField]

theorem immField_toNat (c : Cmd) : (immField c).toNat = c.toNat / 64 % 64 := by
  simp [immField, Nat.shiftRight_eq_div_pow]

theorem rsvField_toNat (c : Cmd) : (rsvField c).toNat = c.toNat / 8192 := by
  simp only [rsvField, BitVec.extractLsb'_toNat, Nat.shiftRight_eq_div_pow]
  omega

theorem rsvField_eq_zero_iff (c : Cmd) : rsvField c = 0#3 ↔ c.toNat / 8192 = 0 := by
  rw [← BitVec.toNat_inj, rsvField_toNat, BitVec.toNat_ofNat, Nat.zero_mod]

theorem signField_iff (c : Cmd) : signField c = true ↔ c.toNat / 4096 % 2 = 1 := by
  simp [signField, BitVec.getLsbD, Nat.testBit_eq_decide_div_mod_eq]

/-! ### The opcode map, form by form (R105, R108, R109) -/

/-- The `OP` numbers that R108 reserves. -/
abbrev ReservedOp (n : Nat) : Prop :=
  n = 0x00 ∨ n = 0x0E ∨ n = 0x0F ∨ (0x19 ≤ n ∧ n ≤ 0x1B) ∨ n = 0x26 ∨ n = 0x27 ∨ 0x2C ≤ n

/-- The `OP` numbers of each form (R105, R108, R109). -/
def Form.hasOp (n : Nat) : Form → Bool
  | .reserved => decide (ReservedOp n)
  | .shift => n == 0x18
  | .literal => n == 0x1E
  | .select => n == 0x1F
  | .plain _ => decide (¬ReservedOp n ∧ n ≠ 0x18 ∧ n ≠ 0x1E ∧ n ≠ 0x1F)

theorem opMap_hasOp : ∀ op : BitVec 6, (opMap op).hasOp op.toNat = true := by decide

/-! ### What the decoder refuses (R107) -/

theorem ifUnsigned_illegal_iff (c : Cmd) (d : Decoded) :
    (∃ why, ifUnsigned c d = .illegal why) ↔ signField c = true ∨ ∃ why, d = .illegal why := by
  cases hs : signField c <;> simp [ifUnsigned, hs]

theorem ite_illegal_iff (p : Prop) [Decidable p] (i : Instr) (why : Illegal) :
    (∃ why', (if p then Decoded.instr i else .illegal why) = .illegal why') ↔ ¬p := by
  by_cases hp : p <;> simp [hp]

/-- What R107 refuses of `S` and `IMM` in a word whose `OP` is of one form. -/
def Form.Refuses (w : Width) (sign : Bool) (imm : Nat) : Form → Prop
  | .reserved => True
  | .plain _ => sign = true ∨ imm ≠ 0
  | .shift => sign = true ∨ w.maxShift < imm
  | .select => sign = true ∨ maxSelector < imm
  | .literal => w.nmax < imm

theorem decode_illegal_iff (w : Width) (c : Cmd) :
    (∃ why, decode w c = .illegal why) ↔
      rsvField c ≠ 0#3 ∨ (opMap (opField c)).Refuses w (signField c) (immField c).toNat := by
  unfold decode
  by_cases hr : rsvField c = 0#3
  · cases opMap (opField c) <;>
      simp [hr, ifUnsigned_illegal_iff, ite_illegal_iff, Form.Refuses, BitVec.toNat_eq]
  · simp [hr]

open Machine in
/-- Settles O3: clause 2 is on `RSV` alone, and the other six are told apart by the form of the
`OP`. -/
theorem illegalExactlyUnderTheSevenClauses :
    Obligations.IllegalExactlyUnderTheSevenClauses := by
  intro w c
  refine ⟨?_, ?_⟩
  · have hop := opMap_hasOp (opField c)
    rw [opField_toNat] at hop
    rw [decode_illegal_iff, Ne, rsvField_eq_zero_iff]
    generalize opMap (opField c) = form at hop ⊢
    cases form <;>
      simp only [Form.hasOp, decide_eq_true_eq, beq_iff_eq, ReservedOp, Form.Refuses,
        signField_iff, immField_toNat, Width.maxShift, maxSelector] at hop ⊢
    case reserved => exact iff_of_true (.inr trivial) (.inl hop)
    case plain =>
      obtain ⟨hreserved, hshift, hlit, hconst⟩ := hop
      simp [hreserved, hshift, hlit, hconst]
    case literal => cases w <;> simp [hop, Width.nmax]
    case shift | select => simp [hop]
  · rintro why bld a b hd rfl
    exact execute_of_illegal hd a b

end Sys2Proof

/-! An instruction's own word (30_encoding.md R106 to R112): what `decode` reads from it, and that
`execute` of it is `responseOf`, whose `ill` says whether the immediate is within R107. -/

namespace Sys2Proof

open Laws.EncodedFields (fields_read)

/-! ### What the decoder reads from an instruction's own word (R100 to R107, R109) -/

theorem decode_encode_rshre (w : Width) (s : BitVec 6) :
    decode w (encode (.rshre s)) =
      if s.toNat ≤ w.maxShift then .instr (.rshre s) else .illegal .shiftTooLarge := by
  obtain ⟨hop, himm, hsign, hrsv⟩ := fields_read (opcode (.rshre s)) s false
  have hform : opMap (opcode (.rshre s)) = .shift := rfl
  simp [decode, encode, ifUnsigned, hrsv, hop, hform, himm, hsign]

theorem decode_encode_lit (w : Width) (sign : Bool) (n : BitVec 6) :
    decode w (encode (.lit sign n)) =
      if n.toNat ≤ w.nmax then .instr (.lit sign n) else .illegal .digitsTooMany := by
  obtain ⟨hop, himm, hsign, hrsv⟩ := fields_read (opcode (.lit sign n)) n sign
  have hform : opMap (opcode (.lit sign n)) = .literal := rfl
  simp [decode, encode, hrsv, hop, hform, himm, hsign]

theorem decode_encode_const (w : Width) (sel : BitVec 6) :
    decode w (encode (.const sel)) =
      if sel.toNat ≤ maxSelector then .instr (.const sel) else .illegal .selectorTooLarge := by
  obtain ⟨hop, himm, hsign, hrsv⟩ := fields_read (opcode (.const sel)) sel false
  have hform : opMap (opcode (.const sel)) = .select := rfl
  simp [decode, encode, ifUnsigned, hrsv, hop, hform, himm, hsign]

/-- An instruction within the limits of R107 is read back from its word. -/
theorem decode_encode_of_wellFormed {w : Width} {i : Instr} (h : WellFormed w i = true) :
    decode w (encode i) = .instr i := by
  cases i with
  | rshre s => rw [decode_encode_rshre, if_pos (of_decide_eq_true h)]
  | lit sign n => rw [decode_encode_lit, if_pos (of_decide_eq_true h)]
  | const sel => rw [decode_encode_const, if_pos (of_decide_eq_true h)]
  | _ => rfl

/-- The word of an instruction outside the limits of R107 is illegal. -/
theorem decode_encode_of_not_wellFormed {w : Width} {i : Instr} (h : WellFormed w i = false) :
    ∃ why, decode w (encode i) = .illegal why := by
  cases i with
  | rshre s => exact ⟨_, by rw [decode_encode_rshre, if_neg (of_decide_eq_false h)]⟩
  | lit sign n => exact ⟨_, by rw [decode_encode_lit, if_neg (of_decide_eq_false h)]⟩
  | const sel => exact ⟨_, by rw [decode_encode_const, if_neg (of_decide_eq_false h)]⟩
  | _ => cases h

end Sys2Proof

namespace Sys2Proof.Machine

/-! ### `responseOf` within and outside the limits of R107 -/

theorem constant_isSome_iff (fmt : Format) (sel : Nat) :
    (constant fmt sel).isSome = true ↔ sel ≤ maxSelector := by
  rcases Nat.lt_or_ge maxSelector sel with h | h
  · obtain ⟨k, rfl⟩ : ∃ k, sel = k + 12 := ⟨sel - 12, by rw [maxSelector] at h; omega⟩
    have hnone : constant fmt (k + 12) = none := rfl
    simp [hnone, h]
  · rw [maxSelector] at h
    interval_cases sel <;> simp [constant, maxSelector]

theorem resultDbl_ill (fmt : Format) (d : BitVec 64) : (resultDbl fmt d).ill = false := by
  unfold resultDbl; split <;> rfl

theorem resultDbl_yh_of_ne_w32 {fmt : Format} (h : fmt.width ≠ .w32) (d : BitVec 64) :
    (resultDbl fmt d).yh = 0 := by
  unfold resultDbl
  split
  · rfl
  · next hw => exact absurd hw h

/-- The response of an instruction outside its limits is that of IllegalCommand (R107, R384). -/
theorem responseOf_of_not_wellFormed {bld : Build} {i : Instr}
    (h : WellFormed bld.fmt.width i = false) (a b : Word) :
    responseOf i bld a b = illegalResponse bld.fmt := by
  cases i with
  | rshre s => exact if_neg (of_decide_eq_false h)
  | lit sign n => exact if_neg (of_decide_eq_false h)
  | const sel =>
    have hnone : constant bld.fmt sel.toNat = none := by
      rw [← Option.not_isSome_iff_eq_none, constant_isSome_iff]
      exact of_decide_eq_false h
    simp only [responseOf, hnone]
  | _ => cases h

/-- The response of an instruction within its limits has `ill = 0`, and `yh = 0` unless it is TODBL
with `W = 32` (R112). -/
theorem responseOf_of_wellFormed {bld : Build} {i : Instr}
    (h : WellFormed bld.fmt.width i = true) (a b : Word) :
    (responseOf i bld a b).ill = false ∧
      (¬(i = .todbl ∧ bld.fmt.width = .w32) → (responseOf i bld a b).yh = 0) := by
  cases i with
  | rshre s =>
    have hle : s.toNat ≤ bld.fmt.width.maxShift := of_decide_eq_true h
    simp [responseOf, hle, resultY]
  | lit sign n =>
    have hle : n.toNat ≤ bld.fmt.width.nmax := of_decide_eq_true h
    simp [responseOf, hle, resultY]
  | const sel =>
    obtain ⟨y, hy⟩ := Option.isSome_iff_exists.mp
      ((constant_isSome_iff bld.fmt sel.toNat).mpr (of_decide_eq_true h))
    simp [responseOf, hy, resultY]
  | todbl =>
    exact ⟨resultDbl_ill _ _, fun hw => resultDbl_yh_of_ne_w32 (fun h32 => hw ⟨rfl, h32⟩) _⟩
  | _ => exact ⟨rfl, fun _ => rfl⟩

/-- `execute` of an instruction's own word is its response, within its limits and outside them
(R110). -/
theorem execute_encode (bld : Build) (i : Instr) (a b : Word) :
    execute bld (encode i) a b = some (responseOf i bld a b) := by
  cases h : WellFormed bld.fmt.width i with
  | true => exact execute_of_instr (decode_encode_of_wellFormed h) a b
  | false =>
    obtain ⟨why, hd⟩ := decode_encode_of_not_wellFormed h
    rw [execute_of_illegal hd, responseOf_of_not_wellFormed h]

/-! ### The ports that an instruction does not read (R106) -/

/-- With `W = 64` a binary64 operand travels on `a` alone (R62). -/
theorem dblOperand_of_ne_w32 {fmt : Format} (h : fmt.width ≠ .w32) (a b : Word) :
    dblOperand fmt a b = a := by
  unfold dblOperand
  split
  · rfl
  · next hw => exact absurd hw h

theorem responseOf_of_not_readsB {bld : Build} {i : Instr}
    (h : ReadsB bld.fmt.width i = false) (a b b' : Word) :
    responseOf i bld a b = responseOf i bld a b' := by
  cases i with
  | fromdbl =>
    have hw : bld.fmt.width ≠ .w32 := by simpa [ReadsB] using h
    simp only [responseOf, dblOperand_of_ne_w32 hw]
  | eq | eqn | cmp | lit | add | sub | mul | div | pow => simp [ReadsB, binaryFix] at h
  | _ => rfl

/-- Settles O48: `execute` of an instruction's word is `responseOf`, which is not given the unread
port. -/
theorem unreadPortsHaveNoEffect : Obligations.UnreadPortsHaveNoEffect := by
  intro bld i a b b'
  refine ⟨fun h => ?_, fun sel a' => ?_⟩
  · rw [execute_encode, execute_encode, responseOf_of_not_readsB h]
  · rw [execute_encode, execute_encode]
    rfl

/-- Settles O8: `exec` drives `responseOf`, which R107 divides into legal and illegal. -/
theorem everyInstructionCompletes : Obligations.EveryInstructionCompletes := by
  intro s e rest i hs
  rw [exec_cons hs i]
  refine ⟨fun h => ?_, fun h => ?_⟩
  · obtain ⟨hill, hyh⟩ := responseOf_of_wellFormed h e.a e.b
    exact ⟨_, _, by rw [← hill], hyh⟩
  · rw [responseOf_of_not_wellFormed h]
    rfl

end Sys2Proof.Machine

/-! The packed value (30_encoding.md R80 to R92): `enc`, the value field and the top bit, as
numbers. -/

namespace Sys2Proof.Machine

/-! ### Reading a word, as a number -/

theorem isNormal_iff (a : Word) : isNormal a = true ↔ a.toNat % 4 = 0 := by
  rw [isNormal, beq_iff_eq, ← BitVec.toNat_inj, tag_toNat, BitVec.toNat_ofNat, Nat.zero_mod]

theorem topBit_iff (W : Nat) (a : Word) :
    topBit W a = true ↔ a.toNat / 2 ^ (W - 1) % 2 = 1 := by
  simp [topBit, BitVec.getLsbD, Nat.testBit_eq_decide_div_mod_eq]

/-- The top bit of a word is the sign of its value field, whatever the tag (R85, R90). -/
theorem topBit_eq_v_neg (fmt : Format) (a : Word) :
    topBit fmt.W a = decide (v fmt a < 0) := by
  rw [Bool.eq_iff_iff, topBit_iff, decide_eq_true_iff]
  obtain ⟨w, F⟩ := fmt
  cases w <;> simp only [v, sext, Format.W, Width.bits] <;> omega

/-! ### Encoding a number (R86, R87) -/

theorem enc_toNat (fmt : Format) (n : Int) :
    (enc fmt n).toNat = (4 * n % 2 ^ fmt.W).toNat :=
  word_toNat fmt.width (4 * n)

theorem isNormal_enc (fmt : Format) (n : Int) : isNormal (enc fmt n) = true := by
  rw [isNormal_iff, enc_toNat]
  obtain ⟨w, F⟩ := fmt
  cases w <;> simp only [Format.W, Width.bits] <;> omega

theorem v_enc {fmt : Format} {n : Int} (hlo : vmin fmt ≤ n) (hhi : n ≤ vmax fmt) :
    v fmt (enc fmt n) = n := by
  rw [v, enc_toNat]
  obtain ⟨w, F⟩ := fmt
  cases w <;> simp only [vmin, vmax, sext, Format.W, Width.bits] at hlo hhi ⊢ <;> omega

/-- A normal on its lines is the encoding of its value field (R86). -/
theorem enc_v {fmt : Format} {a : Word} (hfits : Fits fmt.W a) (hnormal : isNormal a = true) :
    enc fmt (v fmt a) = a := by
  rw [isNormal_iff] at hnormal
  apply BitVec.eq_of_toNat_eq
  rw [enc_toNat]
  obtain ⟨w, F⟩ := fmt
  cases w <;> simp only [Fits, v, sext, Format.W, Width.bits] at hfits ⊢ <;> omega

/-! ### Saturation (R87) -/

theorem sat_of_range {fmt : Format} {n : Int} (hlo : vmin fmt ≤ n) (hhi : n ≤ vmax fmt) :
    sat fmt n = enc fmt n := by
  simp [sat, overflowsUp, overflowsDown, hlo.not_gt, hhi.not_gt]

theorem sat_of_vmax_lt {fmt : Format} {n : Int} (h : vmax fmt < n) : sat fmt n = PINF fmt := by
  simp [sat, overflowsUp, h]

theorem vmin_le_vmax (fmt : Format) : vmin fmt ≤ vmax fmt :=
  have ⟨hlo, hhi⟩ := v_range fmt 0
  hlo.trans hhi

theorem sat_of_lt_vmin {fmt : Format} {n : Int} (h : n < vmin fmt) : sat fmt n = NINF fmt := by
  have hup : ¬vmax fmt < n := (h.le.trans (vmin_le_vmax fmt)).not_gt
  simp [sat, overflowsUp, overflowsDown, hup, h]

/-! ### The canonical patterns (R83, R90) -/

/-- The words of 1, 2 and −1, which NAN, PINF and NINF are whatever `F` is. -/
theorem canonical_words :
    word 64 1 = 0x0000000000000001#64 ∧ word 64 2 = 0x0000000000000002#64 ∧
    word 64 (-1) = 0xFFFFFFFFFFFFFFFF#64 ∧
    word 32 1 = 0x00000001#64 ∧ word 32 2 = 0x00000002#64 ∧ word 32 (-1) = 0xFFFFFFFF#64 := by
  decide

theorem topBit_canonical (w : Width) :
    topBit w.bits (word w.bits 1) = false ∧ topBit w.bits (word w.bits 2) = false ∧
      topBit w.bits (word w.bits (-1)) = true := by
  cases w <;> decide

/-- Settles O11: the canonical patterns by evaluation at each width, the rest from the lemmas on
`enc`, `v` and `sat`. -/
theorem packedValuesReadBack : Obligations.PackedValuesReadBack := by
  refine ⟨fun F => canonical_words, fun fmt => ?_⟩
  obtain ⟨hnan, hpinf, hninf⟩ := topBit_canonical fmt.width
  refine ⟨hnan, hpinf, hninf, fun n hlo hhi => ?_, fun n => sat_of_vmax_lt,
    fun n => sat_of_lt_vmin, fun a => ?_⟩
  · exact ⟨isNormal_enc fmt n, v_enc hlo hhi, sat_of_range hlo hhi⟩
  · obtain ⟨hlo, hhi⟩ := v_range fmt a
    exact ⟨hlo, hhi, fun _ => topBit_eq_v_neg fmt a, enc_v⟩

end Sys2Proof.Machine

/-! Classification and comparison (40_classify.md). CMP is a linear order of the words' keys, and EQ
the equality of their keys. -/

namespace Sys2Proof.Machine

/-! ### Reading the tag, as a number (R84) -/

theorem isNaN_iff (a : Word) : isNaN a = true ↔ a.toNat % 4 = 1 := by
  rw [isNaN, beq_iff_eq, ← BitVec.toNat_inj, tag_toNat]; rfl

theorem isPInf_iff (a : Word) : isPInf a = true ↔ a.toNat % 4 = 2 := by
  rw [isPInf, beq_iff_eq, ← BitVec.toNat_inj, tag_toNat]; rfl

theorem isNInf_iff (a : Word) : isNInf a = true ↔ a.toNat % 4 = 3 := by
  rw [isNInf, beq_iff_eq, ← BitVec.toNat_inj, tag_toNat]; rfl

/-- The three tags of a word that is no NaN. -/
theorem tag_of_not_isNaN {a : Word} (h : isNaN a = false) :
    a.toNat % 4 = 0 ∨ a.toNat % 4 = 2 ∨ a.toNat % 4 = 3 := by
  rw [← Bool.not_eq_true, isNaN_iff] at h
  omega

/-! ### The words of BOOL and ORD results (R94) -/

theorem boolWord_eq (fmt : Format) (p : Bool) : boolWord fmt p = if p = true then 1 else 0 := by
  obtain ⟨w, F⟩ := fmt
  cases w <;> cases p <;> rfl

theorem word_zero (w : Width) : word w.bits 0 = 0 := by cases w <;> rfl

theorem word_one (w : Width) : word w.bits 1 = 1 := by cases w <;> rfl

theorem word_neg_one_ne (w : Width) : word w.bits (-1) ≠ 0 ∧ word w.bits (-1) ≠ 1 := by
  cases w <;> decide

/-- Settles O12: each predicate answers with the word of a Boolean, which is the tag or the top bit
as a number. -/
theorem predicatesReadTagOrTopBit : Obligations.PredicatesReadTagOrTopBit := by
  refine ⟨rfl, rfl, rfl, rfl, fun s e rest hs => ?_⟩
  simp only [exec_cons hs, responseOf, resultY, boolWord_eq, topBit_iff, isNaN_iff, isPInf_iff,
    isNInf_iff, and_self]

/-! ### Equality (R135, R136) -/

theorem equals_iff (fmt : Format) (a b : Word) : equals fmt a b = true ↔
    (isPInf a = true ∧ isPInf b = true) ∨ (isNInf a = true ∧ isNInf b = true) ∨
      (isNormal a = true ∧ isNormal b = true ∧ zext fmt.W a = zext fmt.W b) := by
  simp only [equals, Bool.or_eq_true, Bool.and_eq_true, isNaN_iff, isPInf_iff, isNInf_iff,
    isNormal_iff]
  split_ifs <;> simp only [beq_iff_eq, true_iff, false_iff] <;> omega

theorem equalsWithNaN_iff (fmt : Format) (a b : Word) : equalsWithNaN fmt a b = true ↔
    (isNaN a = true ∧ isNaN b = true) ∨ equals fmt a b = true := by
  rw [equalsWithNaN, ← Bool.and_eq_true]
  split
  · next h => exact iff_of_true rfl (.inl h)
  · next h => exact (or_iff_right h).symm

/-- Settles O13: EQ answers `equals`, and EQN differs on two NaNs only, which are not `equals`. -/
theorem equalityResults : Obligations.EqualityResults := by
  refine ⟨rfl, rfl, fun s e rest hs => ?_⟩
  have heq := equals_iff s.build.fmt e.a e.b
  have heqn := equalsWithNaN_iff s.build.fmt e.a e.b
  simp only [isNaN_iff, isPInf_iff, isNInf_iff, isNormal_iff, zext] at heq heqn
  simp only [exec_cons hs, responseOf, resultY, boolWord_eq]
  refine ⟨fun hsame => ?_, fun hnan => ?_, fun ⟨hsame, hnan⟩ => ?_⟩
  · have h : equals s.build.fmt e.a e.b = true := heq.mpr (by omega)
    rw [if_pos h, if_pos (heqn.mpr (.inr h))]
    exact ⟨rfl, rfl⟩
  · have h : ¬equals s.build.fmt e.a e.b = true := fun h => by have := heq.mp h; omega
    rw [if_neg h, if_pos (heqn.mpr (.inl hnan))]
    exact ⟨rfl, rfl⟩
  · have h : ¬equals s.build.fmt e.a e.b = true := fun h => hsame (by have := heq.mp h; omega)
    rw [if_neg h, if_neg fun hn => (heqn.mp hn).elim hnan h]
    exact ⟨rfl, rfl⟩

/-! ### The keys, in lexicographic order (R138) -/

/-- The key of R138 as a member of the linear order that `keyLt` decides. -/
def orderKey (fmt : Format) (a : Word) : ℤ ×ₗ ℤ := toLex (key fmt a)

theorem keyLt_key_iff (fmt : Format) (a b : Word) :
    keyLt (key fmt a) (key fmt b) = true ↔ orderKey fmt a < orderKey fmt b := by
  simp [keyLt, orderKey, Prod.Lex.toLex_lt_toLex]

theorem orderKey_of_normal (fmt : Format) {a : Word} (h : a.toNat % 4 = 0) :
    orderKey fmt a = toLex (0, v fmt a) := by
  simp [orderKey, key, isNInf_iff, isPInf_iff, h]

theorem orderKey_of_pInf (fmt : Format) {a : Word} (h : a.toNat % 4 = 2) :
    orderKey fmt a = toLex (1, 0) := by
  simp [orderKey, key, isNInf_iff, isPInf_iff, h]

theorem orderKey_of_nInf (fmt : Format) {a : Word} (h : a.toNat % 4 = 3) :
    orderKey fmt a = toLex (-1, 0) := by
  simp [orderKey, key, isNInf_iff, h]

/-- Two normals are equal as words exactly when their values are (R135). -/
theorem zext_eq_iff_v_eq (fmt : Format) {a b : Word} (ha : a.toNat % 4 = 0)
    (hb : b.toNat % 4 = 0) : zext fmt.W a = zext fmt.W b ↔ v fmt a = v fmt b := by
  obtain ⟨w, F⟩ := fmt
  cases w <;> simp only [zext, v, sext, Format.W, Width.bits] <;> omega

/-! ### The order of the values is that of the keys (R137, R138, R142) -/

theorem compare_of_isNaN (fmt : Format) {a b : Word} (h : isNaN a = true ∨ isNaN b = true) :
    compare fmt a b = 1 := by
  simp [compare, h]

section NoNaN

variable (fmt : Format) {a b : Word} (ha : isNaN a = false) (hb : isNaN b = false)
include ha hb

theorem compare_of_not_isNaN : compare fmt a b =
    if orderKey fmt a < orderKey fmt b then -1
    else if orderKey fmt b < orderKey fmt a then 1 else 0 := by
  simp only [compare, ha, hb, keyLt_key_iff, Bool.or_self, Bool.false_eq_true, if_false]

theorem below_iff : Below fmt a b ↔ orderKey fmt a < orderKey fmt b := by
  simp only [Below, ← Bool.not_eq_true, isNInf_iff, isPInf_iff, isNormal_iff]
  rcases tag_of_not_isNaN ha with ta | ta | ta <;>
    rcases tag_of_not_isNaN hb with tb | tb | tb <;>
    simp [ta, tb, orderKey_of_normal, orderKey_of_pInf, orderKey_of_nInf,
      Prod.Lex.toLex_lt_toLex]

theorem equals_iff_orderKey_eq : equals fmt a b = true ↔ orderKey fmt a = orderKey fmt b := by
  simp only [equals_iff, isNInf_iff, isPInf_iff, isNormal_iff]
  rcases tag_of_not_isNaN ha with ta | ta | ta <;>
    rcases tag_of_not_isNaN hb with tb | tb | tb <;>
    simp [ta, tb, orderKey_of_normal, orderKey_of_pInf, orderKey_of_nInf, zext_eq_iff_v_eq]

end NoNaN

/-- Settles O14: CMP answers `compare`, which orders the keys as `Below` orders the words. -/
theorem compareOrdersTheValues : Obligations.CompareOrdersTheValues := by
  refine ⟨rfl, fun s e rest hs => ?_⟩
  simp only [exec_cons hs, responseOf, resultY]
  refine ⟨fun h => ?_, fun ha hb h => ?_, fun ha hb h => ?_, fun ha hb h h' => ?_⟩
  · rw [compare_of_isNaN _ h, word_one]
  · rw [below_iff _ ha hb] at h
    rw [compare_of_not_isNaN _ ha hb, if_pos h]
  · rw [below_iff _ hb ha] at h
    rw [compare_of_not_isNaN _ ha hb, if_neg h.not_gt, if_pos h, word_one]
  · rw [below_iff _ ha hb] at h
    rw [below_iff _ hb ha] at h'
    rw [compare_of_not_isNaN _ ha hb, if_neg h, if_neg h', word_zero]

/-! ### The result words of EQ and CMP, on words without a NaN (R142) -/

theorem resultOf_eq_responseOf (bld : Build) (i : Instr) (a b : Word) :
    resultOf bld i a b = some (responseOf i bld a b).y := by
  rw [resultOf, execute_encode, Option.map_some]

theorem resultOf_eq_one_iff (bld : Build) (a b : Word) :
    resultOf bld .eq a b = some 1 ↔ equals bld.fmt a b = true := by
  simp only [resultOf_eq_responseOf, responseOf, resultY, boolWord_eq, Option.some_inj]
  split <;> simp [*]

/-- CMP answers `word(0)` exactly on equal keys and `word(1)` exactly on a greater first key. -/
theorem resultOf_cmp_iff (bld : Build) {a b : Word} (ha : isNaN a = false)
    (hb : isNaN b = false) :
    (resultOf bld .cmp a b = some 0 ↔ orderKey bld.fmt a = orderKey bld.fmt b) ∧
      (resultOf bld .cmp a b = some 1 ↔ orderKey bld.fmt b < orderKey bld.fmt a) := by
  obtain ⟨hne0, hne1⟩ := word_neg_one_ne bld.fmt.width
  simp only [resultOf_eq_responseOf, responseOf, resultY, Option.some_inj,
    compare_of_not_isNaN _ ha hb]
  rcases lt_trichotomy (orderKey bld.fmt a) (orderKey bld.fmt b) with h | h | h
  · rw [if_pos h]
    exact ⟨iff_of_false hne0 h.ne, iff_of_false hne1 h.not_gt⟩
  · simp [h, word_zero]
  · rw [if_neg h.not_gt, if_pos h, word_one]
    simp [h, h.ne']

theorem resultOf_cmp_ne_one_iff (bld : Build) {a b : Word} (ha : isNaN a = false)
    (hb : isNaN b = false) :
    resultOf bld .cmp a b ≠ some 1 ↔ orderKey bld.fmt a ≤ orderKey bld.fmt b := by
  rw [Ne, (resultOf_cmp_iff bld ha hb).2, not_lt]

/-- Settles O15: CMP compares the keys, which a linear order does, and EQ is equality of keys. -/
theorem compareIsATotalPreorder : Obligations.CompareIsATotalPreorder := by
  intro bld a b c ha hb hc
  dsimp only
  have hcmp := (resultOf_cmp_iff bld ha hb).1
  have heq := equals_iff_orderKey_eq bld.fmt ha hb
  refine ⟨(resultOf_cmp_iff bld ha ha).1.mpr rfl, ?_, ?_, ?_, ?_⟩
  · rw [resultOf_cmp_ne_one_iff bld ha hb, resultOf_cmp_ne_one_iff bld hb ha]
    exact le_total _ _
  · rw [resultOf_cmp_ne_one_iff bld ha hb, resultOf_cmp_ne_one_iff bld hb hc,
      resultOf_cmp_ne_one_iff bld ha hc]
    exact le_trans
  · rw [hcmp, ← heq, equals_iff]
  · rw [hcmp, ← heq, resultOf_eq_one_iff]

end Sys2Proof.Machine

/-! Negate, absolute value, add and subtract (41_addsub.md). Each operation is said once for every
kind of operand, an Infinity by its sign; the carry-based detection of R165 is the range test. -/

namespace Sys2Proof.Machine

/-! ### The kinds of word, and the sign of an Infinity (R84) -/

theorem isInf_iff (a : Word) : isInf a = true ↔ a.toNat % 4 = 2 ∨ a.toNat % 4 = 3 := by
  rw [isInf, Bool.or_eq_true, isPInf_iff, isNInf_iff]

theorem isNaN_or_isNormal_or_isInf (a : Word) :
    isNaN a = true ∨ isNormal a = true ∨ isInf a = true := by
  rw [isNaN_iff, isNormal_iff, isInf_iff]
  omega

theorem not_isNaN_of_isNormal {a : Word} (h : isNormal a = true) : isNaN a = false := by
  rw [isNormal_iff] at h
  rw [← Bool.not_eq_true, isNaN_iff]
  omega

theorem not_isInf_of_isNormal {a : Word} (h : isNormal a = true) : isInf a = false := by
  rw [isNormal_iff] at h
  rw [← Bool.not_eq_true, isInf_iff]
  omega

theorem not_isNaN_of_isInf {a : Word} (h : isInf a = true) : isNaN a = false := by
  rw [isInf_iff] at h
  rw [← Bool.not_eq_true, isNaN_iff]
  omega

/-- An Infinity has one of two signs. -/
theorem isPInf_eq_not_isNInf {a : Word} (h : isInf a = true) : isPInf a = !isNInf a := by
  rw [isInf_iff] at h
  rw [Bool.eq_iff_iff, Bool.not_eq_true', ← Bool.not_eq_true, isPInf_iff, isNInf_iff]
  omega

@[simp] theorem isInf_of_isPInf {a : Word} (h : isPInf a = true) : isInf a = true := by
  rw [isInf, h, Bool.true_or]

@[simp] theorem isInf_of_isNInf {a : Word} (h : isNInf a = true) : isInf a = true := by
  rw [isInf, h, Bool.or_true]

@[simp] theorem not_isNInf_of_isPInf {a : Word} (h : isPInf a = true) : isNInf a = false := by
  rw [isPInf_eq_not_isNInf (isInf_of_isPInf h), Bool.not_eq_true'] at h
  exact h

/-- Two Infinities have one tag exactly when they have one sign. -/
theorem tag_beq_eq_of_isInf {a b : Word} (ha : isInf a = true) (hb : isInf b = true) :
    (tag a == tag b) = (isNInf a == isNInf b) := by
  rw [isInf_iff] at ha hb
  rw [Bool.eq_iff_iff, beq_iff_eq, beq_iff_eq, ← BitVec.toNat_inj, tag_toNat, tag_toNat,
    Bool.eq_iff_iff, isNInf_iff, isNInf_iff]
  omega

/-- The words of 1, 2 and −1 are the kinds of word that NAN, PINF and NINF are named for (R83). -/
theorem kind_of_canonical (w : Width) :
    isNaN (word w.bits 1) = true ∧ isPInf (word w.bits 2) = true ∧
      isNInf (word w.bits (-1)) = true := by
  cases w <;> decide

theorem isNaN_NAN (fmt : Format) : isNaN (NAN fmt) = true :=
  have ⟨hnan, _, _⟩ := kind_of_canonical fmt.width
  hnan

theorem isInf_infOf (fmt : Format) (negative : Bool) : isInf (infOf fmt negative) = true := by
  obtain ⟨-, hpinf, hninf⟩ := kind_of_canonical fmt.width
  cases negative with
  | false => exact isInf_of_isPInf hpinf
  | true => exact isInf_of_isNInf hninf

theorem isNInf_infOf (fmt : Format) (negative : Bool) :
    isNInf (infOf fmt negative) = negative := by
  obtain ⟨-, hpinf, hninf⟩ := kind_of_canonical fmt.width
  cases negative with
  | false => exact not_isNInf_of_isPInf hpinf
  | true => exact hninf

/-! ### NEG and ABS, by the kind of the operand (R161, R162) -/

theorem vmax_eq_neg_vmin_sub_one (fmt : Format) : vmax fmt = -vmin fmt - 1 := by
  rw [vmax, vmin, neg_neg]

theorem one_le_vmax (fmt : Format) : 1 ≤ vmax fmt := by
  obtain ⟨w, F⟩ := fmt
  cases w <;> simp only [vmax, Format.W, Width.bits] <;> omega

theorem negate_of_isNaN (fmt : Format) {a : Word} (h : isNaN a = true) :
    negate fmt a = NAN fmt := by
  simp [negate, h]

theorem negate_of_isInf (fmt : Format) {a : Word} (h : isInf a = true) :
    negate fmt a = infOf fmt !isNInf a := by
  cases hs : isNInf a <;>
    simp [negate, not_isNaN_of_isInf h, isPInf_eq_not_isNInf h, hs, infOf]

theorem negate_of_isNormal (fmt : Format) {a : Word} (h : isNormal a = true) :
    negate fmt a = sat fmt (-v fmt a) := by
  have hinf := not_isInf_of_isNormal h
  rw [isInf, Bool.or_eq_false_iff] at hinf
  simp [negate, not_isNaN_of_isNormal h, hinf]

/-- `−VMIN` is out of range (R161). -/
theorem negate_of_vmin {fmt : Format} {a : Word} (h : isNormal a = true)
    (hv : v fmt a = vmin fmt) : negate fmt a = PINF fmt := by
  rw [negate_of_isNormal fmt h, hv]
  exact sat_of_vmax_lt (by rw [vmax_eq_neg_vmin_sub_one]; omega)

/-- The negated value of any other normal is in range. -/
theorem neg_v_range {fmt : Format} {a : Word} (hv : v fmt a ≠ vmin fmt) :
    vmin fmt ≤ -v fmt a ∧ -v fmt a ≤ vmax fmt := by
  have hrange := v_range fmt a
  rw [vmax_eq_neg_vmin_sub_one] at hrange ⊢
  omega

theorem negate_of_ne_vmin {fmt : Format} {a : Word} (h : isNormal a = true)
    (hv : v fmt a ≠ vmin fmt) : negate fmt a = enc fmt (-v fmt a) := by
  obtain ⟨hlo, hhi⟩ := neg_v_range hv
  rw [negate_of_isNormal fmt h, sat_of_range hlo hhi]

theorem absolute_of_isNaN (fmt : Format) {a : Word} (h : isNaN a = true) :
    absolute fmt a = NAN fmt := by
  simp [absolute, h]

theorem absolute_of_isInf (fmt : Format) {a : Word} (h : isInf a = true) :
    absolute fmt a = PINF fmt := by
  simp [absolute, not_isNaN_of_isInf h, h]

theorem absolute_of_isNormal (fmt : Format) {a : Word} (h : isNormal a = true) :
    absolute fmt a = sat fmt |v fmt a| := by
  simp [absolute, not_isNaN_of_isNormal h, not_isInf_of_isNormal h]

theorem absolute_of_vmin {fmt : Format} {a : Word} (h : isNormal a = true)
    (hv : v fmt a = vmin fmt) : absolute fmt a = PINF fmt := by
  rw [absolute_of_isNormal fmt h, hv]
  refine sat_of_vmax_lt (lt_of_lt_of_le ?_ (neg_le_abs _))
  rw [vmax_eq_neg_vmin_sub_one]
  omega

theorem absolute_of_ne_vmin {fmt : Format} {a : Word} (h : isNormal a = true)
    (hv : v fmt a ≠ vmin fmt) : absolute fmt a = enc fmt |v fmt a| := by
  obtain ⟨hlo, hhi⟩ := v_range fmt a
  obtain ⟨-, hneg⟩ := neg_v_range hv
  rw [absolute_of_isNormal fmt h,
    sat_of_range (hlo.trans (le_abs_self _)) (abs_le'.mpr ⟨hhi, hneg⟩)]

/-- Settles O16: the cells of NEG and ABS, the two Infinities by their signs. -/
theorem negateAndAbsoluteResults : Obligations.NegateAndAbsoluteResults := by
  refine ⟨rfl, rfl, fun s e rest hs => ?_⟩
  simp only [exec_cons hs, responseOf, resultY]
  refine ⟨fun h => ?_, fun h => ?_, fun h => ?_, fun h hv => ?_, fun h hv => ?_⟩
  · rw [negate_of_isNaN _ h, absolute_of_isNaN _ h]
    exact ⟨rfl, rfl⟩
  · simp [negate_of_isInf, absolute_of_isInf, infOf, h]
  · simp [negate_of_isInf, absolute_of_isInf, infOf, h]
  · rw [negate_of_vmin h hv, absolute_of_vmin h hv]
    exact ⟨rfl, rfl⟩
  · rw [negate_of_ne_vmin h hv, absolute_of_ne_vmin h hv]
    exact ⟨rfl, rfl⟩

/-! ### ADD and SUB, by the kinds of the operands (R163, R164, R166) -/

section Tables

variable (fmt : Format) {a b : Word}

theorem addition_of_isNaN (h : isNaN a = true ∨ isNaN b = true) :
    addition fmt a b = NAN fmt := by
  simp [addition, h]

theorem addition_of_isNormal (ha : isNormal a = true) (hb : isNormal b = true) :
    addition fmt a b = sat fmt (v fmt a + v fmt b) := by
  simp [addition, not_isNaN_of_isNormal, not_isInf_of_isNormal, ha, hb]

theorem addition_of_isNormal_isInf (ha : isNormal a = true) (hb : isInf b = true) :
    addition fmt a b = infOf fmt (isNInf b) := by
  simp [addition, not_isNaN_of_isNormal ha, not_isInf_of_isNormal ha, not_isNaN_of_isInf hb, hb]

theorem addition_of_isInf_isNormal (ha : isInf a = true) (hb : isNormal b = true) :
    addition fmt a b = infOf fmt (isNInf a) := by
  simp [addition, not_isNaN_of_isInf ha, ha, not_isNaN_of_isNormal hb, not_isInf_of_isNormal hb]

theorem addition_of_isInf (ha : isInf a = true) (hb : isInf b = true) :
    addition fmt a b = if isNInf a = isNInf b then infOf fmt (isNInf a) else NAN fmt := by
  simp only [addition, not_isNaN_of_isInf, ha, hb, tag_beq_eq_of_isInf, beq_iff_eq, Bool.or_self,
    Bool.and_self, Bool.false_eq_true, if_false, if_true]

theorem subtraction_of_isNaN (h : isNaN a = true ∨ isNaN b = true) :
    subtraction fmt a b = NAN fmt := by
  simp [subtraction, h]

theorem subtraction_of_isNormal (ha : isNormal a = true) (hb : isNormal b = true) :
    subtraction fmt a b = sat fmt (v fmt a - v fmt b) := by
  simp [subtraction, not_isNaN_of_isNormal, not_isInf_of_isNormal, ha, hb]

theorem subtraction_of_isNormal_isInf (ha : isNormal a = true) (hb : isInf b = true) :
    subtraction fmt a b = infOf fmt !isNInf b := by
  simp [subtraction, not_isNaN_of_isNormal ha, not_isInf_of_isNormal ha, not_isNaN_of_isInf hb, hb,
    isPInf_eq_not_isNInf hb]

theorem subtraction_of_isInf_isNormal (ha : isInf a = true) (hb : isNormal b = true) :
    subtraction fmt a b = infOf fmt (isNInf a) := by
  simp [subtraction, not_isNaN_of_isInf ha, ha, not_isNaN_of_isNormal hb, not_isInf_of_isNormal hb]

theorem subtraction_of_isInf (ha : isInf a = true) (hb : isInf b = true) :
    subtraction fmt a b = if isNInf a = isNInf b then NAN fmt else infOf fmt (isNInf a) := by
  simp only [subtraction, not_isNaN_of_isInf, ha, hb, tag_beq_eq_of_isInf, beq_iff_eq,
    Bool.or_self, Bool.and_self, Bool.false_eq_true, if_false, if_true]

end Tables

/-! ### The carry-based overflow detection (R165) -/

section Carry

variable {fmt : Format} {n x y : Int}

theorem wrapped_of_range (hlo : vmin fmt ≤ n) (hhi : n ≤ vmax fmt) : wrapped fmt n = n := by
  obtain ⟨w, F⟩ := fmt
  cases w <;> simp only [vmin, vmax, wrapped, sext, Format.W, Width.bits] at * <;> omega

/-- A sum above the range wraps to a negative number. -/
theorem wrapped_neg (hlo : vmax fmt < n) (hhi : n ≤ 2 * vmax fmt + 1) : wrapped fmt n < 0 := by
  obtain ⟨w, F⟩ := fmt
  cases w <;> simp only [vmax, wrapped, sext, Format.W, Width.bits] at * <;> omega

/-- A sum below the range wraps to a number that is not negative. -/
theorem wrapped_nonneg (hlo : 2 * vmin fmt ≤ n) (hhi : n < vmin fmt) : 0 ≤ wrapped fmt n := by
  obtain ⟨w, F⟩ := fmt
  cases w <;> simp only [vmin, wrapped, sext, Format.W, Width.bits] at * <;> omega

theorem carryOverflow_iff : carryOverflow fmt x y = true ↔
    (x < 0 ↔ y < 0) ∧ ¬(wrapped fmt (x + y) < 0 ↔ x < 0) := by
  simp [carryOverflow]

/-- The detection of R165 saturates exactly when the sum is out of range. The second addend may be
`−VMIN = VMAX + 1`, as SUB makes it. -/
theorem carrySum_eq_sat (hx : vmin fmt ≤ x) (hx' : x ≤ vmax fmt) (hy : vmin fmt ≤ y)
    (hy' : y ≤ vmax fmt + 1) : carrySum fmt x y = sat fmt (x + y) := by
  have hmax := vmax_eq_neg_vmin_sub_one fmt
  unfold carrySum
  rcases lt_or_ge (vmax fmt) (x + y) with hup | hup
  · have hwrap := wrapped_neg hup (by omega)
    have hcarry : carryOverflow fmt x y = true := carryOverflow_iff.mpr (by omega)
    have hsign : decide (x < 0) = false := decide_eq_false (by omega)
    rw [if_pos hcarry, hsign, sat_of_vmax_lt hup]
    rfl
  rcases lt_or_ge (x + y) (vmin fmt) with hdown | hdown
  · have hwrap := wrapped_nonneg (by omega) hdown
    have hcarry : carryOverflow fmt x y = true := carryOverflow_iff.mpr (by omega)
    have hsign : decide (x < 0) = true := decide_eq_true (by omega)
    rw [if_pos hcarry, hsign, sat_of_lt_vmin hdown]
    rfl
  · have hwrap := wrapped_of_range hdown hup
    have hcarry : ¬carryOverflow fmt x y = true := by rw [carryOverflow_iff, hwrap]; omega
    rw [if_neg hcarry, hwrap, sat_of_range hdown hup]

end Carry

/-- Settles O17: each cell from the lemma for its kinds of operand, and the carry form from
`carrySum_eq_sat`. -/
theorem addAndSubtractTables : Obligations.AddAndSubtractTables := by
  refine ⟨rfl, rfl, fun s e rest hs => ?_⟩
  simp only [exec_cons hs, responseOf, resultY]
  refine ⟨fun h => ?_, fun ha hb => ?_, fun ha hb => ?_, fun ha hb => ?_, fun ha hb => ?_,
    fun ha hb => ?_, fun ha hb => ?_, fun ha hb => ?_, fun ha hb => ?_, fun ha hb => ?_⟩
  · rw [addition_of_isNaN _ h, subtraction_of_isNaN _ h]
    exact ⟨rfl, rfl⟩
  · obtain ⟨halo, hahi⟩ := v_range s.build.fmt e.a
    obtain ⟨hblo, hbhi⟩ := v_range s.build.fmt e.b
    have hmax := vmax_eq_neg_vmin_sub_one s.build.fmt
    rw [addition_of_isNormal _ ha hb, subtraction_of_isNormal _ ha hb,
      carrySum_eq_sat halo hahi hblo (by omega),
      carrySum_eq_sat halo hahi (by omega) (by omega), ← sub_eq_add_neg]
    exact ⟨rfl, rfl, rfl, rfl⟩
  · simp [addition_of_isNormal_isInf, subtraction_of_isNormal_isInf, infOf, ha, hb]
  · simp [addition_of_isNormal_isInf, subtraction_of_isNormal_isInf, infOf, ha, hb]
  · simp [addition_of_isInf_isNormal, subtraction_of_isInf_isNormal, infOf, ha, hb]
  · simp [addition_of_isInf, subtraction_of_isInf, infOf, ha, hb]
  · simp [addition_of_isInf, subtraction_of_isInf, infOf, ha, hb]
  · simp [addition_of_isInf_isNormal, subtraction_of_isInf_isNormal, infOf, ha, hb]
  · simp [addition_of_isInf, subtraction_of_isInf, infOf, ha, hb]
  · simp [addition_of_isInf, subtraction_of_isInf, infOf, ha, hb]

/-! ### The identities (R167) -/

theorem addition_comm (fmt : Format) (a b : Word) : addition fmt a b = addition fmt b a := by
  by_cases hnan : isNaN a = true ∨ isNaN b = true
  · rw [addition_of_isNaN fmt hnan, addition_of_isNaN fmt hnan.symm]
  obtain ⟨hna, hnb⟩ := not_or.mp hnan
  rcases (isNaN_or_isNormal_or_isInf a).resolve_left hna with ha | ha
  all_goals rcases (isNaN_or_isNormal_or_isInf b).resolve_left hnb with hb | hb
  · rw [addition_of_isNormal fmt ha hb, addition_of_isNormal fmt hb ha, add_comm]
  · rw [addition_of_isNormal_isInf fmt ha hb, addition_of_isInf_isNormal fmt hb ha]
  · rw [addition_of_isInf_isNormal fmt ha hb, addition_of_isNormal_isInf fmt hb ha]
  · rw [addition_of_isInf fmt ha hb, addition_of_isInf fmt hb ha]
    by_cases hsign : isNInf a = isNInf b
    · rw [hsign]
    · rw [if_neg hsign, if_neg (Ne.symm hsign)]

theorem addition_vmax_one (fmt : Format) :
    addition fmt (enc fmt (vmax fmt)) (enc fmt 1) = PINF fmt := by
  have hone := one_le_vmax fmt
  have hmax := vmax_eq_neg_vmin_sub_one fmt
  rw [addition_of_isNormal fmt (isNormal_enc fmt _) (isNormal_enc fmt _),
    v_enc (vmin_le_vmax fmt) le_rfl, v_enc (by omega) hone]
  exact sat_of_vmax_lt (Int.lt_succ _)

/-- A normal other than MIN is subtracted by adding its negation. -/
theorem subtraction_eq_addition_of_isNormal {fmt : Format} (a : Word) {b : Word}
    (hb : isNormal b = true) (hv : v fmt b ≠ vmin fmt) :
    subtraction fmt a b = addition fmt a (negate fmt b) := by
  obtain ⟨hlo, hhi⟩ := neg_v_range hv
  have hnb := isNormal_enc fmt (-v fmt b)
  rw [negate_of_ne_vmin hb hv]
  rcases isNaN_or_isNormal_or_isInf a with ha | ha | ha
  · rw [subtraction_of_isNaN fmt (.inl ha), addition_of_isNaN fmt (.inl ha)]
  · rw [subtraction_of_isNormal fmt ha hb, addition_of_isNormal fmt ha hnb, v_enc hlo hhi,
      sub_eq_add_neg]
  · rw [subtraction_of_isInf_isNormal fmt ha hb, addition_of_isInf_isNormal fmt ha hnb]

/-- An Infinity is subtracted by adding its negation. -/
theorem subtraction_eq_addition_of_isInf (fmt : Format) (a : Word) {b : Word}
    (hb : isInf b = true) : subtraction fmt a b = addition fmt a (negate fmt b) := by
  have hnb := isInf_infOf fmt !isNInf b
  rw [negate_of_isInf fmt hb]
  rcases isNaN_or_isNormal_or_isInf a with ha | ha | ha
  · rw [subtraction_of_isNaN fmt (.inl ha), addition_of_isNaN fmt (.inl ha)]
  · rw [subtraction_of_isNormal_isInf fmt ha hb, addition_of_isNormal_isInf fmt ha hnb,
      isNInf_infOf]
  · rw [subtraction_of_isInf fmt ha hb, addition_of_isInf fmt ha hnb, isNInf_infOf]
    cases isNInf a <;> cases isNInf b <;> rfl

theorem subtraction_eq_addition_negate {fmt : Format} (a : Word) {b : Word}
    (h : ¬(isNormal b = true ∧ v fmt b = vmin fmt)) :
    subtraction fmt a b = addition fmt a (negate fmt b) := by
  rcases isNaN_or_isNormal_or_isInf b with hb | hb | hb
  · rw [negate_of_isNaN fmt hb, subtraction_of_isNaN fmt (.inr hb),
      addition_of_isNaN fmt (.inr (isNaN_NAN fmt))]
  · exact subtraction_eq_addition_of_isNormal a hb fun hv => h ⟨hb, hv⟩
  · exact subtraction_eq_addition_of_isInf fmt a hb

theorem negate_negate {fmt : Format} {a : Word} (h : isNormal a = true)
    (hv : v fmt a ≠ vmin fmt) (hfits : Fits fmt.W a) : negate fmt (negate fmt a) = a := by
  obtain ⟨hlo, hhi⟩ := v_range fmt a
  obtain ⟨hlo', hhi'⟩ := neg_v_range hv
  rw [negate_of_ne_vmin h hv, negate_of_isNormal fmt (isNormal_enc fmt _), v_enc hlo' hhi',
    neg_neg, sat_of_range hlo hhi, enc_v hfits h]

theorem negate_negate_of_vmin {fmt : Format} {a : Word} (h : isNormal a = true)
    (hv : v fmt a = vmin fmt) : negate fmt (negate fmt a) = NINF fmt := by
  have hpinf : PINF fmt = infOf fmt false := rfl
  rw [negate_of_vmin h hv, hpinf, negate_of_isInf fmt (isInf_infOf fmt _), isNInf_infOf]
  rfl

/-- Settles O18: the result words are `addition`, `subtraction` and `negate`, which meet the
identities. -/
theorem addSubtractNegateIdentities : Obligations.AddSubtractNegateIdentities := by
  intro bld a b nb na hnb hna
  simp only [resultOf_eq_responseOf, responseOf, resultY, Option.some_inj] at hnb hna ⊢
  subst hnb hna
  exact ⟨addition_comm _ a b, addition_vmax_one _, subtraction_eq_addition_negate a,
    negate_negate, negate_negate_of_vmin⟩

end Sys2Proof.Machine

/-! Rounding to nearest, ties to even (43_round_convert.md R221, R222): the nearest integer is
unique, and `rte` and `rne` give it. -/

namespace Sys2Proof.Machine

theorem isOdd_iff (q : Int) : isOdd q = true ↔ q % 2 = 1 := beq_iff_eq

/-- Of two neighbouring integers that are both nearest, both are an exact half away, and one is
odd. -/
theorem NearestEven.unique {r r' n d : Int} (hd : 0 < d) (h : NearestEven r n d)
    (h' : NearestEven r' n d) : r = r' := by
  wlog hlt : r < r' generalizing r r'
  · rcases (not_lt.mp hlt).eq_or_lt with heq | hgt
    · exact heq.symm
    · exact (this h' h hgt).symm
  obtain ⟨hnear, heven⟩ := h
  obtain ⟨hnear', heven'⟩ := h'
  have hle := le_abs_self (n - r * d)
  have hle' := neg_abs_le (n - r' * d)
  obtain rfl : r' = r + 1 := by
    have : (r' - r - 1) * d ≤ 0 := by linarith
    have := nonpos_of_mul_nonpos_left this hd
    omega
  have hsucc : (r + 1) * d = r * d + d := by ring
  have hr := heven (by omega)
  have hr' := heven' (by omega)
  omega

/-- `RNE(n, d)` is the integer nearest to `n / d` (R222). -/
theorem rnePos_nearestEven (n : Int) {d : Int} (hd : 0 < d) : NearestEven (rnePos n d) n d := by
  have hrem : n - n / d * d = n % d := by rw [Int.emod_def, mul_comm]
  have hlo := Int.emod_nonneg n hd.ne'
  have hhi := Int.emod_lt_of_pos n hd
  simp only [rnePos, hrem, isOdd_iff]
  split
  · next hup =>
    have hnext : n - (n / d + 1) * d = n % d - d := by rw [← hrem]; ring
    rw [NearestEven, hnext, abs_of_neg (by omega)]
    omega
  · next hdown =>
    rw [NearestEven, hrem, abs_of_nonneg hlo]
    omega

theorem two_pow_eq_double {s : Nat} (hs : s ≠ 0) : (2 : Int) ^ s = 2 * 2 ^ (s - 1) := by
  rw [← pow_succ', Nat.sub_add_cancel (Nat.pos_of_ne_zero hs)]

theorem natAbs_lt_two_pow_bitlen (x : Int) : x.natAbs < 2 ^ bitlen x.natAbs := by
  unfold bitlen
  split
  · omega
  · exact Nat.lt_log2_self

/-- R221's bound: from a count of `bitlen(|x|) + 2` on, 0 is nearest. -/
theorem nearestEven_zero_of_bitlen_le {x : Int} {s : Nat} (h : bitlen x.natAbs + 2 ≤ s) :
    NearestEven 0 x (2 ^ s) := by
  have hx : 4 * |x| < 2 ^ s := by
    have hpow : 2 ^ (bitlen x.natAbs + 2) ≤ 2 ^ s := Nat.pow_le_pow_right two_pos h
    have hlt := natAbs_lt_two_pow_bitlen x
    rw [Int.abs_eq_natAbs]
    exact_mod_cast show 4 * x.natAbs < 2 ^ s by rw [pow_add] at hpow; omega
  have habs := abs_nonneg x
  rw [NearestEven, zero_mul, sub_zero]
  omega

/-- `RTE(x, s)` is the nearest integer to `x / 2^s` that R222 defines. -/
theorem rte_eq_rnePos (x : Int) (s : Nat) : rte x s = rnePos x (2 ^ s) := by
  unfold rte
  split
  · next h =>
    have hpos : (0 : Int) < 2 ^ s := by positivity
    exact (nearestEven_zero_of_bitlen_le h).unique hpos (rnePos_nearestEven x hpos)
  split
  · next hs => simp [hs, rnePos]
  · next hs =>
    simp only [rnePos, Int.shiftRight_eq_div_pow, Nat.cast_pow, Nat.cast_ofNat,
      two_pow_eq_double hs, gt_iff_lt, mul_lt_mul_iff_right₀ (two_pos : (0 : Int) < 2),
      mul_right_inj' (two_ne_zero : (2 : Int) ≠ 0)]

theorem rte_nearestEven (x : Int) (s : Nat) : NearestEven (rte x s) x (2 ^ s) := by
  rw [rte_eq_rnePos]
  exact rnePos_nearestEven x (by positivity)

/-- `RNE(n, d)` is the integer nearest to `n / d` at every sign of the divisor (R222). -/
theorem rne_nearestEven (n : Int) {d : Int} (hd : d ≠ 0) :
    NearestEven (rne n d) (n * d.sign) |d| := by
  rcases hd.lt_or_gt with hneg | hpos
  · rw [rne, if_pos hneg, Int.sign_eq_neg_one_of_neg hneg, abs_of_neg hneg, mul_neg_one]
    exact rnePos_nearestEven (-n) (neg_pos.mpr hneg)
  · rw [rne, if_neg hpos.not_gt, Int.sign_eq_one_of_pos hpos, abs_of_pos hpos, mul_one]
    exact rnePos_nearestEven n hpos

/-! ### An exact quotient is not rounded -/

theorem rnePos_mul_cancel (q : Int) {d : Int} (hd : 0 < d) : rnePos (q * d) d = q := by
  simp [rnePos, Int.mul_ediv_cancel _ hd.ne', hd.not_gt, hd.ne]

theorem rte_mul_two_pow (q : Int) (s : Nat) : rte (q * 2 ^ s) s = q := by
  rw [rte_eq_rnePos, rnePos_mul_cancel q (by positivity)]

theorem rne_mul_cancel (q : Int) {d : Int} (hd : d ≠ 0) : rne (q * d) d = q := by
  rcases hd.lt_or_gt with hneg | hpos
  · rw [rne, if_pos hneg, ← mul_neg, rnePos_mul_cancel q (neg_pos.mpr hneg)]
  · rw [rne, if_neg hpos.not_gt, rnePos_mul_cancel q hpos]

end Sys2Proof.Machine

/-! Multiply and divide (42_muldiv.md). Each operation is said once for every kind of operand; the
sign of an Infinity result is that of R193 and R202. -/

namespace Sys2Proof.Machine

/-! ### Zero operands, and the sign of an operand (R88, R89) -/

theorem isZero_iff (fmt : Format) (a : Word) :
    isZero fmt a = true ↔ isNormal a = true ∧ v fmt a = 0 := by
  rw [isZero, Bool.and_eq_true, beq_iff_eq]

theorem neg_iff (fmt : Format) {a : Word} (h : isNaN a = false) :
    neg fmt a = true ↔ Negative fmt a := by
  simp only [neg, Negative, isNInf_iff, isPInf_iff, isNormal_iff]
  rcases tag_of_not_isNaN h with ta | ta | ta <;> simp [ta]

/-- The Infinity of the exclusive or of the signs. -/
theorem infOf_neg_bne (fmt : Format) {a b : Word} (ha : isNaN a = false) (hb : isNaN b = false) :
    infOf fmt (neg fmt a != neg fmt b) =
      if (Negative fmt a ↔ Negative fmt b) then PINF fmt else NINF fmt := by
  simp only [← neg_iff fmt ha, ← neg_iff fmt hb]
  cases neg fmt a <;> cases neg fmt b <;> rfl

/-! ### MUL, by the kinds of the operands (R191, R193) -/

section Multiply

variable (fmt : Format) {a b : Word}

theorem multiply_of_isNaN (h : isNaN a = true ∨ isNaN b = true) : multiply fmt a b = NAN fmt := by
  simp [multiply, h]

theorem multiply_of_isNormal (ha : isNormal a = true) (hb : isNormal b = true) :
    multiply fmt a b = sat fmt (rte (v fmt a * v fmt b) fmt.F) := by
  simp [multiply, not_isNaN_of_isNormal, not_isInf_of_isNormal, ha, hb]

theorem multiply_of_isInf (ha : isNaN a = false) (hb : isNaN b = false)
    (h : isInf a = true ∨ isInf b = true) :
    multiply fmt a b =
      if isZero fmt a || isZero fmt b then NAN fmt else infOf fmt (neg fmt a != neg fmt b) := by
  simp [multiply, ha, hb, h]

theorem multiply_comm : multiply fmt a b = multiply fmt b a := by
  by_cases hnan : isNaN a = true ∨ isNaN b = true
  · rw [multiply_of_isNaN fmt hnan, multiply_of_isNaN fmt hnan.symm]
  obtain ⟨hna, hnb⟩ := not_or.mp hnan
  rw [Bool.not_eq_true] at hna hnb
  by_cases hinf : isInf a = true ∨ isInf b = true
  · rw [multiply_of_isInf fmt hna hnb hinf, multiply_of_isInf fmt hnb hna hinf.symm, Bool.or_comm,
      bne_comm]
  · have ha : isNormal a = true := by have := isNaN_or_isNormal_or_isInf a; tauto
    have hb : isNormal b = true := by have := isNaN_or_isNormal_or_isInf b; tauto
    rw [multiply_of_isNormal fmt ha hb, multiply_of_isNormal fmt hb ha, mul_comm]

end Multiply

/-- Settles O19: the cells of MUL, where `rte` gives the nearest integer. -/
theorem multiplyRoundsTheExactProductOnce : Obligations.MultiplyRoundsTheExactProductOnce := by
  refine ⟨rfl, fun s e rest hs => ?_⟩
  simp only [exec_cons hs, responseOf, resultY]
  refine ⟨fun h => ?_, fun ha hb => ⟨_, rte_nearestEven _ _, ?_⟩, fun ha hb hv => ?_,
    fun ha hv hb => ?_, fun ha hb h hza hzb => ?_⟩
  · rw [multiply_of_isNaN _ h]
  · rw [multiply_of_isNormal _ ha hb]
  · have hzero := (isZero_iff s.build.fmt e.b).mpr ⟨hb, hv⟩
    rw [multiply_of_isInf _ (not_isNaN_of_isInf ha) (not_isNaN_of_isNormal hb) (.inl ha), hzero,
      Bool.or_true, if_pos rfl]
  · have hzero := (isZero_iff s.build.fmt e.a).mpr ⟨ha, hv⟩
    rw [multiply_of_isInf _ (not_isNaN_of_isNormal ha) (not_isNaN_of_isInf hb) (.inr hb), hzero,
      Bool.true_or, if_pos rfl]
  · rw [multiply_of_isInf _ ha hb h, hza, hzb, Bool.or_self, if_neg Bool.false_ne_true,
      infOf_neg_bne _ ha hb]
    exact ⟨fun hsame => by rw [if_pos hsame], fun hdiff => by rw [if_neg hdiff]⟩

/-! ### DIV, by the kinds of the operands (R200, R202, R203) -/

section Divide

variable (fmt : Format) {a b : Word}

theorem divide_of_isNaN (h : isNaN a = true ∨ isNaN b = true) : divide fmt a b = NAN fmt := by
  simp [divide, h]

theorem divide_of_isInf (ha : isInf a = true) (hb : isInf b = true) :
    divide fmt a b = NAN fmt := by
  simp [divide, ha, hb]

theorem divide_of_isInf_isNormal (ha : isInf a = true) (hb : isNormal b = true) :
    divide fmt a b = infOf fmt (neg fmt a != neg fmt b) := by
  simp [divide, not_isNaN_of_isInf ha, ha, not_isNaN_of_isNormal hb, not_isInf_of_isNormal hb]

theorem divide_of_isNormal_isInf (ha : isNormal a = true) (hb : isInf b = true) :
    divide fmt a b = ZERO fmt := by
  simp [divide, not_isNaN_of_isNormal ha, not_isInf_of_isNormal ha, not_isNaN_of_isInf hb, hb]

theorem divide_of_isZero (ha : isNormal a = true) (hb : isZero fmt b = true) :
    divide fmt a b =
      if v fmt a = 0 then NAN fmt else infOf fmt (decide (v fmt a < 0)) := by
  obtain ⟨hnormal, hv⟩ := (isZero_iff fmt b).mp hb
  simp [divide, not_isNaN_of_isNormal, not_isInf_of_isNormal, ha, hnormal, hv]

theorem divide_of_ne_zero (ha : isNormal a = true) (hb : isNormal b = true) (hv : v fmt b ≠ 0) :
    divide fmt a b = sat fmt (rne (v fmt a * 2 ^ fmt.F) (v fmt b)) := by
  simp [divide, not_isNaN_of_isNormal, not_isInf_of_isNormal, ha, hb, hv]

end Divide

/-- Settles O20: the cells of DIV, where `rne` gives the nearest integer. -/
theorem divideRoundsTheExactQuotientOnce : Obligations.DivideRoundsTheExactQuotientOnce := by
  refine ⟨rfl, fun s e rest hs => ?_⟩
  simp only [exec_cons hs, responseOf, resultY]
  refine ⟨fun h => ?_, fun ha hb hv => ⟨_, rne_nearestEven _ hv, ?_⟩, fun ha hb => ?_,
    fun ha hv hb => ?_, fun ha hv hb => ?_, fun ha hb => ?_, fun ha hb => ?_, fun ha hb => ?_⟩
  · rw [divide_of_isNaN _ h]
  · rw [divide_of_ne_zero _ ha hb hv]
  · obtain ⟨hnormal, hv⟩ := (isZero_iff s.build.fmt e.a).mp ha
    rw [divide_of_isZero _ hnormal hb, if_pos hv]
  · rw [divide_of_isZero _ ha hb, if_neg hv.ne', decide_eq_false hv.not_gt]
    rfl
  · rw [divide_of_isZero _ ha hb, if_neg hv.ne, decide_eq_true hv]
    rfl
  · rw [divide_of_isNormal_isInf _ ha hb]
  · rw [divide_of_isInf _ ha hb]
  · rw [divide_of_isInf_isNormal _ ha hb,
      infOf_neg_bne _ (not_isNaN_of_isInf ha) (not_isNaN_of_isNormal hb)]
    exact ⟨fun hsame => by rw [if_pos hsame], fun hdiff => by rw [if_neg hdiff]⟩

/-! ### The words ZERO and ONE (R92) -/

theorem isZero_ZERO (fmt : Format) : isZero fmt (ZERO fmt) = true := by
  have hmax := one_le_vmax fmt
  have hmin := vmax_eq_neg_vmin_sub_one fmt
  exact (isZero_iff fmt _).mpr ⟨isNormal_enc fmt 0, v_enc (by omega) (by omega)⟩

/-- A legal format has room for `2^F` in a value field (R11). -/
theorem one_range {fmt : Format} (h : fmt.legal = true) :
    vmin fmt ≤ 2 ^ fmt.F ∧ (2 : Int) ^ fmt.F ≤ vmax fmt := by
  have hF : fmt.F < fmt.W - 3 := by
    have hle := of_decide_eq_true h
    simp only [Format.F, Format.W]
    omega
  have hpow : (2 : Int) ^ fmt.F < 2 ^ (fmt.W - 3) := pow_lt_pow_right₀ one_lt_two hF
  have hpos : (0 : Int) < 2 ^ fmt.F := by positivity
  rw [vmin, vmax]
  omega

theorem isNormal_ONE (fmt : Format) : isNormal (ONE fmt) = true := isNormal_enc fmt _

theorem v_ONE {fmt : Format} (h : fmt.legal = true) : v fmt (ONE fmt) = 2 ^ fmt.F :=
  have ⟨hlo, hhi⟩ := one_range h
  v_enc hlo hhi

/-- A normal on its lines is the saturating encoding of its value field. -/
theorem sat_v {fmt : Format} {a : Word} (hfits : Fits fmt.W a) (ha : isNormal a = true) :
    sat fmt (v fmt a) = a := by
  obtain ⟨hlo, hhi⟩ := v_range fmt a
  rw [sat_of_range hlo hhi, enc_v hfits ha]

/-! ### The identities (R205) -/

theorem multiply_ONE {fmt : Format} {a : Word} (hlegal : fmt.legal = true)
    (ha : isNormal a = true) (hfits : Fits fmt.W a) : multiply fmt a (ONE fmt) = a := by
  rw [multiply_of_isNormal fmt ha (isNormal_ONE fmt), v_ONE hlegal, rte_mul_two_pow,
    sat_v hfits ha]

theorem divide_ONE {fmt : Format} {a : Word} (hlegal : fmt.legal = true)
    (ha : isNormal a = true) (hfits : Fits fmt.W a) : divide fmt a (ONE fmt) = a := by
  have hpow : (2 : Int) ^ fmt.F ≠ 0 := by positivity
  have hv := v_ONE hlegal
  rw [divide_of_ne_zero fmt ha (isNormal_ONE fmt) (hv ▸ hpow), hv, rne_mul_cancel _ hpow,
    sat_v hfits ha]

theorem divide_self {fmt : Format} {a : Word} (hlegal : fmt.legal = true)
    (ha : isNormal a = true) (hv : v fmt a ≠ 0) : divide fmt a a = ONE fmt := by
  obtain ⟨hlo, hhi⟩ := one_range hlegal
  rw [divide_of_ne_zero fmt ha ha hv, mul_comm, rne_mul_cancel _ hv, sat_of_range hlo hhi]
  rfl

/-- Settles O21: the result words are `multiply` and `divide`, which meet the identities. -/
theorem multiplyDivideIdentities : Obligations.MultiplyDivideIdentities := by
  intro bld a b hlegal
  have hzero := isZero_ZERO bld.fmt
  simp only [resultOf_eq_responseOf, responseOf, resultY, Option.some_inj]
  refine ⟨fun ha hv => ?_, ?_, multiply_comm _, fun ha hfits => ?_, divide_self hlegal⟩
  · rw [divide_of_isZero _ ha hzero, if_neg hv]
    simp only [infOf, decide_eq_true_eq]
  · obtain ⟨hnormal, hv⟩ := (isZero_iff bld.fmt _).mp hzero
    rw [divide_of_isZero _ hnormal hzero, if_pos hv]
  · exact ⟨multiply_ONE hlegal ha hfits, divide_ONE hlegal ha hfits⟩

end Sys2Proof.Machine

/-! The rounding relations, and the primitives that meet them (43_round_convert.md R221 to R223). -/

namespace Sys2Proof.Machine

/-! ### The rounding relations -/

theorem abs_neg_sub_neg_mul (r n d : Int) : |-n - -r * d| = |n - r * d| := by
  rw [← abs_neg]
  ring_nf

/-- Rounding to even is symmetric in the sign. -/
theorem NearestEven.neg {r n d : Int} (h : NearestEven r n d) : NearestEven (-r) (-n) d := by
  rwa [NearestEven, abs_neg_sub_neg_mul, Int.neg_emod_two]

/-- Rounding half away from zero is symmetric in the sign. -/
theorem NearestAway.neg {r n d : Int} (h : NearestAway r n d) : NearestAway (-r) (-n) d := by
  rwa [NearestAway, abs_neg_sub_neg_mul, neg_mul, abs_neg, abs_neg]

/-- Dividend and divisor can be scaled together. -/
theorem NearestEven.mul_right {r n d c : Int} (hc : 0 < c) (h : NearestEven r n d) :
    NearestEven r (n * c) (d * c) := by
  obtain ⟨hnear, heven⟩ := h
  have hscaled : 2 * |n * c - r * (d * c)| = 2 * |n - r * d| * c := by
    rw [← mul_assoc, ← sub_mul, abs_mul, abs_of_pos hc, mul_assoc]
  rw [NearestEven, hscaled]
  exact ⟨mul_le_mul_of_nonneg_right hnear hc.le, fun h => heven (mul_right_cancel₀ hc.ne' h)⟩

theorem nearestEven_of_mul_eq {r n d : Int} (hd : 0 < d) (h : r * d = n) : NearestEven r n d := by
  simp [NearestEven, h, hd.le, hd.ne]

/-- The nearest integer is less than one away. -/
theorem within_one_of_nearest {r n d : Int} (hd : 0 < d) (h : 2 * |n - r * d| ≤ d) :
    (r - 1) * d < n ∧ n < (r + 1) * d := by
  have hlo := neg_abs_le (n - r * d)
  have hhi := le_abs_self (n - r * d)
  rw [sub_one_mul, add_one_mul]
  omega

/-- The nearest integer to `n / d` lies between any two integers that `n / d` lies between. -/
theorem nearest_range {r n d lo hi : Int} (hd : 0 < d) (h : 2 * |n - r * d| ≤ d)
    (hlo : lo * d ≤ n) (hhi : n ≤ hi * d) : lo ≤ r ∧ r ≤ hi := by
  obtain ⟨hlt, hgt⟩ := within_one_of_nearest hd h
  have hr := lt_of_mul_lt_mul_right (hlo.trans_lt hgt) hd.le
  have hr' := lt_of_mul_lt_mul_right (hlt.trans_le hhi) hd.le
  omega

/-- The nearest integer is at least as near as any other, and even when another is as near. -/
theorem NearestEven.le_of_int {r n d : Int} (hd : 0 < d) (h : NearestEven r n d) (k : Int) :
    |r * d - n| ≤ |k * d - n| ∧ (|r * d - n| = |k * d - n| → r * d = k * d ∨ r % 2 = 0) := by
  obtain ⟨hnear, heven⟩ := h
  rcases eq_or_ne k r with rfl | hne
  · exact ⟨le_rfl, fun _ => .inl rfl⟩
  have hapart : d ≤ |k * d - r * d| := by
    rw [← sub_mul, abs_mul, abs_of_pos hd]
    exact le_mul_of_one_le_left hd.le (Int.one_le_abs (sub_ne_zero.mpr hne))
  have htri : |k * d - r * d| ≤ |k * d - n| + |n - r * d| := abs_sub_le _ _ _
  rw [abs_sub_comm (r * d)]
  exact ⟨by omega, fun heq => .inr (heven (by omega))⟩

/-- On a grid of step `d`, the nearest point to `n` is nearest among the points of the grid and the
numbers nearer to 0 than some point `p * d` no further out than `n`. -/
theorem NearestEven.le_of_grid {r n d p m : Int} (hd : 0 < d) (h : NearestEven r n d)
    (hp : p * d ≤ |n|) (hm : d ∣ m ∨ |m| < p * d) :
    |r * d - n| ≤ |m - n| ∧ (|r * d - n| = |m - n| → r * d = m ∨ r % 2 = 0) := by
  rcases hm with ⟨k, rfl⟩ | hm
  · rw [mul_comm d k]
    exact h.le_of_int hd k
  have hlt : |r * d - n| < |m - n| := by
    obtain ⟨hle, -⟩ := h.le_of_int hd (if 0 ≤ n then p else -p)
    refine hle.trans_lt ?_
    have hmlo := neg_abs_le m
    have hmhi := le_abs_self m
    split
    · next hn =>
      rw [abs_of_nonneg hn] at hp
      rw [abs_of_nonpos (by omega), abs_of_neg (by omega)]
      omega
    · next hn =>
      rw [abs_of_neg (not_le.mp hn)] at hp
      rw [neg_mul, abs_of_nonneg (by omega), abs_of_pos (by omega)]
      omega
  exact ⟨hlt.le, fun heq => absurd heq hlt.ne⟩

/-! ### The primitives (R221 to R223) -/

/-- `RTE` as R221 writes it, without the model's bound on the count. -/
theorem rte_eq_pseudocode (x : Int) {s : Nat} (hs : s ≠ 0) :
    rte x s =
      if x - x / 2 ^ s * 2 ^ s > 2 ^ (s - 1) ∨
          (x - x / 2 ^ s * 2 ^ s = 2 ^ (s - 1) ∧ x / 2 ^ s % 2 = 1) then
        x / 2 ^ s + 1
      else x / 2 ^ s := by
  have hdouble := two_pow_eq_double hs
  simp only [rte_eq_rnePos, rnePos, isOdd_iff]
  generalize x - x / 2 ^ s * 2 ^ s = r
  congr 1
  rw [eq_iff_iff]
  omega

theorem rte_zero (x : Int) : rte x 0 = x := by simpa using rte_mul_two_pow x 0

theorem rne_nearestEven_of_pos (n : Int) {d : Int} (hd : 0 < d) : NearestEven (rne n d) n d := by
  rw [rne, if_neg hd.not_gt]
  exact rnePos_nearestEven n hd

/-- On a power of two, `RNE` is `RTE` (R222). -/
theorem rne_two_pow (x : Int) (s : Nat) : rne x (2 ^ s) = rte x s := by
  have hpos : (0 : Int) < 2 ^ s := by positivity
  rw [rne, if_neg hpos.not_gt, rte_eq_rnePos]

/-- Adding a half and rounding down rounds a number that is not negative half away from zero. -/
theorem nearestAway_add_half_shiftRight {n : Int} (hn : 0 ≤ n) {s : Nat} (hs : s ≠ 0) :
    NearestAway ((n + 2 ^ (s - 1)) >>> s) n (2 ^ s) := by
  have hpos : (0 : Int) < 2 ^ (s - 1) := by positivity
  have hlo := Int.ediv_mul_le (n + 2 ^ (s - 1)) (show (2 : Int) ^ s ≠ 0 by positivity)
  have hhi := Int.lt_ediv_add_one_mul_self (n + 2 ^ (s - 1)) (show (0 : Int) < 2 ^ s by positivity)
  rw [add_one_mul] at hhi
  rw [Int.shiftRight_eq_div_pow, Nat.cast_pow, Nat.cast_ofNat, NearestAway]
  generalize (n + 2 ^ (s - 1)) / 2 ^ s * 2 ^ s = q at *
  have habs := le_abs_self q
  rw [two_pow_eq_double hs] at *
  rw [abs_of_nonneg hn]
  rcases abs_cases (n - q) with ⟨hdiff, -⟩ | ⟨hdiff, -⟩ <;> omega

theorem rhu_nearestAway (x : Int) (s : Nat) : NearestAway (rhu x s) x (2 ^ s) := by
  unfold rhu
  split
  · next hs => simp [hs, NearestAway]
  next hs =>
  split
  · next hx => exact nearestAway_add_half_shiftRight hx hs
  · next hx =>
    have hneg : 0 ≤ -x := neg_nonneg.mpr (not_le.mp hx).le
    simpa using (nearestAway_add_half_shiftRight hneg hs).neg

/-- Settles O22: the pseudocode of R221 without the model's bound on the count, and the nearest
integers that `rte`, `rne` and `rhu` give. -/
theorem roundingPrimitivesRoundToNearest : Obligations.RoundingPrimitivesRoundToNearest := by
  intro x s
  refine ⟨?_, rte_nearestEven x s, rne_two_pow x s, rhu_nearestAway x s,
    fun d => rne_nearestEven x⟩
  split
  · next hs => rw [hs, rte_zero]
  · next hs => exact rte_eq_pseudocode x hs

end Sys2Proof.Machine

/-! The integer part of a normal under each policy (43_round_convert.md R224), as a fixed-point
value and as an integer (R225, R230 to R237), and RSHRE (R238). -/

namespace Sys2Proof.Machine

/-! ### The integer parts (R224) -/

theorem fl_mul_le (fmt : Format) (x : Int) : fl fmt x * 2 ^ fmt.F ≤ x := by
  rw [fl, Int.shiftRight_eq_div_pow]
  exact_mod_cast Int.ediv_mul_le x (show (2 : Int) ^ fmt.F ≠ 0 by positivity)

theorem lt_fl_add_one_mul (fmt : Format) (x : Int) : x < (fl fmt x + 1) * 2 ^ fmt.F := by
  rw [fl, Int.shiftRight_eq_div_pow]
  exact_mod_cast Int.lt_ediv_add_one_mul_self x (show (0 : Int) < 2 ^ fmt.F by positivity)

/-- The ceiling is the floor of the opposite number (R224). -/
theorem ce_eq_neg_fl_neg (fmt : Format) (x : Int) : ce fmt x = -fl fmt (-x) := rfl

theorem le_ce_mul (fmt : Format) (x : Int) : x ≤ ce fmt x * 2 ^ fmt.F := by
  have h := fl_mul_le fmt (-x)
  rw [ce_eq_neg_fl_neg]
  linarith

theorem ce_sub_one_mul_lt (fmt : Format) (x : Int) : (ce fmt x - 1) * 2 ^ fmt.F < x := by
  have h := lt_fl_add_one_mul fmt (-x)
  rw [ce_eq_neg_fl_neg]
  linarith

theorem re_nearestEven (fmt : Format) (x : Int) : NearestEven (re fmt x) x (2 ^ fmt.F) :=
  rte_nearestEven x fmt.F

theorem rh_nearestAway (fmt : Format) (x : Int) : NearestAway (rh fmt x) x (2 ^ fmt.F) :=
  rhu_nearestAway x fmt.F

/-! ### The tests of a tag, on an operand that is no NaN (R84) -/

theorem tags_of_isNormal {a : Word} (h : isNormal a = true) :
    isNaN a = false ∧ isPInf a = false ∧ isNInf a = false := by
  have hinf := not_isInf_of_isNormal h
  rw [isInf, Bool.or_eq_false_iff] at hinf
  exact ⟨not_isNaN_of_isNormal h, hinf⟩

theorem tags_of_isPInf {a : Word} (h : isPInf a = true) :
    isNaN a = false ∧ isPInf a = true ∧ isNInf a = false :=
  ⟨not_isNaN_of_isInf (isInf_of_isPInf h), h, not_isNInf_of_isPInf h⟩

theorem tags_of_isNInf {a : Word} (h : isNInf a = true) :
    isNaN a = false ∧ isPInf a = false ∧ isNInf a = true := by
  have hinf := isInf_of_isNInf h
  exact ⟨not_isNaN_of_isInf hinf, by rw [isPInf_eq_not_isNInf hinf, h, Bool.not_true], h⟩

/-! ### Rounding to a fixed-point value, by the kind of the operand (R225) -/

section RoundFix

variable (fmt : Format) (part : Int → Int) {a : Word}

theorem roundFix_of_isNormal (h : isNormal a = true) :
    roundFix fmt part a = sat fmt (part (v fmt a) * 2 ^ fmt.F) := by
  simp [roundFix, tags_of_isNormal h]

theorem roundFix_specials :
    (isNaN a = true → roundFix fmt part a = NAN fmt) ∧
    (isPInf a = true → roundFix fmt part a = PINF fmt) ∧
    (isNInf a = true → roundFix fmt part a = NINF fmt) := by
  refine ⟨fun h => ?_, fun h => ?_, fun h => ?_⟩
  · simp [roundFix, h]
  · simp [roundFix, tags_of_isPInf h]
  · simp [roundFix, tags_of_isNInf h]

end RoundFix

/-- Settles O23: the specials of `roundFix` whatever the policy, and the bounds of each policy's
integer part. -/
theorem roundingToFixedPoint : Obligations.RoundingToFixedPoint := by
  refine ⟨rfl, rfl, rfl, rfl, fun s e rest hs => ?_⟩
  simp only [exec_cons hs]
  refine ⟨fun i hi => ?_, fun h => ?_⟩
  · obtain ⟨part, hpart⟩ : ∃ part,
        responseOf i s.build e.a e.b = resultY (roundFix s.build.fmt part e.a) := by
      fin_cases hi <;> exact ⟨_, rfl⟩
    obtain ⟨hnan, hpinf, hninf⟩ := roundFix_specials s.build.fmt part (a := e.a)
    rw [hpart]
    exact ⟨fun h => by rw [hnan h]; rfl, fun h => by rw [hpinf h]; rfl,
      fun h => by rw [hninf h]; rfl⟩
  · simp only [responseOf, resultY, roundFix_of_isNormal _ _ h]
    exact ⟨⟨_, fl_mul_le _ _, lt_fl_add_one_mul _ _, rfl⟩,
      ⟨_, ce_sub_one_mul_lt _ _, le_ce_mul _ _, rfl⟩,
      ⟨_, re_nearestEven _ _, rfl⟩, ⟨_, rh_nearestAway _ _, rfl⟩⟩

/-! ### Rounding to an integer, by the kind of the operand (R225) -/

section RoundInt

variable (fmt : Format) (part : Int → Int) {a : Word}

theorem roundInt_of_isNormal (h : isNormal a = true) :
    roundInt fmt part a = word fmt.W (part (v fmt a)) := by
  simp [roundInt, tags_of_isNormal h, intWord]

theorem roundInt_specials :
    (isNaN a = true → roundInt fmt part a = word fmt.W (intMax fmt.W)) ∧
    (isPInf a = true → roundInt fmt part a = word fmt.W (intMax fmt.W)) ∧
    (isNInf a = true → roundInt fmt part a = word fmt.W (intMin fmt.W)) := by
  refine ⟨fun h => ?_, fun h => ?_, fun h => ?_⟩
  · simp [roundInt, h, intWord]
  · simp [roundInt, tags_of_isPInf h, intWord]
  · simp [roundInt, tags_of_isNInf h, intWord]

end RoundInt

/-! ### No normal gives a sentinel (R234, R383) -/

/-- An integer less than one away from `n / d` is at most one outside the range of `n`. -/
theorem quotient_range {k n d M : Int} (hd : 0 < d) (hlo : (k - 1) * d < n)
    (hhi : n < (k + 1) * d) (hn : -M ≤ n) (hn' : n < M) : -M ≤ k ∧ k ≤ M := by
  have hone : 1 ≤ d := hd
  have hM : 0 ≤ M := by omega
  have hupper := hlo.trans (hn'.trans_le (le_mul_of_one_le_right hM hone))
  have hlower := (mul_le_of_one_le_right (neg_nonpos.mpr hM) hone).trans_lt (hn.trans_lt hhi)
  have hk := lt_of_mul_lt_mul_right hupper hd.le
  have hk' := lt_of_mul_lt_mul_right hlower hd.le
  omega

/-- A number in the range of a value field, or one above it, is no sentinel. -/
theorem word_ne_sentinel (w : Width) {k : Int} (hlo : -2 ^ (w.bits - 3) ≤ k)
    (hhi : k ≤ 2 ^ (w.bits - 3)) :
    word w.bits k ≠ word w.bits (intMax w.bits) ∧ word w.bits k ≠ word w.bits (intMin w.bits) := by
  simp only [Ne, ← BitVec.toNat_inj, word_toNat]
  cases w <;> simp only [intMax, intMin, Width.bits] at * <;> omega

/-- An integer less than one away from a normal's value is no sentinel. -/
theorem part_ne_sentinel {fmt : Format} {a : Word} {k : Int} (hlo : (k - 1) * 2 ^ fmt.F < v fmt a)
    (hhi : v fmt a < (k + 1) * 2 ^ fmt.F) :
    word fmt.W k ≠ word fmt.W (intMax fmt.W) ∧ word fmt.W k ≠ word fmt.W (intMin fmt.W) := by
  obtain ⟨hmin, hmax⟩ := v_range fmt a
  obtain ⟨hk, hk'⟩ := quotient_range (by positivity) hlo hhi hmin (Int.lt_of_le_sub_one hmax)
  exact word_ne_sentinel fmt.width hk hk'

/-- Settles O24: the specials of `roundInt` whatever the policy, and each policy's integer part less
than one away from the value. -/
theorem roundingToInteger : Obligations.RoundingToInteger := by
  refine ⟨rfl, rfl, rfl, rfl, fun s e rest hs => ?_⟩
  simp only [exec_cons hs]
  refine ⟨fun i hi => ?_, fun h => ?_⟩
  · obtain ⟨part, hpart⟩ : ∃ part,
        responseOf i s.build e.a e.b = resultY (roundInt s.build.fmt part e.a) := by
      fin_cases hi <;> exact ⟨_, rfl⟩
    obtain ⟨hnan, hpinf, hninf⟩ := roundInt_specials s.build.fmt part (a := e.a)
    rw [hpart]
    exact ⟨fun h => by rw [hnan h]; rfl, fun h => by rw [hpinf h]; rfl,
      fun h => by rw [hninf h]; rfl⟩
  · simp only [responseOf, resultY, roundInt_of_isNormal _ _ h]
    generalize s.build.fmt = fmt
    have hone : (0 : Int) < 2 ^ fmt.F := by positivity
    have hfl := fl_mul_le fmt (v fmt e.a)
    have hfl' := lt_fl_add_one_mul fmt (v fmt e.a)
    have hce := ce_sub_one_mul_lt fmt (v fmt e.a)
    have hce' := le_ce_mul fmt (v fmt e.a)
    have hre := re_nearestEven fmt (v fmt e.a)
    have hrh := rh_nearestAway fmt (v fmt e.a)
    obtain ⟨hrelo, hrehi⟩ := within_one_of_nearest hone hre.1
    obtain ⟨hrhlo, hrhhi⟩ := within_one_of_nearest hone hrh.1
    exact ⟨⟨_, hfl, hfl', part_ne_sentinel (by linarith) hfl', rfl⟩,
      ⟨_, hce, hce', part_ne_sentinel hce (by linarith), rfl⟩,
      ⟨_, hre, part_ne_sentinel hrelo hrehi, rfl⟩, ⟨_, hrh, part_ne_sentinel hrhlo hrhhi, rfl⟩⟩

/-! ### RSHRE (R238) -/

/-- The signed number on a port of `W` lines is in the range of INT (R93). -/
theorem signed_range (w : Width) (a : Word) :
    intMin w.bits ≤ signed w.bits a ∧ signed w.bits a ≤ intMax w.bits := by
  have hW : 0 < w.bits := by have := Width.le_bits w; omega
  obtain ⟨hlo, hhi⟩ := sext_range hW a.toNat
  exact ⟨hlo, Int.le_sub_one_of_lt hhi⟩

/-- A word put together by `fields`, by its number (R100). -/
theorem fields_eq_ofNat (op imm : BitVec 6) (sign : Bool) :
    fields op imm sign = BitVec.ofNat 16 (op.toNat + 64 * imm.toNat + 4096 * sign.toNat) := by
  rw [← Laws.EncodedFields.fields_toNat, BitVec.ofNat_toNat, BitVec.setWidth_eq]

theorem responseOf_rshre {bld : Build} {c : BitVec 6} (h : c.toNat ≤ bld.fmt.width.maxShift)
    (a b : Word) :
    responseOf (.rshre c) bld a b =
      resultY (intWord bld.fmt (rte (signed bld.fmt.W a) c.toNat)) :=
  if_pos h

/-- Settles O25: `rte` of the signed word, which stays in its range. -/
theorem shiftRoundsARawInteger : Obligations.ShiftRoundsARawInteger := by
  refine ⟨fun c => fields_eq_ofNat _ c false, fun s e rest c hs => ?_⟩
  simp only [exec_cons hs]
  refine ⟨fun h => ?_, fun h => ?_⟩
  · have hle : c.toNat ≤ s.build.fmt.width.maxShift := h
    have hnear := rte_nearestEven (signed s.build.fmt.W e.a) c.toNat
    have hone : (1 : Int) ≤ 2 ^ c.toNat := one_le_pow₀ one_le_two
    have hmin : intMin s.build.fmt.W ≤ 0 := by rw [intMin, Left.neg_nonpos_iff]; positivity
    have hmax : 0 ≤ intMax s.build.fmt.W := Int.sub_nonneg_of_le (one_le_pow₀ one_le_two)
    obtain ⟨hlo, hhi⟩ := signed_range s.build.fmt.width e.a
    obtain ⟨hrlo, hrhi⟩ := nearest_range (by positivity) hnear.1
      ((mul_le_of_one_le_right hmin hone).trans hlo) (hhi.trans (le_mul_of_one_le_right hmax hone))
    exact ⟨_, hnear, hrlo, Int.lt_of_le_sub_one hrhi, by rw [responseOf_rshre hle]; rfl⟩
  · have hill : WellFormed s.build.fmt.width (.rshre c) = false := decide_eq_false h.not_ge
    rw [responseOf_of_not_wellFormed hill]
    rfl

end Sys2Proof.Machine

/-! Literals and constants (43_round_convert.md R250, R255 to R258). -/

namespace Sys2Proof.Machine

/-! ### The wrap (R250, R258) -/

/-- The low bits of a number, read as signed, are the wrap of the number. -/
theorem sext_wrapsTo (fmt : Format) (x : Int) : WrapsTo fmt x (sext (fmt.W - 2) x) := by
  have hW : 0 < fmt.W - 2 := by have := Width.le_bits fmt.width; simp only [Format.W]; omega
  obtain ⟨hlo, hhi⟩ := sext_range hW x
  exact ⟨hlo, Int.le_sub_one_of_lt hhi,
    Int.emod_eq_emod_iff_emod_sub_eq_zero.mp (sext_emod _ x).symm⟩

/-! ### LIT (R250) -/

theorem responseOf_lit {bld : Build} {n : BitVec 6} (h : n.toNat ≤ bld.fmt.width.nmax)
    (sign : Bool) (a b : Word) :
    responseOf (.lit sign n) bld a b = resultY (literal bld.fmt sign n.toNat a b) :=
  if_pos h

/-- Settles O29: `literal` encodes the wrap of the signed sum whose fraction `rne` gives. -/
theorem literalRoundsAndWraps : Obligations.LiteralRoundsAndWraps := by
  refine ⟨fun sign n => fields_eq_ofNat _ n sign, fun s e rest sign n hs => ?_⟩
  simp only [exec_cons hs]
  refine ⟨fun h => ?_, fun h => ?_⟩
  · have hle : n.toNat ≤ s.build.fmt.width.nmax := h
    rw [responseOf_lit hle]
    exact ⟨_, _, rne_nearestEven_of_pos _ (by positivity), sext_wrapsTo _ _, rfl⟩
  · have hill : WellFormed s.build.fmt.width (.lit sign n) = false := decide_eq_false h.not_ge
    rw [responseOf_of_not_wellFormed hill]
    rfl

/-! ### CONST (R255 to R258) -/

/-- Settles O30: the rows of `constant`, the three masters rounded by `rte` and wrapped. -/
theorem constantTable : Obligations.ConstantTable := by
  refine ⟨fun sel => fields_eq_ofNat _ sel false, fun s e rest hs => ?_⟩
  simp only [exec_cons hs]
  have hrounded (m : Int) := rte_nearestEven m (128 - s.build.fmt.F)
  refine ⟨rfl, rfl, rfl, rfl, rfl, rfl, ⟨_, _, hrounded _, sext_wrapsTo _ _, rfl⟩,
    ⟨_, _, hrounded _, sext_wrapsTo _ _, rfl⟩, ⟨_, _, hrounded _, sext_wrapsTo _ _, rfl⟩,
    rfl, rfl, rfl, fun sel h => ?_⟩
  have hill : WellFormed s.build.fmt.width (.const sel) = false := decide_eq_false h.not_ge
  rw [responseOf_of_not_wellFormed hill]
  rfl

end Sys2Proof.Machine

/-! FROMDBL (43_round_convert.md R242). -/

namespace Sys2Proof.Machine

/-- Dividend and divisor less their common power of two: the quotient that `fromDouble` rounds. -/
theorem rne_two_pow_nearestEven (m : Int) (k K : Nat) :
    NearestEven (rne (m * 2 ^ (k - K)) (2 ^ (K - k))) (m * 2 ^ k) (2 ^ K) := by
  have hdividend : m * 2 ^ k = m * 2 ^ (k - K) * 2 ^ min k K := by
    rw [mul_assoc, ← pow_add, Nat.sub_add_min_cancel]
  have hdivisor : (2 : Int) ^ K = 2 ^ (K - k) * 2 ^ min k K := by
    rw [← pow_add, min_comm, Nat.sub_add_min_cancel]
  rw [hdividend, hdivisor]
  exact (rne_nearestEven_of_pos _ (by positivity)).mul_right (by positivity)

/-- The pattern on the operand ports of a 32-bit unit, as a number (R62). -/
theorem dblOperand_toNat {fmt : Format} (h : fmt.width = .w32) (a b : Word) :
    (dblOperand fmt a b).toNat = a.toNat % 2 ^ 32 + 2 ^ 32 * (b.toNat % 2 ^ 32) := by
  have hlt : a.toNat % 2 ^ 32 < 2 ^ 32 := Nat.mod_lt _ (by norm_num)
  simp only [dblOperand, h, BitVec.toNat_append, BitVec.extractLsb'_toNat, Nat.shiftRight_zero]
  rw [← Nat.shiftLeft_add_eq_or_of_lt hlt, Nat.shiftLeft_eq]
  ring

/-! ### By the kind of the pattern (R95, R242) -/

section FromDouble

variable (fmt : Format) {d : BitVec 64}

theorem fromDouble_of_nan (he : dblExp d = 2047) (hf : dblFrac d ≠ 0) :
    fromDouble fmt d = NAN fmt := by
  simp [fromDouble, he, hf]

theorem fromDouble_of_inf (he : dblExp d = 2047) (hf : dblFrac d = 0) :
    fromDouble fmt d = infOf fmt (dblSign d) := by
  simp [fromDouble, he, hf]

theorem dblScaled_eq (d : BitVec 64) : dblScaled d =
    (if dblSign d then -((dblParts d).1 : Int) else (dblParts d).1) * 2 ^ (dblParts d).2 := by
  simp only [dblScaled]
  split <;> ring

/-- The pattern's exact value is rounded once (R242). -/
theorem fromDouble_of_finite (he : dblExp d ≠ 2047) :
    ∃ r, NearestEven r (dblScaled d * 2 ^ fmt.F) (2 ^ 1075) ∧ fromDouble fmt d = sat fmt r := by
  simp only [fromDouble, if_neg he]
  refine ⟨_, ?_, rfl⟩
  rw [dblScaled_eq, mul_assoc, ← pow_add]
  exact rne_two_pow_nearestEven _ _ _

end FromDouble

/-- Settles O27: the pattern on the ports, and `fromDouble` of each kind of pattern. -/
theorem fromDoubleRoundsOnce : Obligations.FromDoubleRoundsOnce := by
  refine ⟨rfl, fun s e rest d hs h64 h32 => ?_⟩
  have hd : dblOperand s.build.fmt e.a e.b = d := by
    by_cases hw : s.build.fmt.width = .w32
    · exact BitVec.eq_of_toNat_eq ((dblOperand_toNat hw _ _).trans (h32 hw).symm)
    · rw [dblOperand_of_ne_w32 hw]
      cases hw' : s.build.fmt.width with
      | w32 => exact absurd hw' hw
      | w64 => exact (h64 hw').symm
  simp only [exec_cons hs, responseOf, resultY, hd]
  refine ⟨fun he hf => ?_, fun he hf hsign => ?_, fun he hf hsign => ?_, fun he => ?_⟩
  · rw [fromDouble_of_nan _ he hf]
  · rw [fromDouble_of_inf _ he hf, hsign]
    rfl
  · rw [fromDouble_of_inf _ he hf, hsign]
    rfl
  · obtain ⟨r, hr, hy⟩ := fromDouble_of_finite s.build.fmt he
    exact ⟨r, hr, by rw [hy]⟩

end Sys2Proof.Machine

/-! TODBL (43_round_convert.md R240, R241). -/

namespace Sys2Proof.Machine

/-! ### The fields of a binary64 pattern, as numbers (R95) -/

theorem dblExp_eq (d : BitVec 64) : dblExp d = d.toNat / 2 ^ 52 % 2 ^ 11 := by
  simp [dblExp, Nat.shiftRight_eq_div_pow]

theorem dblFrac_eq (d : BitVec 64) : dblFrac d = d.toNat % 2 ^ 52 := by
  simp [dblFrac]

theorem dblSign_iff (d : BitVec 64) : dblSign d = true ↔ d.toNat / 2 ^ 63 % 2 = 1 := by
  simp [dblSign, BitVec.getLsbD, Nat.testBit_eq_decide_div_mod_eq]

section Pack

variable (sign : Bool) {exponent fraction : Nat}

theorem dblPack_toNat (he : exponent < 2 ^ 11) (hf : fraction < 2 ^ 52) :
    (dblPack sign exponent fraction).toNat =
      sign.toNat * 2 ^ 63 + (exponent * 2 ^ 52 + fraction) := by
  have hlow : exponent * 2 ^ 52 + fraction < 2 ^ (11 + 52) := by omega
  simp only [dblPack, BitVec.toNat_append, BitVec.toNat_ofBool, BitVec.toNat_ofNat,
    Nat.mod_eq_of_lt he, Nat.mod_eq_of_lt hf]
  rw [← Nat.shiftLeft_add_eq_or_of_lt hf, Nat.shiftLeft_eq exponent,
    ← Nat.shiftLeft_add_eq_or_of_lt hlow, Nat.shiftLeft_eq]

theorem dblExp_dblPack (he : exponent < 2 ^ 11) (hf : fraction < 2 ^ 52) :
    dblExp (dblPack sign exponent fraction) = exponent := by
  rw [dblExp_eq, dblPack_toNat sign he hf]
  omega

theorem dblFrac_dblPack (he : exponent < 2 ^ 11) (hf : fraction < 2 ^ 52) :
    dblFrac (dblPack sign exponent fraction) = fraction := by
  rw [dblFrac_eq, dblPack_toNat sign he hf]
  omega

theorem dblSign_dblPack (he : exponent < 2 ^ 11) (hf : fraction < 2 ^ 52) :
    dblSign (dblPack sign exponent fraction) = sign := by
  rw [Bool.eq_iff_iff, dblSign_iff, dblPack_toNat sign he hf]
  cases sign <;> simp <;> omega

/-- The value of a normal pattern, times `2^1075`. -/
theorem dblScaled_dblPack (hpos : exponent ≠ 0) (he : exponent < 2 ^ 11) (hf : fraction < 2 ^ 52) :
    dblScaled (dblPack sign exponent fraction) =
      (if sign then -(2 ^ 52 + fraction : Nat) else (2 ^ 52 + fraction : Nat) : Int) *
        2 ^ exponent := by
  rw [dblScaled_eq, dblParts, dblExp_dblPack sign he hf, dblFrac_dblPack sign he hf,
    dblSign_dblPack sign he hf, if_neg hpos]

end Pack

/-! ### The significand of a magnitude -/

/-- The significand that `dblOfMagnitude` rounds a magnitude to, before a carry into the
exponent. -/
def significand (n : Nat) : Nat :=
  if n.log2 ≤ 52 then n * 2 ^ (52 - n.log2) else (rte n (n.log2 - 52)).toNat

theorem dblOfMagnitude_eq (fmt : Format) (sign : Bool) (n : Nat) :
    dblOfMagnitude fmt sign n =
      if significand n = 2 ^ 53 then dblPack sign (n.log2 + 1 + 1023 - fmt.F) 0
      else dblPack sign (n.log2 + 1023 - fmt.F) (significand n - 2 ^ 52) := by
  by_cases h : significand n = 2 ^ 53
  · rw [if_pos h]
    unfold significand at h
    simp only [dblOfMagnitude, h, if_true]
  · rw [if_neg h]
    unfold significand at h ⊢
    simp only [dblOfMagnitude, h, if_false]

theorem significand_nearestEven (n : Nat) :
    NearestEven (significand n) (n * 2 ^ 52) (2 ^ n.log2) := by
  unfold significand
  split
  · next he =>
    refine nearestEven_of_mul_eq (by positivity) ?_
    rw [Nat.cast_mul, Nat.cast_pow, Nat.cast_ofNat, mul_assoc, ← pow_add, Nat.sub_add_cancel he]
  · next he =>
    have hnear := rte_nearestEven n (n.log2 - 52)
    obtain ⟨hnonneg, -⟩ := nearest_range (lo := 0) (hi := n) (by positivity) hnear.1
      (by simp) (le_mul_of_one_le_right (by positivity) (one_le_pow₀ one_le_two))
    have hexp : (2 : Int) ^ n.log2 = 2 ^ (n.log2 - 52) * 2 ^ 52 := by
      rw [← pow_add, Nat.sub_add_cancel (not_le.mp he).le]
    rw [Int.toNat_of_nonneg hnonneg, hexp]
    exact hnear.mul_right (by positivity)

theorem significand_range {n : Nat} (hn : n ≠ 0) :
    2 ^ 52 ≤ significand n ∧ significand n ≤ 2 ^ 53 := by
  have hlo : (2 : Int) ^ n.log2 ≤ n := mod_cast Nat.log2_self_le hn
  have hhi : (n : Int) < 2 ^ (n.log2 + 1) := mod_cast Nat.lt_log2_self
  have h := nearest_range (lo := 2 ^ 52) (hi := 2 ^ 53) (by positivity)
    (significand_nearestEven n).1 (by omega) (by rw [pow_succ] at hhi; omega)
  exact_mod_cast h

/-- The pattern of a magnitude: its value is the significand on the grid of the magnitude's binade,
and its fraction has the significand's parity, whether or not the significand carries. -/
theorem dblOfMagnitude_value {fmt : Format} (sign : Bool) {n : Nat} (hn : n ≠ 0)
    (hlo : fmt.F < n.log2 + 1023) (hhi : n.log2 < 1023) :
    dblExp (dblOfMagnitude fmt sign n) ≠ 2047 ∧
    dblScaled (dblOfMagnitude fmt sign n) =
      (if sign then -(significand n : Int) else significand n) *
        2 ^ (n.log2 + 1023 - fmt.F) ∧
    dblFrac (dblOfMagnitude fmt sign n) % 2 = significand n % 2 := by
  obtain ⟨hmin, hmax⟩ := significand_range hn
  rw [dblOfMagnitude_eq]
  split
  · next hcarry =>
    have he : n.log2 + 1 + 1023 - fmt.F < 2 ^ 11 := by omega
    have hf : 0 < 2 ^ 52 := by positivity
    have hsucc : n.log2 + 1 + 1023 - fmt.F = n.log2 + 1023 - fmt.F + 1 := by omega
    rw [dblExp_dblPack sign he hf, dblFrac_dblPack sign he hf,
      dblScaled_dblPack sign (by omega) he hf, hcarry, hsucc, pow_succ]
    refine ⟨by omega, ?_, rfl⟩
    split <;> push_cast <;> ring
  · next hcarry =>
    have he : n.log2 + 1023 - fmt.F < 2 ^ 11 := by omega
    have hf : significand n - 2 ^ 52 < 2 ^ 52 := by omega
    rw [dblExp_dblPack sign he hf, dblFrac_dblPack sign he hf,
      dblScaled_dblPack sign (by omega) he hf, Nat.add_sub_cancel' hmin]
    exact ⟨by omega, rfl, by omega⟩

/-! ### Nearest among the patterns -/

/-- How far a pattern's value is from `x / 2^F`, times `2^(F + 1075)`. -/
abbrev dblError (F : Nat) (x : Int) (d : BitVec 64) : Int := |dblScaled d * 2 ^ F - x * 2 ^ 1075|

theorem abs_dblScaled (d : BitVec 64) :
    |dblScaled d| = ((dblParts d).1 * 2 ^ (dblParts d).2 : Nat) := by
  rw [dblScaled]
  split <;> simp

theorem dblParts_lt (d : BitVec 64) : (dblParts d).1 < 2 ^ 53 := by
  have hfrac : dblFrac d < 2 ^ 52 := by rw [dblFrac_eq]; omega
  unfold dblParts
  split <;> dsimp only <;> omega

/-- A pattern's value is on the grid of the binade with exponent `E`, or below that binade. -/
theorem dblScaled_grid (d : BitVec 64) (E : Nat) :
    2 ^ E ∣ dblScaled d ∨ |dblScaled d| < 2 ^ 52 * 2 ^ E := by
  rcases le_or_gt E (dblParts d).2 with hle | hlt
  · left
    rw [dblScaled_eq]
    exact Dvd.dvd.mul_left (pow_dvd_pow 2 hle) _
  · right
    have h : (dblParts d).1 * 2 ^ (dblParts d).2 < 2 ^ 52 * 2 ^ E :=
      calc (dblParts d).1 * 2 ^ (dblParts d).2
        _ < 2 ^ 53 * 2 ^ (dblParts d).2 :=
          Nat.mul_lt_mul_of_pos_right (dblParts_lt d) (by positivity)
        _ = 2 ^ 52 * 2 ^ ((dblParts d).2 + 1) := by ring
        _ ≤ 2 ^ 52 * 2 ^ E := Nat.mul_le_mul_left _ (Nat.pow_le_pow_right two_pos hlt)
    rw [abs_dblScaled]
    exact_mod_cast h

/-- A pattern with a value's significand in the value's binade, rounded to even, is as near to the
value as every other pattern. -/
theorem dblScaled_nearest {R x : Int} {e E F : Nat} {d : BitVec 64}
    (hR : NearestEven R (x * 2 ^ 52) (2 ^ e)) (hx : 2 ^ e ≤ |x|) (hE : e + 1023 = E + F)
    (hd : dblScaled d = R * 2 ^ E) (d' : BitVec 64) :
    dblError F x d ≤ dblError F x d' ∧
      (dblError F x d = dblError F x d' → dblScaled d = dblScaled d' ∨ R % 2 = 0) := by
  have hF : (0 : Int) < 2 ^ F := by positivity
  have hstep : (2 : Int) ^ e * 2 ^ 1023 = 2 ^ E * 2 ^ F := by rw [← pow_add, ← pow_add, hE]
  have hvalue : x * 2 ^ 52 * 2 ^ 1023 = x * 2 ^ 1075 := by rw [mul_assoc, ← pow_add]
  have hnear := hR.mul_right (c := 2 ^ 1023) (by positivity)
  rw [hstep, hvalue] at hnear
  have hbinade : 2 ^ 52 * (2 ^ E * 2 ^ F) ≤ |x * 2 ^ 1075| := by
    rw [← hvalue, ← hstep, abs_mul, abs_mul, abs_pow, abs_pow, abs_two, ← mul_assoc,
      mul_comm (2 ^ 52)]
    gcongr
  have hgrid : 2 ^ E * 2 ^ F ∣ dblScaled d' * 2 ^ F ∨
      |dblScaled d' * 2 ^ F| < 2 ^ 52 * (2 ^ E * 2 ^ F) := by
    rw [abs_mul, abs_of_pos hF, ← mul_assoc]
    exact (dblScaled_grid d' E).imp (mul_dvd_mul_right · _) (mul_lt_mul_of_pos_right · hF)
  rw [dblError, hd, mul_assoc]
  obtain ⟨hle, heq⟩ := hnear.le_of_grid (by positivity) hbinade hgrid
  refine ⟨hle, fun h => (heq h).imp_left fun h => mul_right_cancel₀ hF.ne' ?_⟩
  rw [mul_assoc, h]

/-! ### TODBL, by the kind of the operand (R240) -/

section ToDouble

variable {fmt : Format} {a : Word}

theorem toDouble_specials (fmt : Format) (a : Word) :
    (isNaN a = true → toDouble fmt a = 0x7FF8000000000000#64) ∧
    (isPInf a = true → toDouble fmt a = 0x7FF0000000000000#64) ∧
    (isNInf a = true → toDouble fmt a = 0xFFF0000000000000#64) := by
  refine ⟨fun h => ?_, fun h => ?_, fun h => ?_⟩
  · simp [toDouble, h]
  · simp [toDouble, tags_of_isPInf h]
  · simp [toDouble, tags_of_isNInf h]

theorem toDouble_of_isNormal (h : isNormal a = true) :
    toDouble fmt a = if v fmt a = 0 then 0#64
      else dblOfMagnitude fmt (decide (v fmt a < 0)) (v fmt a).natAbs := by
  simp [toDouble, tags_of_isNormal h]

/-- Every magnitude of a value field is below `2^63` (R85). -/
theorem log2_natAbs_v_lt (fmt : Format) (a : Word) : (v fmt a).natAbs.log2 < 63 := by
  obtain ⟨hlo, hhi⟩ := v_range fmt a
  have hlt : (v fmt a).natAbs < 2 ^ 63 := by
    obtain ⟨w, F⟩ := fmt
    cases w <;> simp only [vmin, vmax, Format.W, Width.bits] at hlo hhi <;> omega
  rcases eq_or_ne (v fmt a).natAbs 0 with h | h
  · simp [h]
  · exact (Nat.log2_lt h).mpr hlt

/-- The significand with the number's sign is the nearest to the number, in its binade. -/
theorem signed_significand_nearestEven (x : Int) :
    NearestEven (if x < 0 then -(significand x.natAbs : Int) else significand x.natAbs)
      (x * 2 ^ 52) (2 ^ x.natAbs.log2) := by
  have hnear := significand_nearestEven x.natAbs
  split
  · next hneg =>
    have hx : x * 2 ^ 52 = -(x.natAbs * 2 ^ 52) := by omega
    rw [hx]
    exact hnear.neg
  · next hnonneg =>
    have hx : x * 2 ^ 52 = x.natAbs * 2 ^ 52 := by omega
    rw [hx]
    exact hnear

/-- The pattern of a normal is finite and as near to its value as every other (R240, R241). -/
theorem toDouble_nearest (hlegal : fmt.legal = true) (h : isNormal a = true) :
    dblExp (toDouble fmt a) ≠ 2047 ∧ ∀ d' : BitVec 64,
      dblError fmt.F (v fmt a) (toDouble fmt a) ≤ dblError fmt.F (v fmt a) d' ∧
      (dblError fmt.F (v fmt a) (toDouble fmt a) = dblError fmt.F (v fmt a) d' →
        dblScaled (toDouble fmt a) = dblScaled d' ∨ dblFrac (toDouble fmt a) % 2 = 0) := by
  rw [toDouble_of_isNormal h]
  split
  · next hzero =>
    have hscaled : dblScaled 0#64 = 0 := by rw [dblScaled_eq]; decide
    refine ⟨by decide, fun d' => ⟨?_, fun _ => .inr (by decide)⟩⟩
    rw [dblError, hzero, hscaled, zero_mul, zero_mul, sub_zero, abs_zero]
    exact abs_nonneg _
  · next hne =>
    have hlog := log2_natAbs_v_lt fmt a
    have hF : fmt.F ≤ 60 := by
      have hle := of_decide_eq_true hlegal
      have hW := Width.bits_le fmt.width
      simp only [Format.F]
      omega
    obtain ⟨hfinite, hscaled, hparity⟩ := dblOfMagnitude_value (fmt := fmt)
      (decide (v fmt a < 0)) (Int.natAbs_ne_zero.mpr hne) (by omega) (by omega)
    simp only [decide_eq_true_eq] at hscaled
    have hbinade : 2 ^ (v fmt a).natAbs.log2 ≤ |v fmt a| := by
      rw [Int.abs_eq_natAbs]
      exact_mod_cast Nat.log2_self_le (Int.natAbs_ne_zero.mpr hne)
    refine ⟨hfinite, fun d' => ?_⟩
    obtain ⟨hle, heq⟩ := dblScaled_nearest (signed_significand_nearestEven _) hbinade
      (show _ = _ + fmt.F by omega) hscaled d'
    refine ⟨hle, fun h => (heq h).imp_right fun heven => ?_⟩
    rw [hparity]
    split at heven <;> omega

end ToDouble

theorem resultDbl_of_w64 {fmt : Format} (h : fmt.width = .w64) (d : BitVec 64) :
    resultDbl fmt d = ⟨d, 0, false⟩ := by
  simp only [resultDbl, h, resultY]

theorem resultDbl_of_w32 {fmt : Format} (h : fmt.width = .w32) (d : BitVec 64) :
    resultDbl fmt d =
      ⟨BitVec.ofNat 64 (d.toNat % 2 ^ 32), BitVec.ofNat 64 (d.toNat / 2 ^ 32), false⟩ := by
  have hd := d.isLt
  have hlow : (d.extractLsb' 0 32).setWidth 64 = BitVec.ofNat 64 (d.toNat % 2 ^ 32) := by
    apply BitVec.eq_of_toNat_eq
    simp
  have hhigh : (d.extractLsb' 32 32).setWidth 64 = BitVec.ofNat 64 (d.toNat / 2 ^ 32) := by
    apply BitVec.eq_of_toNat_eq
    simp [Nat.shiftRight_eq_div_pow]
    omega
  simp only [resultDbl, h, resultYH, hlow, hhigh]

/-- Settles O26: the specials of `toDouble`, and the nearest pattern that it gives a normal. -/
theorem toDoubleIsNearest : Obligations.ToDoubleIsNearest := by
  refine ⟨rfl, fun s e rest hs hlegal => ?_⟩
  obtain ⟨hnan, hpinf, hninf⟩ := toDouble_specials s.build.fmt e.a
  refine ⟨toDouble s.build.fmt e.a, fun hw => ?_, fun hw => ?_, hnan, hpinf, hninf,
    fun h hx => ?_, fun h => ?_⟩
  · rw [exec_cons hs, ← resultDbl_of_w64 hw]
    rfl
  · rw [exec_cons hs, ← resultDbl_of_w32 hw]
    rfl
  · rw [toDouble_of_isNormal h, if_pos hx]
  · obtain ⟨hfinite, hnearest⟩ := toDouble_nearest hlegal h
    exact ⟨hfinite, fun d' _ => hnearest d'⟩

end Sys2Proof.Machine

/-! Square root (44_transcendental.md R280 to R282). The bit-by-bit loop of R281 is the integer square
root, and the test on its remainder gives the integer nearest to the exact root. -/

namespace Sys2Proof.Machine

/-! ### The integer square root (R281) -/

/-- From `r` with `r² ≤ N < (r + 2^k)²`, the last `k` steps of the loop end at the root. -/
theorem isqrtBits_eq_sqrt (N k r : Nat) (hlo : r ^ 2 ≤ N) (hhi : N < (r + 2 ^ k) ^ 2) :
    isqrtBits N k r = Nat.sqrt N := by
  induction k generalizing r with
  | zero => exact Nat.eq_sqrt'.mpr ⟨hlo, hhi⟩
  | succ k ih =>
    have hhalf : r + 2 ^ k + 2 ^ k = r + 2 ^ (k + 1) := by rw [pow_succ]; omega
    rw [isqrtBits]
    split
    · next hset => exact ih _ hset (hhalf ▸ hhi)
    · next hclear => exact ih _ hlo (not_le.mp hclear)

theorem isqrt_eq_sqrt {fmt : Format} {N : Nat} (h : N < (2 ^ (fmt.W - 3)) ^ 2) :
    isqrt fmt N = Nat.sqrt N :=
  isqrtBits_eq_sqrt N (fmt.W - 3) 0 (Nat.zero_le _) (by rwa [Nat.zero_add])

/-! ### Rounding the root (R280, R282) -/

/-- The integer nearest to the root of `N`: one above the integer root `r` when the remainder
`N − r²` is above `r` (R280). -/
def nearestRoot (N : Nat) : Nat :=
  if N - N.sqrt ^ 2 > N.sqrt then N.sqrt + 1 else N.sqrt

theorem nearestRoot_le (N : Nat) : nearestRoot N ≤ N.sqrt + 1 := by
  unfold nearestRoot; split <;> omega

/-- `nearestRoot N` is less than one half away from the root of `N`. -/
theorem nearestRoot_nearest (N : Nat) :
    4 * (N : Int) < (2 * nearestRoot N + 1) ^ 2 ∧
      ((nearestRoot N : Int) = 0 ∨ (2 * (nearestRoot N : Int) - 1) ^ 2 < 4 * N) := by
  have hlo : (N.sqrt : Int) ^ 2 ≤ N := by exact_mod_cast Nat.sqrt_le' N
  have hhi : (N : Int) < (N.sqrt + 1) ^ 2 := by exact_mod_cast Nat.lt_succ_sqrt' N
  have hsub : ((N - N.sqrt ^ 2 : Nat) : Int) = N - (N.sqrt : Int) ^ 2 := by
    rw [Nat.cast_sub (Nat.sqrt_le' N), Nat.cast_pow]
  unfold nearestRoot
  split
  · next hup =>
    push_cast
    exact ⟨by nlinarith, .inr (by nlinarith)⟩
  · next hdown =>
    refine ⟨by nlinarith, ?_⟩
    rcases Nat.eq_zero_or_pos N.sqrt with hzero | hpos
    · exact .inl (by rw [hzero, Nat.cast_zero])
    · exact .inr (by nlinarith)

/-! ### SQRT, by the kind of the operand (R280) -/

theorem squareRoot_specials (fmt : Format) (a : Word) :
    (isNaN a = true ∨ Negative fmt a → squareRoot fmt a = NAN fmt) ∧
    (isPInf a = true → squareRoot fmt a = PINF fmt) := by
  refine ⟨?_, fun h => ?_⟩
  · rintro (h | h | ⟨h, hv⟩)
    · simp [squareRoot, h]
    · simp [squareRoot, h]
    · simp [squareRoot, tags_of_isNormal h, hv]
  · simp [squareRoot, tags_of_isPInf h]

theorem two_pow_sub_one_mul_lt_sq (w : Width) :
    (2 ^ (w.bits - 3) - 1) * 2 ^ (w.bits - 4) < (2 ^ (w.bits - 3) - 1) ^ 2 := by
  cases w <;> decide

/-- With `F ≤ W − 4` the radicand is below the square of `VMAX` (R11, R282). -/
theorem radicand_lt {fmt : Format} (hlegal : fmt.legal = true) {x : Int} (hx : x ≤ vmax fmt) :
    x.toNat * 2 ^ fmt.F < (2 ^ (fmt.W - 3) - 1) ^ 2 := by
  have hF : fmt.F ≤ fmt.W - 4 := Nat.le_sub_of_add_le (of_decide_eq_true hlegal)
  have hpow : 2 ^ fmt.F ≤ 2 ^ (fmt.W - 4) := Nat.pow_le_pow_right two_pos hF
  have hxn : x.toNat ≤ 2 ^ (fmt.W - 3) - 1 := by
    rw [Int.toNat_le, Nat.cast_sub Nat.one_le_two_pow]
    exact_mod_cast hx
  exact (Nat.mul_le_mul hxn hpow).trans_lt (two_pow_sub_one_mul_lt_sq fmt.width)

theorem squareRoot_of_nonneg {fmt : Format} (hlegal : fmt.legal = true) {a : Word}
    (h : isNormal a = true) (hv : 0 ≤ v fmt a) :
    squareRoot fmt a = enc fmt (nearestRoot ((v fmt a).toNat * 2 ^ fmt.F)) := by
  have hlt := (radicand_lt hlegal (v_range fmt a).2).trans_le
    (Nat.pow_le_pow_left (Nat.sub_le (2 ^ (fmt.W - 3)) 1) 2)
  simp only [squareRoot, tags_of_isNormal h, hv.not_gt, isqrt_eq_sqrt hlt, nearestRoot,
    Bool.or_self, Bool.false_eq_true, if_false]

theorem nearestRoot_le_vmax {fmt : Format} (hlegal : fmt.legal = true) {x : Int}
    (hx : x ≤ vmax fmt) : (nearestRoot (x.toNat * 2 ^ fmt.F) : Int) ≤ vmax fmt := by
  have hroot := Nat.sqrt_lt'.mpr (radicand_lt hlegal hx)
  have hle := (nearestRoot_le _).trans hroot
  rw [vmax]
  zify [Nat.one_le_two_pow] at hle
  exact hle

/-- Settles O31: the loop gives the integer root, and `nearestRoot` rounds it in range. -/
theorem squareRootIsNearest : Obligations.SquareRootIsNearest := by
  refine ⟨rfl, fun s e rest hs hlegal => ?_⟩
  obtain ⟨hnan, hpinf⟩ := squareRoot_specials s.build.fmt e.a
  simp only [exec_cons hs, responseOf, resultY]
  refine ⟨fun h => by rw [hnan h], fun h => by rw [hpinf h], fun h hv => ?_⟩
  have hN : (((v s.build.fmt e.a).toNat * 2 ^ s.build.fmt.F : Nat) : Int) =
      v s.build.fmt e.a * 2 ^ s.build.fmt.F := by
    rw [Nat.cast_mul, Int.toNat_of_nonneg hv, Nat.cast_pow, Nat.cast_ofNat]
  obtain ⟨hbelow, habove⟩ := nearestRoot_nearest ((v s.build.fmt e.a).toNat * 2 ^ s.build.fmt.F)
  rw [hN] at hbelow habove
  exact ⟨_, Nat.cast_nonneg _, nearestRoot_le_vmax hlegal (v_range _ _).2, hbelow, habove,
    by rw [squareRoot_of_nonneg hlegal h hv]⟩

end Sys2Proof.Machine

/-! The exponential with `TRANS_IMPL = reference` (44_transcendental.md R285 to R288). The model's loop
counts the fraction bits still to read; R287 writes it over the bits in order. -/

namespace Sys2Proof.Machine

/-! ### The loop of EXP_REF (R286, R287) -/

/-- The table as numbers with `Q` fraction bits, from the masters themselves (R286). -/
theorem exp2Q_eq (fmt : Format) : exp2Q fmt =
    (exp2Masters.take (qBits fmt)).map fun m : Nat => fromMaster m (qBits fmt) := by
  simp [exp2Q, ← List.map_eq_flatMap, Function.comp_def]

/-- There is a master for each of the `Q` fraction bits (R286). -/
theorem qBits_le_length_exp2Masters (fmt : Format) : qBits fmt ≤ exp2Masters.length :=
  Nat.add_le_add_right (Width.bits_le fmt.width) 16

theorem testBit_iff_int_div (f k : Nat) : f.testBit k = true ↔ (f : Int) / 2 ^ k % 2 = 1 := by
  rw [Nat.testBit_eq_decide_div_mod_eq, decide_eq_true_iff]
  norm_cast

/-- With `k` bits of `f` to read, step `j` reads bit `k − (j + 1)` and takes the `j`-th master. -/
theorem expLoop_eq_foldl (Q f : Nat) (toQ : Nat → Int) (k : Nat) (masters : List Nat) (Y : Int)
    (hlen : k ≤ masters.length) :
    expLoop Q f k ((masters.take k).map toQ) Y = (List.range k).foldl (fun (Y : Int) j =>
      if (f : Int) / 2 ^ (k - (j + 1)) % 2 = 1 then rte (Y * toQ (masters.getD j 0)) Q
      else Y) Y := by
  induction k generalizing masters Y with
  | zero => rfl
  | succ k ih =>
    cases masters with
    | nil => simp at hlen
    | cons m masters =>
      rw [List.length_cons, Nat.succ_le_succ_iff] at hlen
      rw [List.range_succ_eq_map, List.foldl_cons, List.foldl_map, List.take_succ_cons,
        List.map_cons, expLoop, ih masters _ hlen]
      simp only [testBit_iff_int_div, Nat.succ_eq_add_one, Nat.zero_add, Nat.add_sub_add_right,
        Nat.add_sub_cancel, List.getD_cons_zero, List.getD_cons_succ]

/-- The product of EXP_REF, over the fraction bits from the top (R287). -/
theorem expLoop_exp2Q (fmt : Format) {f : Int} (hf : 0 ≤ f) :
    expLoop (qBits fmt) f.toNat (qBits fmt) (exp2Q fmt) (2 ^ qBits fmt) =
      (List.range (qBits fmt)).foldl (fun (Y : Int) j =>
        if f / 2 ^ (qBits fmt - (j + 1)) % 2 = 1 then
          rte (Y * fromMaster (exp2Masters.getD j 0) (qBits fmt)) (qBits fmt)
        else Y) (2 ^ qBits fmt) := by
  rw [exp2Q_eq, expLoop_eq_foldl _ _ (fun m : Nat => fromMaster m (qBits fmt)) _ _ _
    (qBits_le_length_exp2Masters fmt), Int.toNat_of_nonneg hf]

/-! ### EXP, by the kind of the operand (R288) -/

theorem exponential_specials (bld : Build) (a : Word) :
    (isNaN a = true → exponential bld a = NAN bld.fmt) ∧
    (isPInf a = true → exponential bld a = PINF bld.fmt) ∧
    (isNInf a = true → exponential bld a = ZERO bld.fmt) := by
  refine ⟨fun h => ?_, fun h => ?_, fun h => ?_⟩
  · simp [exponential, h]
  · simp [exponential, tags_of_isPInf h]
  · simp [exponential, tags_of_isNInf h]

theorem exponential_of_isNormal {bld : Build} (htrans : bld.trans = .reference) {a : Word}
    (h : isNormal a = true) : exponential bld a = expRef bld.fmt (v bld.fmt a) := by
  simp [exponential, tags_of_isNormal h, htrans]

/-- Settles O33: the special values, and `expRef` with its fraction as a remainder and its loop over
the bits in order. -/
theorem exponentialFollowsTheReference : Obligations.ExponentialFollowsTheReference := by
  refine ⟨rfl, rfl, fun s e rest hs htrans => ?_⟩
  obtain ⟨hnan, hpinf, hninf⟩ := exponential_specials s.build e.a
  simp only [exec_cons hs, responseOf, resultY]
  refine ⟨fun h => by rw [hnan h], fun h => by rw [hpinf h], fun h => by rw [hninf h],
    fun h => ?_⟩
  have hpow : (2 : Int) ^ qBits s.build.fmt ≠ 0 := by positivity
  have hfrac (T : Int) :
      T - T / 2 ^ qBits s.build.fmt * 2 ^ qBits s.build.fmt = T % 2 ^ qBits s.build.fmt := by
    rw [Int.emod_def, mul_comm]
  rw [exponential_of_isNormal htrans h, expRef]
  simp only [Int.shiftRight_eq_div_pow, Nat.cast_pow, Nat.cast_ofNat, hfrac,
    expLoop_exp2Q _ (Int.emod_nonneg _ hpow)]
  rfl

end Sys2Proof.Machine

/-! The logarithms with `TRANS_IMPL = reference` (44_transcendental.md R295 to R299). The squaring loop
counts the fraction bits still to find; R295 writes it over the bits in order. -/

namespace Sys2Proof.Machine

/-! ### LOG2_CORE (R295) -/

/-- One step of the loop of R295 on `(Y, L)`, which finds the fraction bit of weight `2^k`. -/
def log2Step (Q k : Nat) (YL : Int × Int) : Int × Int :=
  let Y := rte (YL.1 * YL.1) Q
  if 2 ^ (Q + 1) ≤ Y then (rte Y 1, YL.2 + 2 ^ k) else (Y, YL.2)

theorem log2Loop_succ (Q k : Nat) (YL : Int × Int) : log2Loop Q (k + 1) YL.1 YL.2 =
    log2Loop Q k (log2Step Q k YL).1 (log2Step Q k YL).2 := by
  simp only [log2Loop, log2Step, ge_iff_le]
  split <;> rfl

/-- With `k` bits to find, step `j` finds the one of weight `2^(k − (j + 1))`. -/
theorem log2Loop_eq_foldl (Q k : Nat) (YL : Int × Int) : log2Loop Q k YL.1 YL.2 =
    ((List.range k).foldl (fun YL j => log2Step Q (k - (j + 1)) YL) YL).2 := by
  induction k generalizing YL with
  | zero => rfl
  | succ k ih =>
    rw [log2Loop_succ, ih, List.range_succ_eq_map, List.foldl_cons, List.foldl_map]
    simp only [Nat.succ_eq_add_one, Nat.zero_add, Nat.add_sub_add_right, Nat.add_sub_cancel]

theorem bitlen_sub_one (m : Nat) : bitlen m - 1 = m.log2 := by
  unfold bitlen
  split
  · next h => rw [h, Nat.log2_zero]
  · rfl

theorem log2Core_eq (fmt : Format) (m : Nat) : log2Core fmt m =
    ((m.log2 : Int) - fmt.F) * 2 ^ qBits fmt + ((List.range (qBits fmt)).foldl
      (fun YL j => log2Step (qBits fmt) (qBits fmt - (j + 1)) YL)
      ((m : Int) * 2 ^ (qBits fmt - m.log2), 0)).2 := by
  rw [log2Core, bitlen_sub_one, ← log2Loop_eq_foldl]

/-! ### The logarithms, by the kind of the operand (R296 to R299) -/

section Logarithm

variable (bld : Build) (base : LogBase) {a : Word}

theorem logarithm_specials :
    (isNaN a = true → logarithm bld base a = NAN bld.fmt) ∧
    (isPInf a = true → logarithm bld base a = PINF bld.fmt) ∧
    (isNInf a = true → logarithm bld base a = NAN bld.fmt) := by
  refine ⟨fun h => ?_, fun h => ?_, fun h => ?_⟩
  · simp [logarithm, h]
  · simp [logarithm, tags_of_isPInf h]
  · simp [logarithm, tags_of_isNInf h]

theorem logarithm_of_isNormal (h : isNormal a = true) : logarithm bld base a =
    if v bld.fmt a < 0 then NAN bld.fmt
    else if v bld.fmt a = 0 then NINF bld.fmt
    else logOf bld base (v bld.fmt a).toNat := by
  simp [logarithm, tags_of_isNormal h]

theorem logarithm_of_pos (htrans : bld.trans = .reference) (h : isNormal a = true)
    (hv : 0 < v bld.fmt a) :
    logarithm bld base a = logRef bld.fmt base (v bld.fmt a).toNat := by
  rw [logarithm_of_isNormal bld base h, if_neg hv.not_gt, if_neg hv.ne', logOf, htrans]

end Logarithm

/-- The response of each logarithm is `logarithm` in its base (R297 to R299). -/
theorem responseOf_logarithm (bld : Build) (a b : Word) {i : Instr}
    (hi : i ∈ [Instr.ln, .log2, .log10]) :
    ∃ base, responseOf i bld a b = ⟨logarithm bld base a, 0, false⟩ := by
  simp only [List.mem_cons, List.not_mem_nil, or_false] at hi
  obtain rfl | rfl | rfl := hi
  · exact ⟨.e, rfl⟩
  · exact ⟨.two, rfl⟩
  · exact ⟨.ten, rfl⟩

/-- Settles O36: the special values in every base, and `logRef` of a positive normal with its loop
over the bits in order. -/
theorem logarithmsFollowTheReference : Obligations.LogarithmsFollowTheReference := by
  intro s e rest hs htrans
  refine ⟨fun i hi => ?_, fun h hv => ?_⟩
  · obtain ⟨base, hresponse⟩ := responseOf_logarithm s.build e.a e.b hi
    obtain ⟨hnan, hpinf, hninf⟩ := logarithm_specials s.build base (a := e.a)
    simp only [exec_cons hs, hresponse]
    refine ⟨fun h => by rw [hnan h], fun h => by rw [hpinf h], fun h => by rw [hninf h],
      fun h hneg => ?_, fun h hzero => ?_⟩
    · rw [logarithm_of_isNormal _ _ h, if_pos hneg]
    · rw [logarithm_of_isNormal _ _ h, if_neg hzero.not_lt, if_pos hzero]
  · simp only [exec_cons hs, responseOf, resultY, logarithm_of_pos _ _ htrans h hv, logRef,
      log2Core_eq]
    exact ⟨rfl, rfl, rfl⟩

end Sys2Proof.Machine

/-! Angle reduction (45_cordic_trig.md R333, R335). -/

namespace Sys2Proof.Machine

theorem tau32_eq : tau32 = 0x6487ED511 := by decide

/-- The quadrant is the two top bits of the position in the turn, and `w` is the others. -/
theorem reduce_turn (fmt : Format) (x : Int) :
    rte (x * invTauR fmt) (fmt.F + invTauBits fmt - ktBits) % 2 ^ 32 =
      (reduce fmt x).q * 2 ^ 30 + (reduce fmt x).w := by
  have hturn := Int.emod_nonneg (rte (x * invTauR fmt) (fmt.F + invTauBits fmt - ktBits))
    (show (2 : Int) ^ 32 ≠ 0 by decide)
  simp only [reduce, ktBits, Nat.shiftRight_eq_div_pow] at *
  omega

theorem reduce_q_le (fmt : Format) (x : Int) : (reduce fmt x).q ≤ 3 := by
  have hturn := Int.emod_lt_of_pos (rte (x * invTauR fmt) (fmt.F + invTauBits fmt - ktBits))
    (show (0 : Int) < 2 ^ 32 by decide)
  rw [reduce_turn] at hturn
  omega

theorem reduce_w_lt (fmt : Format) (x : Int) : (reduce fmt x).w < 2 ^ 30 :=
  Nat.mod_lt _ (by decide)

/-- The angle is `w` times `2π`, from turns with 32 fraction bits to radians with 28. -/
theorem reduce_theta_nearestEven (fmt : Format) (x : Int) :
    NearestEven (reduce fmt x).theta ((reduce fmt x).w * 0x6487ED511) (2 ^ 36) :=
  tau32_eq ▸ rte_nearestEven _ 36

theorem reduce_theta_range (fmt : Format) (x : Int) :
    0 ≤ (reduce fmt x).theta ∧ (reduce fmt x).theta ≤ 421657428 := by
  have hw := reduce_w_lt fmt x
  exact nearest_range (by decide) (reduce_theta_nearestEven fmt x).1 (by omega) (by omega)

/-- Settles O39: the position in the turn is the nearest to the operand's, and the angle the nearest
to the position's. -/
theorem reducedAnglesAreInRange : Obligations.ReducedAnglesAreInRange := by
  intro fmt x
  obtain ⟨hlo, hhi⟩ := reduce_theta_range fmt x
  exact ⟨reduce_q_le fmt x, reduce_w_lt fmt x, hlo, hhi, _, rte_nearestEven _ _,
    reduce_turn fmt x, reduce_theta_nearestEven fmt x⟩

end Sys2Proof.Machine

/-! SIN, COS, TAN and SINF with `TRANS_IMPL = reference` (45_cordic_trig.md R338 to R351). The model
runs the CORDIC engine over the list of step angles; R338 writes it over the numbers of the
micro-rotations. -/

namespace Sys2Proof.Machine

/-! ### The engine over the numbers of its micro-rotations (R338) -/

def Rotation.triple (t : Rotation) : Int × Int × Int := (t.x, t.y, t.z)

/-- Micro-rotation `i` on a triple, as R338 writes it. -/
def rotateTriple (steps : List Int) (t : Int × Int × Int) (i : Nat) : Int × Int × Int :=
  if 0 ≤ t.2.2 then
    (t.1 - t.2.1 / 2 ^ i, t.2.1 + t.1 / 2 ^ i, t.2.2 - steps.getD i 0)
  else (t.1 + t.2.1 / 2 ^ i, t.2.1 - t.1 / 2 ^ i, t.2.2 + steps.getD i 0)

theorem triple_microRotate (steps : List Int) (i : Nat) (t : Rotation) :
    (microRotate i (steps.getD i 0) t).triple = rotateTriple steps t.triple i := by
  unfold microRotate rotateTriple Rotation.triple
  simp only [Int.shiftRight_eq_div_pow, Nat.cast_pow, Nat.cast_ofNat]
  split <;> rfl

/-- With the step angles `before` used up, the engine goes on with micro-rotation
`before.length`. -/
theorem triple_rotations (before after : List Int) (t : Rotation) :
    (rotations before.length after t).triple =
      (List.range' before.length after.length).foldl (rotateTriple (before ++ after)) t.triple := by
  induction after generalizing before t with
  | nil => rfl
  | cons step after ih =>
    have hstep : (before ++ step :: after).getD before.length 0 = step := by simp
    have hnext := ih (before ++ [step]) (microRotate before.length step t)
    rw [List.length_append, List.length_singleton, List.append_assoc, List.singleton_append]
      at hnext
    rw [rotations, hnext, List.length_cons, List.range'_succ, List.foldl_cons,
      ← triple_microRotate, hstep]

theorem length_atanTable : atanTable.length = 28 := rfl

/-- The engine's triple after all its micro-rotations. -/
def engineTriple (theta : Int) : Int × Int × Int :=
  (List.range 28).foldl (rotateTriple atanTable) (163008219, 0, theta)

theorem triple_engine (theta : Int) :
    (rotations 0 atanTable { x := kGain, y := 0, z := theta }).triple = engineTriple theta := by
  have hrun := triple_rotations [] atanTable { x := kGain, y := 0, z := theta }
  rwa [List.length_nil, List.nil_append, ← List.range_eq_range', length_atanTable] at hrun

/-- The engine with its bypass at `w = 0` (R339). -/
theorem cosSin_eq (r : Reduced) : cosSin r =
    (if r.w = 0 then 2 ^ 28 else (engineTriple r.theta).1,
      if r.w = 0 then 0 else (engineTriple r.theta).2.1) := by
  rw [← triple_engine, cosSin, cordic, Rotation.triple, cordicBits]
  split <;> with_reducible rfl

/-! ### The quadrant map (R339) -/

theorem columns_eq {r : Reduced} (hq : r.q ≤ 3) :
    sinColumn r = (if r.q = 0 then (cosSin r).2 else if r.q = 1 then (cosSin r).1
      else if r.q = 2 then -(cosSin r).2 else -(cosSin r).1) ∧
    cosColumn r = (if r.q = 0 then (cosSin r).1 else if r.q = 1 then -(cosSin r).2
      else if r.q = 2 then -(cosSin r).1 else (cosSin r).2) := by
  obtain ⟨q, w, theta⟩ := r
  have hquadrant : q = 0 ∨ q = 1 ∨ q = 2 ∨ q = 3 := by dsimp only at hq; omega
  obtain rfl | rfl | rfl | rfl := hquadrant <;> exact ⟨rfl, rfl⟩

/-! ### The fast sine (R351) -/

/-- The angle that the polynomial is evaluated at: folded in the odd quadrants. -/
def foldedAngle (r : Reduced) : Int :=
  if r.q = 1 ∨ r.q = 3 then 421657428 - r.theta else r.theta

/-- The degree-7 polynomial in Horner's form. -/
def sinePolynomial (th : Int) : Int :=
  rte (th * [2236962, 44739243, 2 ^ 28].foldl
    (fun (p c : Int) => c - rte (rte (th ^ 2) 28 * p) 28) 53261) 28

theorem sinfColumn_eq {r : Reduced} (hq : r.q ≤ 3) :
    sinfColumn r = if r.q = 0 ∨ r.q = 1 then sinePolynomial (foldedAngle r)
      else -sinePolynomial (foldedAngle r) := by
  have hodd : r.q % 2 = 1 ↔ r.q = 1 ∨ r.q = 3 := by omega
  have hlower : 2 ≤ r.q ↔ ¬(r.q = 0 ∨ r.q = 1) := by omega
  simp only [sinfColumn, sinePolynomial, pow_two, hodd, hlower, ite_not]
  rfl

/-! ### The operations, by the kind of the operand (R341 to R351) -/

theorem trig_of_not_isNormal (bld : Build) {a : Word} (h : isNormal a = false) :
    sine bld a = NAN bld.fmt ∧ cosine bld a = NAN bld.fmt ∧ fastSine bld a = NAN bld.fmt := by
  simp [sine, cosine, fastSine, h]

theorem trig_of_isNormal {bld : Build} (htrans : bld.trans = .reference) {a : Word}
    (h : isNormal a = true) :
    sine bld a = enc bld.fmt (outValue bld.fmt (sinColumn (reduce bld.fmt (v bld.fmt a)))) ∧
    cosine bld a = enc bld.fmt (outValue bld.fmt (cosColumn (reduce bld.fmt (v bld.fmt a)))) ∧
    fastSine bld a = enc bld.fmt (outValue bld.fmt (sinfColumn (reduce bld.fmt (v bld.fmt a)))) := by
  simp [sine, cosine, fastSine, h, htrans]

/-- Settles O41: the statement's loop is `engineTriple`, and its cases are the columns of the quadrant
map. -/
theorem sineAndCosineFollowTheReference : Obligations.SineAndCosineFollowTheReference := by
  refine ⟨rfl, rfl, fun s e rest hs htrans => ?_⟩
  intro fmt gives r ATAN xyz c sn out
  have hengine : xyz = engineTriple r.theta := rfl
  have hcosSin : cosSin r = (c, sn) := by rw [cosSin_eq, ← hengine]
  clear hengine
  clear_value c sn
  simp only [gives, exec_cons hs, responseOf, resultY]
  refine ⟨fun h => ?_, fun h => ?_⟩
  · obtain ⟨hsin, hcos, -⟩ := trig_of_not_isNormal s.build h
    rw [hsin, hcos]
    exact ⟨rfl, rfl⟩
  · obtain ⟨hsin, hcos, -⟩ := trig_of_isNormal htrans h
    obtain ⟨hsinColumn, hcosColumn⟩ := columns_eq (reduce_q_le fmt (v fmt e.a))
    rw [hsin, hcos, hsinColumn, hcosColumn, hcosSin]
    exact ⟨rfl, rfl⟩

/-- Settles O43: the statement's polynomial is `sinePolynomial` at `foldedAngle`. -/
theorem fastSineFollowsTheReference : Obligations.FastSineFollowsTheReference := by
  refine ⟨rfl, fun s e rest hs htrans => ?_⟩
  simp only [exec_cons hs, responseOf, resultY]
  refine ⟨fun h => ?_, fun h => ?_⟩
  · obtain ⟨-, -, hsinf⟩ := trig_of_not_isNormal s.build h
    rw [hsinf]
  · obtain ⟨-, -, hsinf⟩ := trig_of_isNormal htrans h
    rw [hsinf, sinfColumn_eq (reduce_q_le _ _)]
    rfl

/-- Settles O44: the three result words are those of `sine`, `cosine` and `divide`. -/
theorem tangentIsTheQuotient : Obligations.TangentIsTheQuotient := by
  refine ⟨rfl, fun s e rest sn cs y hs hsin hcos hdiv => ?_⟩
  rw [resultOf_eq_responseOf, Option.some_inj] at hsin hcos hdiv
  rw [exec_cons hs, ← hdiv, ← hsin, ← hcos]
  rfl

end Sys2Proof.Machine

/-! The range of the trigonometric datapath (45_cordic_trig.md R331, R340). A bound on each coordinate
of the engine's vector would grow by `1 + 2^(−i)` at micro-rotation `i`, in all beyond `2^29`; a bound
on its length grows only by the gain of the rotation, and by little for the two floors. -/

namespace Sys2Proof.Machine

/-! ### The remaining angle (R338) -/

theorem abs_microRotate_z_le {i : Nat} {step B : Int} {t : Rotation} (hstep : 0 ≤ step ∧ step ≤ B)
    (hz : |t.z| ≤ B) : |(microRotate i step t).z| ≤ B := by
  rw [abs_le] at *
  unfold microRotate
  split <;> dsimp only <;> omega

theorem abs_rotations_z_le {B : Int} {steps : List Int}
    (hsteps : ∀ step ∈ steps, 0 ≤ step ∧ step ≤ B) (i : Nat) {t : Rotation} (hz : |t.z| ≤ B) :
    |(rotations i steps t).z| ≤ B := by
  induction steps generalizing i t with
  | nil => exact hz
  | cons step steps ih =>
    obtain ⟨hstep, hrest⟩ := List.forall_mem_cons.mp hsteps
    exact ih hrest (i + 1) (abs_microRotate_z_le hstep hz)

theorem atanTable_range : ∀ step ∈ atanTable, 0 ≤ step ∧ step ≤ 421657428 := by decide

/-! ### The length of the vector (R338) -/

/-- The square of the length of the engine's vector. -/
def Rotation.normSq (t : Rotation) : Int := t.x ^ 2 + t.y ^ 2

theorem abs_lt_of_normSq_lt {t : Rotation} (h : t.normSq < 2 ^ 58) :
    |t.x| < 2 ^ 29 ∧ |t.y| < 2 ^ 29 := by
  have hx := sq_nonneg t.x
  have hy := sq_nonneg t.y
  rw [Rotation.normSq] at h
  exact ⟨abs_lt_of_sq_lt_sq (by omega) (by decide), abs_lt_of_sq_lt_sq (by omega) (by decide)⟩

/-- What a shift cuts off. -/
theorem sub_shiftRight_mul_range (x : Int) (i : Nat) :
    0 ≤ x - x >>> i * 2 ^ i ∧ x - x >>> i * 2 ^ i < 2 ^ i := by
  have hmod : x - x >>> i * 2 ^ i = x % 2 ^ i := by
    rw [Int.shiftRight_eq_div_pow, Int.emod_def, mul_comm, Nat.cast_pow, Nat.cast_ofNat]
  rw [hmod]
  exact ⟨Int.emod_nonneg x (by positivity), Int.emod_lt_of_pos x (by positivity)⟩

/-- The square of a shifted coordinate, up to a constant for the floor. -/
theorem sq_shiftRight_le {x : Int} (hx : |x| < 2 ^ 29) (i : Nat) :
    ((x >>> i) ^ 2 - 2 ^ 31) * 4 ^ i ≤ x ^ 2 := by
  obtain ⟨hlo, hhi⟩ := sub_shiftRight_mul_range x i
  obtain ⟨hneg, hpos⟩ := abs_lt.mp hx
  have hs : (1 : Int) ≤ 2 ^ i := one_le_pow₀ (by decide)
  have hfour : (4 : Int) ^ i = 2 ^ i * 2 ^ i := by rw [← mul_pow]; rfl
  rw [hfour]
  generalize (2 : Int) ^ i = s at *
  obtain ⟨a, ha⟩ : ∃ a, x - x >>> i * s = a := ⟨_, rfl⟩
  rw [ha] at hlo hhi
  calc ((x >>> i) ^ 2 - 2 ^ 31) * (s * s) = (x - a) ^ 2 - 2 ^ 31 * (s * s) := by rw [← ha]; ring
    _ ≤ x ^ 2 := by nlinarith

/-- The cross terms of the square of the length, which cancel in an exact rotation. -/
theorem abs_cross_shiftRight_le (x y : Int) (i : Nat) :
    |y * x >>> i - x * y >>> i| ≤ |x| + |y| := by
  obtain ⟨hxlo, hxhi⟩ := sub_shiftRight_mul_range x i
  obtain ⟨hylo, hyhi⟩ := sub_shiftRight_mul_range y i
  have hs : (0 : Int) < 2 ^ i := by positivity
  generalize (2 : Int) ^ i = s at *
  refine le_of_mul_le_mul_right ?_ hs
  calc |y * x >>> i - x * y >>> i| * s
      = |x * (y - y >>> i * s) - y * (x - x >>> i * s)| := by
        rw [← abs_of_pos hs, ← abs_mul, abs_of_pos hs]; ring_nf
    _ ≤ |x| * (y - y >>> i * s) + |y| * (x - x >>> i * s) := by
        refine (abs_sub _ _).trans_eq ?_
        rw [abs_mul, abs_mul, abs_of_nonneg hxlo, abs_of_nonneg hylo]
    _ ≤ |x| * s + |y| * s := by gcongr
    _ = (|x| + |y|) * s := (add_mul _ _ _).symm

theorem normSq_microRotate (i : Nat) (step : Int) (t : Rotation) :
    (microRotate i step t).normSq = t.normSq + ((t.x >>> i) ^ 2 + (t.y >>> i) ^ 2) +
      2 * (if 0 ≤ t.z then 1 else -1) * (t.y * t.x >>> i - t.x * t.y >>> i) := by
  unfold microRotate Rotation.normSq
  split <;> ring

/-- A micro-rotation stretches the square of the length by `1 + 4^(−i)`; the rest is the floors'. -/
theorem normSq_microRotate_le {t : Rotation} (h : t.normSq < 2 ^ 58) (i : Nat) (step : Int) :
    (microRotate i step t).normSq ≤ t.normSq + t.normSq / 4 ^ i + 2 ^ 33 := by
  obtain ⟨hx, hy⟩ := abs_lt_of_normSq_lt h
  have hsq : (t.x >>> i) ^ 2 + (t.y >>> i) ^ 2 - 2 ^ 32 ≤ t.normSq / 4 ^ i := by
    rw [Int.le_ediv_iff_mul_le (by positivity), Rotation.normSq]
    linarith [sq_shiftRight_le hx i, sq_shiftRight_le hy i]
  have hcross := abs_le.mp (abs_cross_shiftRight_le t.x t.y i)
  rw [normSq_microRotate]
  split <;> omega

/-- The bound on `normSq` before micro-rotation `i` that `normSq_microRotate_le` gives. -/
def normSqBound : Nat → Int
  | 0 => kGain ^ 2
  | i + 1 => normSqBound i + normSqBound i / 4 ^ i + 2 ^ 33

theorem normSqBound_lt : ∀ i ≤ 28, normSqBound i < 2 ^ 58 := by decide

theorem normSq_rotations_lt {steps : List Int} {i : Nat} (hlen : i + steps.length ≤ 28)
    {t : Rotation} (h : t.normSq ≤ normSqBound i) : (rotations i steps t).normSq < 2 ^ 58 := by
  induction steps generalizing i t with
  | nil => exact h.trans_lt (normSqBound_lt i hlen)
  | cons step steps ih =>
    rw [List.length_cons] at hlen
    have hstep := normSq_microRotate_le (h.trans_lt (normSqBound_lt i (by omega))) i step
    have hquotient : t.normSq / 4 ^ i ≤ normSqBound i / 4 ^ i :=
      Int.ediv_le_ediv (by positivity) h
    refine ih (by omega) (hstep.trans ?_)
    rw [normSqBound]
    omega

/-! ### The engine's values (R331) -/

theorem rotations_range {theta : Int} (hlo : 0 ≤ theta) (hhi : theta ≤ 421657428) (n : Nat) :
    let t := rotations 0 (atanTable.take n) { x := kGain, y := 0, z := theta }
    |t.x| < 2 ^ 29 ∧ |t.y| < 2 ^ 29 ∧ |t.z| < 2 ^ 29 := by
  have hlen : 0 + (atanTable.take n).length ≤ 28 := by
    rw [Nat.zero_add, List.length_take, length_atanTable]
    exact Nat.min_le_right n 28
  have hstart : Rotation.normSq { x := kGain, y := 0, z := theta } ≤ normSqBound 0 := by
    simp [Rotation.normSq, normSqBound]
  obtain ⟨hx, hy⟩ := abs_lt_of_normSq_lt (normSq_rotations_lt hlen hstart)
  have htheta : |theta| ≤ 421657428 := by rwa [abs_of_nonneg hlo]
  have hsteps : ∀ step ∈ atanTable.take n, 0 ≤ step ∧ step ≤ 421657428 :=
    fun step h => atanTable_range step (List.mem_of_mem_take h)
  have hz := abs_rotations_z_le hsteps 0 (t := { x := kGain, y := 0, z := theta }) htheta
  exact ⟨hx, hy, hz.trans_lt (by decide)⟩

theorem cordic_range {theta : Int} (hlo : 0 ≤ theta) (hhi : theta ≤ 421657428) :
    |(cordic theta).1| < 2 ^ 29 ∧ |(cordic theta).2| < 2 ^ 29 := by
  obtain ⟨hx, hy, -⟩ := rotations_range hlo hhi 28
  rw [List.take_of_length_le length_atanTable.le] at hx hy
  rw [cordic]
  dsimp only
  exact ⟨hx, hy⟩

theorem cosSin_range (fmt : Format) (x : Int) :
    |(cosSin (reduce fmt x)).1| < 2 ^ 29 ∧ |(cosSin (reduce fmt x)).2| < 2 ^ 29 := by
  obtain ⟨hlo, hhi⟩ := reduce_theta_range fmt x
  unfold cosSin
  split
  · decide
  · exact cordic_range hlo hhi

theorem columns_range (fmt : Format) (x : Int) :
    |sinColumn (reduce fmt x)| < 2 ^ 29 ∧ |cosColumn (reduce fmt x)| < 2 ^ 29 := by
  obtain ⟨hsin, hcos⟩ := columns_eq (reduce_q_le fmt x)
  obtain ⟨hc, hs⟩ := cosSin_range fmt x
  rw [hsin, hcos]
  constructor <;> split_ifs <;> simp only [abs_neg, hc, hs]

/-! ### The fast sine's value (R351) -/

theorem rte_mul_range {a b A B C : Int} (ha : 0 ≤ a ∧ a ≤ A) (hb : 0 ≤ b ∧ b ≤ B)
    (hC : A * B ≤ C * 2 ^ 28) : 0 ≤ rte (a * b) 28 ∧ rte (a * b) 28 ≤ C := by
  have hmul := mul_le_mul ha.2 hb.2 hb.1 (ha.1.trans ha.2)
  exact nearest_range (by decide) (rte_nearestEven (a * b) 28).1
    (by linarith [mul_nonneg ha.1 hb.1]) (hmul.trans hC)

/-- A stage of Horner's form stays between 0 and its constant. -/
theorem horner_range {t p T P c : Int} (ht : 0 ≤ t ∧ t ≤ T) (hp : 0 ≤ p ∧ p ≤ P)
    (hc : T * P ≤ c * 2 ^ 28) : 0 ≤ c - rte (t * p) 28 ∧ c - rte (t * p) 28 ≤ c := by
  have hproduct := rte_mul_range ht hp hc
  omega

theorem sinePolynomial_range {th : Int} (hth : 0 ≤ th ∧ th ≤ 421657428) :
    0 ≤ sinePolynomial th ∧ sinePolynomial th ≤ 421657428 := by
  have hsq : 0 ≤ rte (th ^ 2) 28 ∧ rte (th ^ 2) 28 ≤ 662337939 :=
    pow_two th ▸ rte_mul_range hth hth (by decide)
  have h5 := horner_range (c := 2236962) hsq (p := 53261) (P := 53261) (by decide) (by decide)
  have h3 := horner_range (c := 44739243) hsq h5 (by decide)
  have h1 := horner_range (c := 2 ^ 28) hsq h3 (by decide)
  exact rte_mul_range hth h1 (by decide)

theorem sinfColumn_range (fmt : Format) (x : Int) : |sinfColumn (reduce fmt x)| < 2 ^ 29 := by
  obtain ⟨hlo, hhi⟩ := reduce_theta_range fmt x
  have hfold : 0 ≤ foldedAngle (reduce fmt x) ∧ foldedAngle (reduce fmt x) ≤ 421657428 := by
    unfold foldedAngle
    split <;> omega
  obtain ⟨hmin, hmax⟩ := sinePolynomial_range hfold
  rw [sinfColumn_eq (reduce_q_le fmt x), abs_lt]
  split <;> omega

/-! ### The output stage (R340) -/

theorem two_pow_29_sub_one_le_vmax (fmt : Format) : 2 ^ 29 - 1 ≤ vmax fmt := by
  obtain ⟨w, F⟩ := fmt
  cases w <;> simp only [vmax, Format.W, Width.bits] <;> omega

theorem outValue_range {fmt : Format} (hlegal : fmt.legal = true) {z : Int} (hz : |z| < 2 ^ 29) :
    vmin fmt ≤ outValue fmt z ∧ outValue fmt z ≤ vmax fmt := by
  rw [abs_lt] at hz
  unfold outValue cordicBits
  split
  · have hmin := vmax_eq_neg_vmin_sub_one fmt
    have hmax := two_pow_29_sub_one_le_vmax fmt
    have hpow : (1 : Int) ≤ 2 ^ (28 - fmt.F) := one_le_pow₀ (by decide)
    exact nearest_range (by positivity) (rte_nearestEven z (28 - fmt.F)).1 (by nlinarith)
      (by nlinarith)
  · next hF =>
    have hpow : (1 : Int) ≤ 2 ^ (fmt.F - 28) := one_le_pow₀ (by decide)
    have hfit : (2 : Int) ^ 29 * 2 ^ (fmt.F - 28) ≤ 2 ^ (fmt.W - 3) := by
      have hle : fmt.F + 4 ≤ fmt.W := of_decide_eq_true hlegal
      rw [← pow_add]
      exact pow_le_pow_right₀ (by decide) (by omega)
    rw [vmin, vmax]
    constructor <;> nlinarith

/-- Settles O42: the engine by the length of its vector, the fast sine by the stages of its
polynomial, and the output stage on any value below `2^29`. -/
theorem cordicNeverOverflows : Obligations.CordicNeverOverflows := by
  refine ⟨length_atanTable, fun theta hlo hhi => ⟨rotations_range hlo hhi, fun fmt hlegal => ?_⟩,
    fun fmt x hlegal => ?_⟩
  · obtain ⟨hc, hs⟩ := cordic_range hlo hhi
    obtain ⟨hcmin, hcmax⟩ := outValue_range hlegal hc
    exact ⟨hcmin, hcmax, outValue_range hlegal hs⟩
  · obtain ⟨hs, hc⟩ := columns_range fmt x
    have hbound : ∀ z ∈ [sinColumn (reduce fmt x), cosColumn (reduce fmt x),
        sinfColumn (reduce fmt x)], |z| < 2 ^ 29 := by
      simp only [List.forall_mem_cons]
      exact ⟨hs, hc, sinfColumn_range fmt x, List.forall_mem_nil _⟩
    exact fun z hz => ⟨hbound z hz, outValue_range hlegal (hbound z hz)⟩

end Sys2Proof.Machine

/-! Exceptions (60_exceptions.md): what each kind of edge answers, the one exceptional response
(R384), and that nothing stops a unit that exists (R380, R401). -/

namespace Sys2Proof.Machine

/-! ### What a step answers, by the kind of edge -/

/-- Parameters outside R11 and R41 make no unit (R401). -/
theorem step_of_not_supported {s : State} (h : s.build.supported = false) :
    step s = .refused .unsupportedBuild := by
  simp [step, h]

/-- An edge with `rst = 1` resets (R410). -/
theorem step_of_rst {s : State} (hsup : s.build.supported = true) (hrst : s.input.rst = true) :
    step s = .next s.resetEdge := by
  simp [step, hsup, hrst]

/-- Any other edge is a clock edge (R33). -/
theorem step_of_no_rst {s : State} (hsup : s.build.supported = true)
    (hrst : s.input.rst = false) : step s = clockEdge s s.input := by
  simp [step, hsup, hrst]

theorem rspValidAt_of_due {s : State} {inp : EdgeInput} {e : Entry} {rest : List Entry}
    (hrst : inp.rst = false) (hs : s.pending = e :: rest) (hwait : e.wait = 0) :
    s.rspValidAt inp = true := by
  simp [State.rspValidAt, State.oldestDue, hrst, hs, hwait]

/-- An edge at which the oldest command's response is offered. -/
theorem clockEdge_of_offered {s : State} {inp : EdgeInput} {r : Response}
    (hvalid : s.rspValidAt inp = true) (hrun : runOldest s = .next (s.drive r)) :
    clockEdge s inp = .next ((s.drive r).finishEdge inp (s.cmdReadyAt inp)) := by
  simp [clockEdge, hvalid, hrun]

/-- An edge at which no response is offered. -/
theorem clockEdge_of_not_offered {s : State} {inp : EdgeInput} (h : s.rspValidAt inp = false) :
    clockEdge s inp = .next (s.quiet.finishEdge inp (s.cmdReadyAt inp)) := by
  simp [clockEdge, h]

/-- A step at which the oldest command in flight is due and drives `r`. -/
theorem step_of_due {s : State} {e : Entry} {rest : List Entry} {r : Response}
    (hsup : s.build.supported = true) (hrst : s.input.rst = false)
    (hs : s.pending = e :: rest) (hwait : e.wait = 0) (hrun : runOldest s = .next (s.drive r)) :
    step s = .next ((s.drive r).finishEdge s.input (s.cmdReadyAt s.input)) :=
  (step_of_no_rst hsup hrst).trans (clockEdge_of_offered (rspValidAt_of_due hrst hs hwait) hrun)

/-- The host has a driven response after the edge exactly when it takes it. -/
theorem drive_finishEdge_delivered (s : State) (r : Response) (inp : EdgeInput) (ready : Bool) :
    ((s.drive r).finishEdge inp ready).delivered =
      if inp.rspReady then s.delivered ++ [r] else s.delivered := by
  simp [State.finishEdge_delivered]

/-- The triples in flight after an edge at which a response is driven. -/
theorem drive_finishEdge_triples {s : State} {e : Entry} {rest : List Entry}
    (hs : s.pending = e :: rest) (r : Response) :
    ((s.drive r).finishEdge s.input (s.cmdReadyAt s.input)).pending.map Entry.triple =
      (if s.input.rspReady then rest else e :: rest).map Entry.triple ++ acceptedNow s := by
  simp [finishEdge_triples (s.drive_build r), hs]

/-- Settles O7: the step is the one of any due command, and what `runOldest` drives is
`illegalResponse`. -/
theorem stepAnswersIllegalCommandInPlace : Obligations.StepAnswersIllegalCommandInPlace := by
  intro s e rest why hsup hrst hs hwait hdecode
  have hrun : runOldest s = .next (s.drive (illegalResponse s.build.fmt)) :=
    (runOldest_of_illegal hs hdecode).trans (raiseIllegal_cons hs)
  exact ⟨_, step_of_due hsup hrst hs hwait hrun, rfl, State.finishEdge_rspValid ..,
    State.finishEdge_rsp .., State.finishEdge_build .., drive_finishEdge_delivered ..,
    drive_finishEdge_triples hs _⟩

/-! ### Nothing stops the unit -/

/-- A clock edge answers, whether a response is offered at it or not (R380). -/
theorem exists_clockEdge_next (s : State) (inp : EdgeInput) : ∃ t, clockEdge s inp = .next t := by
  cases hvalid : s.rspValidAt inp with
  | false => exact ⟨_, clockEdge_of_not_offered hvalid⟩
  | true =>
    obtain ⟨-, e, rest, hs, -⟩ := State.rspValidAt_due hvalid
    obtain ⟨r, hrun⟩ := runOldest_cons hs
    exact ⟨_, clockEdge_of_offered hvalid hrun⟩

/-- Every step of a unit that exists answers (R380, R401). -/
theorem exists_step_next {s : State} (hsup : s.build.supported = true) :
    ∃ t, step s = .next t := by
  cases hrst : s.input.rst with
  | true => exact ⟨_, step_of_rst hsup hrst⟩
  | false => exact step_of_no_rst hsup hrst ▸ exists_clockEdge_next s s.input

/-! ### The formats that exist -/

theorem legal_iff (fmt : Format) : fmt.legal = true ↔ fmt.F + 4 ≤ fmt.W := decide_eq_true_iff

/-- A format that is made has the given numbers, and they are in range (R10, R11). -/
theorem legal_of_ofNumbers {W F : Nat} {fmt : Format} (h : Format.ofNumbers W F = some fmt) :
    fmt.W = W ∧ fmt.F = F ∧ fmt.legal = true := by
  rw [legal_iff]
  unfold Format.ofNumbers at h
  split_ifs at h with h32 h64 <;> cases h
  · exact ⟨h32.1.symm, rfl, Nat.add_le_add_right h32.2 4⟩
  · exact ⟨h64.1.symm, rfl, Nat.add_le_add_right h64.2 4⟩

/-- Every legal format is made from its own numbers (R10, R11). -/
theorem ofNumbers_of_legal {fmt : Format} (h : fmt.legal = true) :
    Format.ofNumbers fmt.W fmt.F = some fmt := by
  rw [legal_iff] at h
  obtain ⟨width, frac⟩ := fmt
  cases width with
  | w32 => exact if_pos ⟨rfl, Nat.le_of_add_le_add_right h⟩
  | w64 =>
    exact (if_neg (by simp [Format.W, Width.bits])).trans
      (if_pos ⟨rfl, Nat.le_of_add_le_add_right h⟩)

/-- The format made from two numbers is the legal one whose `W` and `F` they are. -/
theorem ofNumbers_eq_some_iff (W F : Nat) (fmt : Format) :
    Format.ofNumbers W F = some fmt ↔ fmt.W = W ∧ fmt.F = F ∧ fmt.legal = true := by
  refine ⟨legal_of_ofNumbers, ?_⟩
  rintro ⟨rfl, rfl, hlegal⟩
  exact ofNumbers_of_legal hlegal

/-- No format is made from any other numbers (R401). -/
theorem ofNumbers_eq_none_iff (W F : Nat) :
    Format.ofNumbers W F = none ↔ ¬((W = 32 ∨ W = 64) ∧ F ≤ W - 4) := by
  unfold Format.ofNumbers
  split_ifs <;> simp <;> omega

/-- Settles O51: a unit that exists answers at every kind of edge, and `step_build` keeps its
parameters. -/
theorem nothingStopsTheUnit : Obligations.NothingStopsTheUnit := by
  refine ⟨fun s hsup => ?_, fun s => step_of_not_supported, ofNumbers_eq_some_iff,
    ofNumbers_eq_none_iff⟩
  obtain ⟨t, hstep⟩ := exists_step_next hsup
  exact ⟨t, hstep, step_build hstep⟩

end Sys2Proof.Machine

/-! Constant time (70_reset_and_hazards.md R421): the timing of a unit after an edge is a function
of its timing before, so units that agree in timing go on agreeing, whatever their operands. -/

namespace Sys2Proof.Machine

/-! ### What agreement in timing gives -/

/-- Two units agree in timing when they agree in every field but operands and results. -/
theorem State.timing_eq_iff (s s' : State) : s.timing = s'.timing ↔
    s.build = s'.build ∧
    (s.pending.map fun e => (e.cmd, e.wait)) = (s'.pending.map fun e => (e.cmd, e.wait)) ∧
    s.cmdReady = s'.cmdReady ∧ s.rspValid = s'.rspValid ∧ s.resetWait = s'.resetWait ∧
    s.inputs.map EdgeInput.timing = s'.inputs.map EdgeInput.timing ∧ s.tick = s'.tick :=
  iff_of_eq (Timing.mk.injEq ..)

theorem EdgeInput.timing_eq_iff (inp inp' : EdgeInput) : inp.timing = inp'.timing ↔
    inp.rst = inp'.rst ∧ inp.cmdValid = inp'.cmdValid ∧ inp.cmd = inp'.cmd ∧
    inp.rspReady = inp'.rspReady :=
  iff_of_eq (EdgeTiming.mk.injEq ..)

theorem State.input_timing (s : State) :
    s.input.timing = (s.inputs.map EdgeInput.timing).headD idleInput.timing := by
  unfold State.input
  cases s.inputs <;> rfl

theorem State.oldestDue_eq (s : State) :
    s.oldestDue = (s.pending.map fun e => (e.cmd, e.wait)).head?.any (·.2 == 0) := by
  unfold State.oldestDue
  cases s.pending <;> rfl

section SameTiming

variable {s s' : State} (h : s.timing = s'.timing)
include h

theorem input_timing_congr : s.input.timing = s'.input.timing := by
  obtain ⟨-, -, -, -, -, hinputs, -⟩ := (State.timing_eq_iff s s').1 h
  rw [State.input_timing, State.input_timing, hinputs]

theorem oldestDue_congr : s.oldestDue = s'.oldestDue := by
  obtain ⟨-, hpending, -⟩ := (State.timing_eq_iff s s').1 h
  rw [State.oldestDue_eq, State.oldestDue_eq, hpending]

theorem pending_length_congr : s.pending.length = s'.pending.length := by
  obtain ⟨-, hpending, -⟩ := (State.timing_eq_iff s s').1 h
  simpa using congrArg List.length hpending

theorem pending_cmd_congr : s.pending.map Entry.cmd = s'.pending.map Entry.cmd := by
  obtain ⟨-, hpending, -⟩ := (State.timing_eq_iff s s').1 h
  simpa [Function.comp_def] using congrArg (List.map Prod.fst) hpending

/-- `cmd_ready` reads the number and words of the commands in flight, never an operand (R421). -/
theorem cmdReadyAt_congr {inp inp' : EdgeInput} (hinp : inp.timing = inp'.timing) :
    s.cmdReadyAt inp = s'.cmdReadyAt inp' := by
  obtain ⟨hbuild, -, -, -, hwait, -, htick⟩ := (State.timing_eq_iff s s').1 h
  obtain ⟨hrst, -⟩ := (EdgeInput.timing_eq_iff inp inp').1 hinp
  simp only [State.cmdReadyAt, State.hasRoom, State.willing, State.readyOwed, hbuild, hwait, htick,
    hrst, pending_length_congr h, pending_cmd_congr h]

end SameTiming

/-! ### What each kind of edge keeps -/

theorem resetEdge_timing_congr {s s' : State} (h : s.timing = s'.timing) :
    s.resetEdge.timing = s'.resetEdge.timing := by
  rw [State.timing_eq_iff] at h ⊢
  obtain ⟨hbuild, -, -, -, -, hinputs, htick⟩ := h
  simp [hbuild, hinputs, htick, List.map_tail]

/-- The timing of the commands in flight after an edge reads that of the commands in flight before
it, the word offered, and which transfers take place. -/
theorem finishEdge_pending_timing (s : State) (inp : EdgeInput) (ready : Bool) :
    ((s.finishEdge inp ready).pending.map fun e => (e.cmd, e.wait)) =
      ((if s.rspValid && inp.rspReady then (s.pending.map fun e => (e.cmd, e.wait)).tail
        else s.pending.map fun e => (e.cmd, e.wait)).map fun p => (p.1, p.2 - 1)) ++
      (if inp.cmdValid && ready then [(inp.cmd, latency s.build inp.cmd - 1)] else []) := by
  rw [State.finishEdge_pending, List.map_append]
  congr 1
  · split <;> simp [Function.comp_def, ← List.map_tail]
  · split <;> rfl

theorem finishEdge_timing_congr {s s' : State} {inp inp' : EdgeInput} (ready : Bool)
    (h : s.timing = s'.timing) (hinp : inp.timing = inp'.timing) :
    (s.finishEdge inp ready).timing = (s'.finishEdge inp' ready).timing := by
  rw [State.timing_eq_iff] at h ⊢
  obtain ⟨hbuild, hpending, -, hvalid, hwait, hinputs, htick⟩ := h
  obtain ⟨-, hoffered, hcmd, htaken⟩ := (EdgeInput.timing_eq_iff inp inp').1 hinp
  refine ⟨by simpa using hbuild, ?_, rfl, by simpa using hvalid, by simp [hwait],
    by simp [hinputs, List.map_tail], by simp [htick]⟩
  rw [finishEdge_pending_timing, finishEdge_pending_timing, hbuild, hpending, hvalid, hoffered,
    hcmd, htaken]

/-! ### What an edge does to the timing -/

/-- `s` with `rsp_valid` as it is at an edge without reset, and no response computed. -/
def State.offer (s : State) : State := { s with rspValid := s.oldestDue }

theorem State.drive_timing {s : State} (h : s.oldestDue = true) (r : Response) :
    (s.drive r).timing = s.offer.timing := by
  simp [State.offer, State.drive, State.timing, h]

theorem State.quiet_timing {s : State} (h : s.oldestDue = false) :
    s.quiet.timing = s.offer.timing := by
  simp [State.offer, State.quiet, State.timing, h]

theorem offer_timing_congr {s s' : State} (h : s.timing = s'.timing) :
    s.offer.timing = s'.offer.timing := by
  have hdue := oldestDue_congr h
  rw [State.timing_eq_iff] at h ⊢
  obtain ⟨hbuild, hpending, hready, -, hrest⟩ := h
  exact ⟨hbuild, hpending, hready, hdue, hrest⟩

/-- The timing after an edge, with no response in it: the one that is driven is not seen (R421). -/
theorem step_timing {s t : State} (h : step s = .next t) :
    t.timing = if s.input.rst then s.resetEdge.timing
      else (s.offer.finishEdge s.input (s.cmdReadyAt s.input)).timing := by
  obtain ⟨-, ⟨hrst, rfl⟩ | ⟨hrst, e, rest, r, hs, hwait, -, rfl⟩ | ⟨hrst, hdue, rfl⟩⟩ := step_next h
  · rw [if_pos hrst]
  · have hdue : s.oldestDue = true := by simp [State.oldestDue, hs, hwait]
    rw [hrst]
    exact finishEdge_timing_congr _ (State.drive_timing hdue r) rfl
  · rw [hrst]
    exact finishEdge_timing_congr _ (State.quiet_timing hdue) rfl

/-- One edge keeps two units in agreement. -/
theorem step_timing_congr {s s' t : State} (h : s.timing = s'.timing) (hstep : step s = .next t) :
    ∃ t', step s' = .next t' ∧ t.timing = t'.timing := by
  have hbuild : s.build = s'.build := congrArg Timing.build h
  have hinput := input_timing_congr h
  have hrst : s.input.rst = s'.input.rst := congrArg EdgeTiming.rst hinput
  obtain ⟨t', hstep'⟩ := exists_step_next (hbuild ▸ (step_next hstep).1)
  refine ⟨t', hstep', ?_⟩
  rw [step_timing hstep, step_timing hstep', resetEdge_timing_congr h, hrst,
    cmdReadyAt_congr h hinput, finishEdge_timing_congr _ (offer_timing_congr h) hinput]

/-! ### What a run does to the timing -/

theorem core_run_succ_of_step {M : Host.Core} {n : Nat} {s t : M.State} (h : M.step s = .next t) :
    M.run (n + 1) s = M.run n t := by
  simp only [Host.Core.run, h]

/-- A first edge, then `n` more. -/
theorem run_succ_of_step {n : Nat} {s t : State} (h : step s = .next t) :
    run (n + 1) s = run n t := core_run_succ_of_step (M := core) h

theorem run_timing_congr {n : Nat} {s s' t : State} (h : s.timing = s'.timing)
    (hrun : run n s = .next t) : ∃ t', run n s' = .next t' ∧ t.timing = t'.timing := by
  induction n generalizing s s' with
  | zero => cases hrun; exact ⟨s', rfl, h⟩
  | succ n ih =>
    obtain ⟨u, hstep, hrest⟩ := run_succ hrun
    obtain ⟨u', hstep', hu⟩ := step_timing_congr h hstep
    rw [run_succ_of_step hstep']
    exact ih hu hrest

/-- Settles O60: `cmd_ready` and `rsp_valid` are fields of the timing, which every run keeps in
agreement. -/
theorem handshakeTimingIsIndependentOfOperands :
    Obligations.HandshakeTimingIsIndependentOfOperands := by
  intro n s s' t h hrun
  obtain ⟨t', hrun', ht⟩ := run_timing_congr h hrun
  exact ⟨t', hrun', ht, congrArg Timing.cmdReady ht, congrArg Timing.rspValid ht⟩

end Sys2Proof.Machine

/-! The encoding, both ways (30_encoding.md R100 to R109): each word within R107 is that of one
instruction, and the words that the assembler sends (R116). -/

namespace Sys2Proof

open Laws.EncodedFields (fields_toNat)

/-- Settles O1: what the decoder reads from the word of an instruction within the limits of R107. -/
theorem decodeOfEncodeIsTheInstruction : Obligations.DecodeOfEncodeIsTheInstruction :=
  fun _ _ => decode_encode_of_wellFormed

/-! ### The word that a legal word's fields make up (R100, R104) -/

/-- A word with `RSV = 000` is made up of its other three fields. -/
theorem fields_of_rsvField_eq_zero {c : Cmd} (h : rsvField c = 0#3) :
    fields (opField c) (immField c) (signField c) = c := by
  rw [rsvField_eq_zero_iff] at h
  apply BitVec.eq_of_toNat_eq
  rw [fields_toNat, opField_toNat, immField_toNat]
  cases hs : signField c with
  | true =>
    rw [signField_iff] at hs
    simp only [Bool.toNat_true]
    omega
  | false =>
    rw [← Bool.not_eq_true, signField_iff] at hs
    simp only [Bool.toNat_false]
    omega

/-- An `OP` of the plain form has the `OP` number of its instruction, whose word has `IMM = 0` and
`S = 0` and is within R107 at both widths. -/
def Form.IsPlainOp (op : BitVec 6) : Form → Bool
  | .plain i => encode i == fields op 0#6 false && WellFormed .w32 i && WellFormed .w64 i
  | .shift | .select | .literal | .reserved => true

theorem opMap_isPlainOp : ∀ op : BitVec 6, (opMap op).IsPlainOp op = true := by decide

theorem encode_of_opMap_plain {op : BitVec 6} {i : Instr} (h : opMap op = .plain i) (w : Width) :
    WellFormed w i = true ∧ encode i = fields op 0#6 false := by
  have hplain := opMap_isPlainOp op
  simp only [h, Form.IsPlainOp, Bool.and_eq_true, beq_iff_eq] at hplain
  obtain ⟨⟨hword, h32⟩, h64⟩ := hplain
  cases w with
  | w32 => exact ⟨h32, hword⟩
  | w64 => exact ⟨h64, hword⟩

/-- The `OP` numbers of the forms whose `IMM` is an operand (R109). -/
theorem eq_of_opMap_operand (op : BitVec 6) :
    (opMap op = .shift → op = 0x18#6) ∧ (opMap op = .literal → op = 0x1E#6) ∧
      (opMap op = .select → op = 0x1F#6) := by
  have hop := opMap_hasOp op
  refine ⟨fun h => ?_, fun h => ?_, fun h => ?_⟩ <;>
  · rw [h, Form.hasOp, beq_iff_eq] at hop
    exact BitVec.eq_of_toNat_eq hop

theorem ifUnsigned_eq_instr_iff {c : Cmd} {d : Decoded} {i : Instr} :
    ifUnsigned c d = .instr i ↔ signField c = false ∧ d = .instr i := by
  cases hs : signField c <;> simp [ifUnsigned, hs]

theorem ite_eq_instr_iff {p : Prop} [Decidable p] {i j : Instr} {why : Illegal} :
    (if p then Decoded.instr i else .illegal why) = .instr j ↔ p ∧ i = j := by
  by_cases hp : p <;> simp [hp]

/-- Settles O2: by the form of the `OP`, the instruction's word has the fields of the word that was
decoded. -/
theorem encodeOfDecodeIsTheWord : Obligations.EncodeOfDecodeIsTheWord := by
  intro w c i h
  unfold decode at h
  split at h
  · cases h
  next hrsv =>
  have hc := fields_of_rsvField_eq_zero (not_not.mp hrsv)
  obtain ⟨hshift, hlit, hsel⟩ := eq_of_opMap_operand (opField c)
  split at h
  · cases h
  · next j hform =>
    obtain ⟨hsign, h⟩ := ifUnsigned_eq_instr_iff.mp h
    obtain ⟨himm, rfl⟩ := ite_eq_instr_iff.mp h
    obtain ⟨hwf, hword⟩ := encode_of_opMap_plain hform w
    exact ⟨hwf, by rw [hword, ← himm, ← hsign, hc]⟩
  · next hform =>
    obtain ⟨hsign, h⟩ := ifUnsigned_eq_instr_iff.mp h
    obtain ⟨hle, rfl⟩ := ite_eq_instr_iff.mp h
    exact ⟨decide_eq_true hle, by rw [encode, opcode, ← hshift hform, ← hsign, hc]⟩
  · next hform =>
    obtain ⟨hsign, h⟩ := ifUnsigned_eq_instr_iff.mp h
    obtain ⟨hle, rfl⟩ := ite_eq_instr_iff.mp h
    exact ⟨decide_eq_true hle, by rw [encode, opcode, ← hsel hform, ← hsign, hc]⟩
  · next hform =>
    obtain ⟨hle, rfl⟩ := ite_eq_instr_iff.mp h
    exact ⟨decide_eq_true hle, by rw [encode, opcode, ← hlit hform, hc]⟩

/-- Settles O4: ten words, decoded at each width. -/
theorem tableWordsDecode : Obligations.TableWordsDecode := by
  intro w
  cases w <;> decide

end Sys2Proof

namespace Sys2Proof.Machine

/-! ### The assembler's expansions (R116) -/

/-- `NMAX` digits make a number that fits a port (R13). -/
theorem ten_pow_nmax_lt (w : Width) : 10 ^ w.nmax < 2 ^ w.bits := by cases w <;> decide

theorem digitsValue_lt (digits : List (Fin 10)) : digitsValue digits < 10 ^ digits.length := by
  induction digits using List.reverseRecOn with
  | nil => decide
  | append_singleton digits d ih =>
    have hvalue : digitsValue (digits ++ [d]) = 10 * digitsValue digits + d := by
      simp [digitsValue]
    rw [hvalue, List.length_append, List.length_singleton, pow_succ]
    omega

theorem nmax_le (w : Width) : w.nmax ≤ 19 := by cases w <;> decide

/-- At most `NMAX` digits make a number that fits a port. -/
theorem digitsValue_fits {w : Width} {digits : List (Fin 10)} (h : digits.length ≤ w.nmax) :
    digitsValue digits < 2 ^ w.bits :=
  calc digitsValue digits < 10 ^ digits.length := digitsValue_lt digits
    _ ≤ 10 ^ w.nmax := Nat.pow_le_pow_right (by decide) h
    _ < 2 ^ w.bits := ten_pow_nmax_lt w

/-- Settles O5: a LITD's digit count is within R107, and both its numbers fit their ports. -/
theorem pseudoInstructionsExpand : Obligations.PseudoInstructionsExpand := by
  refine ⟨by decide, fun fmt negative whole fraction hwhole => ⟨fun hle => ?_, fun hgt => ?_⟩⟩
  · have hn : (BitVec.ofNat 6 fraction.length).toNat = fraction.length :=
      Nat.mod_eq_of_lt (hle.trans_lt ((nmax_le fmt.width).trans_lt (by decide)))
    refine ⟨_, hn, if_pos ⟨hle, hwhole, digitsValue_fits hle⟩, ?_⟩
    exact decode_encode_of_wellFormed (decide_eq_true (hn.symm ▸ hle))
  · exact if_neg fun ⟨hle, _⟩ => hle.not_gt hgt

end Sys2Proof.Machine

/-! The result words: what each operation can answer with (30_encoding.md R83, R91, R94), and that it
is on the `W` lines of its port (10_state.md R33). -/

namespace Sys2Proof.Machine

/-! ### FIX results (R83, R86, R87) -/

/-- A FIX result: an encoded number or one of the three canonical patterns. -/
def IsFix (fmt : Format) (y : Word) : Prop :=
  (∃ n, y = enc fmt n) ∨ y = NAN fmt ∨ y = PINF fmt ∨ y = NINF fmt

section IsFix

variable (fmt : Format)

@[simp] theorem isFix_enc (n : Int) : IsFix fmt (enc fmt n) := .inl ⟨n, rfl⟩

@[simp] theorem isFix_NAN : IsFix fmt (NAN fmt) := .inr (.inl rfl)

@[simp] theorem isFix_PINF : IsFix fmt (PINF fmt) := .inr (.inr (.inl rfl))

@[simp] theorem isFix_NINF : IsFix fmt (NINF fmt) := .inr (.inr (.inr rfl))

@[simp] theorem isFix_infOf (negative : Bool) : IsFix fmt (infOf fmt negative) := by
  cases negative <;> simp [infOf]

@[simp] theorem isFix_sat (n : Int) : IsFix fmt (sat fmt n) := by
  unfold sat
  split_ifs <;> simp

@[simp] theorem isFix_ZERO : IsFix fmt (ZERO fmt) := isFix_enc fmt 0

@[simp] theorem isFix_ONE : IsFix fmt (ONE fmt) := isFix_enc fmt _

@[simp] theorem isFix_encWrapped (n : Int) : IsFix fmt (encWrapped fmt n) := isFix_enc fmt _

end IsFix

/-! ### Every operation with a FIX result gives one (R105) -/

section Operations

variable (fmt : Format) (bld : Build) (a b : Word)

@[simp] theorem isFix_negate : IsFix fmt (negate fmt a) := by
  unfold negate
  split_ifs <;> simp

@[simp] theorem isFix_absolute : IsFix fmt (absolute fmt a) := by
  unfold absolute
  split_ifs <;> simp

@[simp] theorem isFix_addition : IsFix fmt (addition fmt a b) := by
  unfold addition
  split_ifs <;> simp

@[simp] theorem isFix_subtraction : IsFix fmt (subtraction fmt a b) := by
  unfold subtraction
  split_ifs <;> simp

@[simp] theorem isFix_multiply : IsFix fmt (multiply fmt a b) := by
  unfold multiply
  split_ifs <;> simp

@[simp] theorem isFix_divide : IsFix fmt (divide fmt a b) := by
  unfold divide
  split_ifs <;> simp

@[simp] theorem isFix_roundFix (part : Int → Int) : IsFix fmt (roundFix fmt part a) := by
  unfold roundFix
  split_ifs <;> simp

@[simp] theorem isFix_fromDouble (d : BitVec 64) : IsFix fmt (fromDouble fmt d) := by
  unfold fromDouble
  split_ifs <;> simp

@[simp] theorem isFix_literal (sign : Bool) (n : Nat) : IsFix fmt (literal fmt sign n a b) :=
  isFix_encWrapped fmt _

theorem isFix_constant {sel : Nat} {y : Word} (h : constant fmt sel = some y) : IsFix fmt y := by
  unfold constant at h
  split at h <;> cases h <;> simp

@[simp] theorem isFix_squareRoot : IsFix fmt (squareRoot fmt a) := by
  unfold squareRoot
  split_ifs <;> simp

@[simp] theorem isFix_expRef (x : Int) : IsFix fmt (expRef fmt x) := by
  simp only [expRef]
  split_ifs <;> simp

@[simp] theorem isFix_expOpen (x : Int) : IsFix fmt (expOpen fmt x) := by
  unfold expOpen
  split_ifs <;> simp

@[simp] theorem isFix_exponential : IsFix bld.fmt (exponential bld a) := by
  unfold exponential
  split_ifs
  · simp
  · simp
  · simp
  · split <;> simp

@[simp] theorem isFix_logRef (base : LogBase) (m : Nat) : IsFix fmt (logRef fmt base m) := by
  cases base <;> exact isFix_sat fmt _

@[simp] theorem isFix_logOpen (base : LogBase) (m : Nat) : IsFix fmt (logOpen fmt base m) := by
  cases base <;> simp only [logOpen] <;> split_ifs <;> simp

@[simp] theorem isFix_logOf (base : LogBase) (m : Nat) : IsFix bld.fmt (logOf bld base m) := by
  unfold logOf
  split <;> simp

@[simp] theorem isFix_logarithm (base : LogBase) : IsFix bld.fmt (logarithm bld base a) := by
  unfold logarithm
  split_ifs <;> simp

@[simp] theorem isFix_power : IsFix bld.fmt (power bld a b) := by
  simp only [power]
  split_ifs <;> simp

@[simp] theorem isFix_sine : IsFix bld.fmt (sine bld a) := by
  unfold sine
  split_ifs
  · simp
  · dsimp only
    split <;> simp

@[simp] theorem isFix_cosine : IsFix bld.fmt (cosine bld a) := by
  unfold cosine
  split_ifs
  · simp
  · dsimp only
    split <;> simp

@[simp] theorem isFix_tangent : IsFix bld.fmt (tangent bld a) := isFix_divide _ _ _

@[simp] theorem isFix_fastSine : IsFix bld.fmt (fastSine bld a) := by
  unfold fastSine
  split_ifs
  · simp
  · dsimp only
    split <;> simp

end Operations

theorem isFix_responseOf {i : Instr} (h : FixResult i = true) (bld : Build) (a b : Word) :
    IsFix bld.fmt (responseOf i bld a b).y := by
  cases i with
  | isneg | isnan | ispinf | isninf | eq | eqn | cmp | floori | ceili | rndei | rndhui | rshre
  | todbl => simp [FixResult, unaryFix, binaryFix] at h
  | lit sign n =>
    simp only [responseOf]
    split
    · exact isFix_literal ..
    · exact isFix_NAN _
  | const sel =>
    simp only [responseOf]
    split
    · next hy => exact isFix_constant _ hy
    · exact isFix_NAN _
  | _ => simp [responseOf, resultY]

/-- Settles O47: a FIX result is an encoded number, which is a normal, or a canonical pattern. -/
theorem specialResultsAreCanonical : Obligations.SpecialResultsAreCanonical := by
  intro bld i a b y hfix hy
  rw [resultOf_eq_responseOf, Option.some_inj] at hy
  obtain ⟨n, hn⟩ | hspecial := hy ▸ isFix_responseOf hfix bld a b
  · exact .inl (hn ▸ isNormal_enc bld.fmt n)
  · exact .inr hspecial

/-! ### Every result is on the lines of its port (R33) -/

theorem fits_of_isFix {fmt : Format} {y : Word} (h : IsFix fmt y) : Fits fmt.W y := by
  obtain ⟨n, rfl⟩ | rfl | rfl | rfl := h <;> exact word_fits fmt.width _

theorem fits_roundInt (fmt : Format) (part : Int → Int) (a : Word) :
    Fits fmt.W (roundInt fmt part a) := by
  unfold roundInt
  split_ifs <;> exact word_fits fmt.width _

theorem fits_zero (fmt : Format) : Fits fmt.W 0 := Nat.two_pow_pos fmt.W

/-- A binary64 pattern is on the lines of one 64-bit port or of two 32-bit ones (R62). -/
theorem fits_resultDbl (fmt : Format) (d : BitVec 64) :
    Fits fmt.W (resultDbl fmt d).y ∧ Fits fmt.W (resultDbl fmt d).yh := by
  have hd := d.isLt
  obtain ⟨w, F⟩ := fmt
  cases w with
  | w64 => exact ⟨hd, fits_zero _⟩
  | w32 =>
    rw [resultDbl_of_w32 rfl]
    simp only [Fits, BitVec.toNat_ofNat, Format.W, Width.bits]
    omega

theorem fits_responseOf_y (i : Instr) (bld : Build) (a b : Word) :
    Fits bld.fmt.W (responseOf i bld a b).y := by
  cases i with
  | isneg | isnan | ispinf | isninf | eq | eqn | cmp => exact word_fits bld.fmt.width _
  | floori | ceili | rndei | rndhui => exact fits_roundInt ..
  | rshre count =>
    simp only [responseOf]
    split <;> exact word_fits bld.fmt.width _
  | todbl =>
    obtain ⟨hy, -⟩ := fits_resultDbl bld.fmt (toDouble bld.fmt a)
    exact hy
  | _ => exact fits_of_isFix (isFix_responseOf rfl bld a b)

theorem fits_responseOf_yh {i : Instr} {bld : Build} (h : WellFormed bld.fmt.width i = true)
    (a b : Word) : Fits bld.fmt.W (responseOf i bld a b).yh := by
  by_cases htodbl : i = .todbl ∧ bld.fmt.width = .w32
  · obtain ⟨rfl, -⟩ := htodbl
    obtain ⟨-, hyh⟩ := fits_resultDbl bld.fmt (toDouble bld.fmt a)
    exact hyh
  · obtain ⟨-, hyh⟩ := responseOf_of_wellFormed h a b
    rw [hyh htodbl]
    exact fits_zero bld.fmt

/-! ### Every response is one that the unit can give (R33, R112, R384) -/

theorem illegalResponse_wf (fmt : Format) : (illegalResponse fmt).Wf fmt :=
  ⟨fits_of_isFix (isFix_NAN fmt), fits_zero fmt, fun _ => rfl, fun _ => ⟨rfl, rfl⟩⟩

theorem responseOf_wf (i : Instr) (bld : Build) (a b : Word) :
    (responseOf i bld a b).Wf bld.fmt := by
  cases hwf : WellFormed bld.fmt.width i with
  | false =>
    rw [responseOf_of_not_wellFormed hwf]
    exact illegalResponse_wf bld.fmt
  | true =>
    obtain ⟨hill, hyh⟩ := responseOf_of_wellFormed hwf a b
    refine ⟨fits_responseOf_y i bld a b, fits_responseOf_yh hwf a b, fun hw => ?_, fun h => ?_⟩
    · exact hyh fun ⟨_, hw'⟩ => Width.noConfusion (hw'.symm.trans hw)
    · rw [hill] at h
      cases h

/-- What `runOldest` drives is a response that the unit can give. -/
theorem runOldest_drive_wf {s : State} {r : Response} (h : runOldest s = .next (s.drive r)) :
    r.Wf s.build.fmt := by
  obtain ⟨e, rest, -, hs, -⟩ := runOldest_next h
  cases hd : decode s.build.fmt.width e.cmd with
  | instr i =>
    rw [runOldest_of_instr hs hd, exec_cons hs, Host.Outcome.next.injEq] at h
    obtain rfl := Option.some.inj (congrArg State.rsp h)
    exact responseOf_wf i s.build e.a e.b
  | illegal why =>
    rw [runOldest_of_illegal hs hd, raiseIllegal_cons hs, Host.Outcome.next.injEq] at h
    obtain rfl := Option.some.inj (congrArg State.rsp h)
    exact illegalResponse_wf s.build.fmt

end Sys2Proof.Machine

/-! The invariant of the unit (10_state.md R41, R43; 60_exceptions.md R384, R401; 70_reset_and_hazards.md
R412, R420): every part of an edge keeps it. -/

namespace Sys2Proof.Machine

/-! ### The commands in flight after an edge -/

theorem Entry.Wf.age {bld : Build} {e : Entry} (h : e.Wf bld) :
    Entry.Wf bld { e with wait := e.wait - 1 } := by
  obtain ⟨ha, hb, hwait⟩ := h
  exact ⟨ha, hb, (Nat.sub_le _ 1).trans_lt hwait⟩

/-- A command joins with its operands on their lines, and one cycle of its latency gone. -/
theorem accepted_wf (bld : Build) (inp : EdgeInput) :
    Entry.Wf bld { cmd := inp.cmd, a := onLines bld.fmt.W inp.a, b := onLines bld.fmt.W inp.b,
                   wait := latency bld inp.cmd - 1 } :=
  ⟨onLines_fits bld.fmt.width inp.a, onLines_fits bld.fmt.width inp.b,
    Nat.sub_lt (one_le_latency bld inp.cmd) one_pos⟩

theorem finishEdge_entries_wf {s : State} (h : ∀ e ∈ s.pending, e.Wf s.build) (inp : EdgeInput)
    (ready : Bool) : ∀ e ∈ (s.finishEdge inp ready).pending, e.Wf s.build := by
  intro e he
  rw [State.finishEdge_pending, List.mem_append, List.mem_map] at he
  obtain ⟨e', he', rfl⟩ | he := he
  · refine (h e' ?_).age
    split at he'
    · exact List.mem_of_mem_tail he'
    · exact he'
  · split at he
    · rw [List.mem_singleton.mp he]
      exact accepted_wf s.build inp
    · cases he

/-- A unit that is ready only with room never holds more than `DEPTH` commands (R41, R43). -/
theorem finishEdge_length_le {s : State} {inp : EdgeInput} {ready : Bool}
    (h : s.pending.length ≤ s.build.depth)
    (hroom : ready = true → s.pending.length < s.build.depth) :
    (s.finishEdge inp ready).pending.length ≤ s.build.depth := by
  have hkept : (if s.rspValid && inp.rspReady then s.pending.tail
      else s.pending).length ≤ s.pending.length := by
    split <;> simp
  rw [State.finishEdge_pending, List.length_append, List.length_map]
  cases haccept : inp.cmdValid && ready with
  | true =>
    have hlt := hroom (Bool.and_elim_right haccept)
    rw [if_pos rfl, List.length_singleton]
    omega
  | false => simpa using hkept.trans h

/-- Until `cmd_ready` has been 1 nothing joins what is in flight (R412). -/
theorem finishEdge_pending_of_not_ready {s : State} (h : s.pending = []) (inp : EdgeInput) :
    (s.finishEdge inp false).pending = [] := by
  simp [State.finishEdge_pending, h]

theorem finishEdge_resetWait_le {s : State} {inp : EdgeInput} {ready : Bool} {R : Nat}
    (h : ∀ k ∈ s.resetWait.toList, k ≤ R ∧ s.pending = []) :
    ∀ k ∈ (s.finishEdge inp ready).resetWait.toList,
      k ≤ R ∧ (s.finishEdge inp ready).pending = [] := by
  intro k hk
  rw [State.finishEdge_resetWait] at hk
  cases ready with
  | true => simp [nextResetWait] at hk
  | false =>
    obtain ⟨j, hj, rfl⟩ : ∃ j, s.resetWait = some j ∧ j - 1 = k := by
      simpa [nextResetWait] using hk
    obtain ⟨hle, hempty⟩ := h j (by simp [hj])
    exact ⟨(Nat.sub_le j 1).trans hle, finishEdge_pending_of_not_ready hempty inp⟩

/-! ### Each part of an edge keeps the invariant -/

theorem State.Inv.drive {s : State} (h : s.Inv) {r : Response} (hr : r.Wf s.build.fmt) :
    (s.drive r).Inv := by
  obtain ⟨hsup, hlen, hpending, -, -, hdelivered, hwait⟩ := h
  exact ⟨hsup, hlen, hpending, rfl, by simpa using hr, hdelivered, hwait⟩

theorem State.Inv.quiet {s : State} (h : s.Inv) : s.quiet.Inv := by
  obtain ⟨hsup, hlen, hpending, -, -, hdelivered, hwait⟩ := h
  exact ⟨hsup, hlen, hpending, rfl, by simp, hdelivered, hwait⟩

theorem State.Inv.resetEdge {s : State} (h : s.Inv) : s.resetEdge.Inv := by
  obtain ⟨hsup, -, -, -, -, hdelivered, -⟩ := h
  exact ⟨hsup, Nat.zero_le _, by simp, rfl, by simp, hdelivered, by simp⟩

theorem State.Inv.finishEdge {s : State} (h : s.Inv) (inp : EdgeInput) {ready : Bool}
    (hroom : ready = true → s.pending.length < s.build.depth) :
    (s.finishEdge inp ready).Inv := by
  obtain ⟨hsup, hlen, hpending, hvalid, hrsp, hdelivered, hwait⟩ := h
  have hgiven : ∀ r ∈ (s.finishEdge inp ready).delivered, r.Wf s.build.fmt := by
    intro r hr
    rw [State.finishEdge_delivered] at hr
    split at hr
    · exact (List.mem_append.mp hr).elim (hdelivered r) (hrsp r)
    · exact hdelivered r hr
  simp only [State.Inv, State.finishEdge_build, State.finishEdge_rspValid, State.finishEdge_rsp]
  exact ⟨hsup, finishEdge_length_le hlen hroom, finishEdge_entries_wf hpending inp ready, hvalid,
    hrsp, hgiven, finishEdge_resetWait_le hwait⟩

/-- Settles O49: an edge is a reset, or it drives a response or none and then finishes; each of these
keeps the invariant. -/
theorem stepKeepsTheInvariant : Obligations.StepKeepsTheInvariant := by
  intro s t h hstep
  have hroom (hready : s.cmdReadyAt s.input = true) : s.pending.length < s.build.depth :=
    have ⟨_, hlt⟩ := State.cmdReadyAt_room hready
    hlt
  obtain ⟨-, ⟨-, rfl⟩ | ⟨-, e, rest, r, -, -, hrun, rfl⟩ | ⟨-, -, rfl⟩⟩ := step_next hstep
  · exact h.resetEdge
  · exact (h.drive (runOldest_drive_wf hrun)).finishEdge s.input hroom
  · exact h.quiet.finishEdge s.input hroom

/-- Settles O50: right after a reset nothing is in flight and no response has been given. -/
theorem resetMeetsTheInvariant : Obligations.ResetMeetsTheInvariant :=
  ⟨rfl, Nat.zero_le _, by simp [State.reset], rfl, by simp [State.reset], by simp [State.reset],
    by simp [State.reset]⟩

/-- Settles O9: `exec` drives a response, which sets the response ports and nothing else. -/
theorem instructionsChangeOnlyTheResponsePorts :
    Obligations.InstructionsChangeOnlyTheResponsePorts := by
  intro i s t h
  obtain ⟨e, rest, -, rfl⟩ := exec_next h
  exact ⟨rfl, rfl, rfl, rfl, rfl, rfl, rfl, rfl, _, rfl⟩

end Sys2Proof.Machine

/-! The handshake (10_state.md R33, R34, R43; 70_reset_and_hazards.md R410 to R412, R420, R426): what
one edge offers, delivers and keeps in flight, and what a run of edges does to the commands in
flight. -/

namespace Sys2Proof.Machine

/-! ### One edge (R33, R34, R43) -/

/-- Settles O6: `exec` drives `r`, so the step is that of a due command. -/
theorem stepRunsTheOldestCommand : Obligations.StepRunsTheOldestCommand := by
  intro s t e rest i r hsup hrst hs hwait hdecode hexec hr
  obtain ⟨_, _, -, rfl⟩ := exec_next hexec
  obtain rfl := Option.some.inj hr
  have hrun := (runOldest_of_instr hs hdecode).trans hexec
  exact ⟨_, step_of_due hsup hrst hs hwait hrun, rfl, State.finishEdge_rspValid ..,
    State.finishEdge_rsp .., drive_finishEdge_delivered .., drive_finishEdge_triples hs _⟩

/-- Settles O52: an edge with `rst = 1` answers `resetEdge`. -/
theorem resetEdgeDropsTheCommandsInFlight : Obligations.ResetEdgeDropsTheCommandsInFlight :=
  fun _ hsup hrst => ⟨_, step_of_rst hsup hrst, rfl, rfl, rfl, rfl, rfl, rfl, rfl⟩

theorem oldestDue_iff (s : State) :
    s.oldestDue = true ↔ ∃ e rest, s.pending = e :: rest ∧ e.wait = 0 := by
  unfold State.oldestDue
  cases s.pending <;> simp

theorem step_cmdReady {s t : State} (h : step s = .next t) :
    t.cmdReady = s.cmdReadyAt s.input := by
  obtain ⟨-, ⟨hrst, rfl⟩ | ⟨-, e, rest, r, -, -, -, rfl⟩ | ⟨-, -, rfl⟩⟩ := step_next h
  · simp [State.cmdReadyAt, hrst]
  · rfl
  · rfl

theorem step_rspValid {s t : State} (h : step s = .next t) :
    t.rspValid = s.rspValidAt s.input := by
  have ht := congrArg Timing.rspValid (step_timing h)
  cases hrst : s.input.rst with
  | true => simpa [State.rspValidAt, State.timing, hrst] using ht
  | false => simpa [State.rspValidAt, State.timing, State.offer, hrst] using ht

theorem step_rsp_of_not_valid {s t : State} (h : step s = .next t) (hvalid : t.rspValid = false) :
    t.rsp = none := by
  obtain ⟨-, ⟨-, rfl⟩ | ⟨-, e, rest, r, -, -, -, rfl⟩ | ⟨-, -, rfl⟩⟩ := step_next h
  · rfl
  · simp at hvalid
  · simp

/-- Where no response transfers, none is delivered and no command leaves. -/
theorem step_of_no_transfer {s t : State} (h : step s = .next t)
    (hno : t.rspValid = false ∨ s.input.rspReady = false) :
    t.delivered = s.delivered ∧ (s.input.rst = false →
      t.pending.map Entry.triple = s.pending.map Entry.triple ++ acceptedNow s) := by
  obtain ⟨-, ⟨hrst, rfl⟩ | ⟨-, e, rest, r, hs, -, -, rfl⟩ | ⟨-, -, rfl⟩⟩ := step_next h
  · exact ⟨rfl, fun hrst' => by rw [hrst] at hrst'; cases hrst'⟩
  · have hready : s.input.rspReady = false := hno.resolve_left (by simp)
    rw [drive_finishEdge_delivered, drive_finishEdge_triples hs, hready, ← hs]
    exact ⟨rfl, fun _ => rfl⟩
  · rw [State.finishEdge_delivered, finishEdge_triples s.quiet_build]
    exact ⟨rfl, fun _ => rfl⟩

/-- Settles O53: `cmd_ready` and `rsp_valid` after an edge, and where no response transfers. -/
theorem handshakeBounds : Obligations.HandshakeBounds := by
  intro s t h
  have hready := step_cmdReady h
  have hvalid := step_rspValid h
  refine ⟨fun hrst => ?_, fun hfull => ?_, fun hempty => ?_, ?_, step_rsp_of_not_valid h,
    step_of_no_transfer h⟩
  · simp [hready, hvalid, State.cmdReadyAt, State.rspValidAt, hrst]
  · simp [hready, State.cmdReadyAt, State.hasRoom, hfull.not_gt]
  · simp [hvalid, State.rspValidAt, State.oldestDue, hempty]
  · simp [hvalid, State.rspValidAt, oldestDue_iff]

/-! ### The pins at an edge at which no command transfers (R34) -/

section Pins

variable {s : State} {inp : EdgeInput} {later : List EdgeInput} (c : Cmd) (a b : Word)

/-- The end of an edge at which no command transfers reads `rsp_ready` alone of the pins. -/
theorem finishEdge_congr_pins {ready : Bool} (hinputs : s.inputs = inp :: later)
    (hno : (inp.cmdValid && ready) = false) :
    State.finishEdge { s with inputs := { inp with cmd := c, a := a, b := b } :: later }
      { inp with cmd := c, a := a, b := b } ready = s.finishEdge inp ready := by
  simp only [State.finishEdge, hno, Bool.false_eq_true, if_false, hinputs]
  split <;> rfl

theorem clockEdge_congr_pins (hinputs : s.inputs = inp :: later)
    (hno : (inp.cmdValid && s.cmdReadyAt inp) = false) :
    clockEdge { s with inputs := { inp with cmd := c, a := a, b := b } :: later }
      { inp with cmd := c, a := a, b := b } = clockEdge s inp := by
  cases hvalid : s.rspValidAt inp with
  | false =>
    rw [clockEdge_of_not_offered hvalid, clockEdge_of_not_offered (by exact hvalid)]
    exact congrArg _ (finishEdge_congr_pins (s := s.quiet) c a b hinputs hno)
  | true =>
    obtain ⟨-, e, rest, hs, -⟩ := State.rspValidAt_due hvalid
    obtain ⟨r, hexec, hrun⟩ := runOldest_eq_execute hs
    obtain ⟨r', hexec', hrun'⟩ := runOldest_eq_execute
      (s := { s with inputs := { inp with cmd := c, a := a, b := b } :: later }) hs
    obtain rfl : r = r' := Option.some.inj (hexec.symm.trans hexec')
    rw [clockEdge_of_offered hvalid hrun, clockEdge_of_offered (by exact hvalid) hrun']
    exact congrArg _ (finishEdge_congr_pins (s := s.drive r) c a b hinputs hno)

end Pins

theorem step_congr {s s' : State} (hbuild : s.build = s'.build)
    (hrst : s.input.rst = s'.input.rst) (hreset : s.resetEdge = s'.resetEdge)
    (hclock : clockEdge s s.input = clockEdge s' s'.input) : step s = step s' := by
  simp only [step, hbuild, hrst, hreset, hclock]

/-- Settles O54: a reset edge reads no pin but `rst`, and a clock edge reads `cmd`, `a` and `b` at a
transfer only. -/
theorem operandsAreSampledAtTheTransferOnly : Obligations.OperandsAreSampledAtTheTransferOnly := by
  intro s inp later c a b hinputs hno
  have hinput : s.input = inp := by rw [State.input, hinputs, List.headD_cons]
  refine step_congr rfl (by rw [hinput]; rfl) (by simp [State.resetEdge, hinputs]) ?_
  rw [hinput]
  exact clockEdge_congr_pins c a b hinputs (by simpa [imp_iff_not_or] using hno)

/-! ### The count to RST_READY (R412) -/

/-- Once the count is owed, a unit with nothing in flight is ready at the next edge without reset. -/
theorem cmdReadyAt_of_readyOwed {s : State} (hsup : s.build.supported = true)
    (hempty : s.pending = []) (hwait : s.resetWait = some 0) (hrst : s.input.rst = false) :
    s.cmdReadyAt s.input = true := by
  have hroom : 0 < s.build.depth := by
    rw [Build.supported, Bool.and_eq_true, decide_eq_true_iff] at hsup
    obtain ⟨-, hdepth⟩ := hsup
    exact hdepth
  have hwilling : s.willing = true := by
    unfold State.willing
    split <;> simp [State.readyOwed, hwait]
  simp [State.cmdReadyAt, State.hasRoom, hrst, hempty, hroom, hwilling]

/-- An edge at which a unit with nothing in flight is not ready counts a cycle and accepts nothing. -/
theorem step_of_not_ready {s t : State} (h : step s = .next t) (hrst : s.input.rst = false)
    (hempty : s.pending = []) (hready : s.cmdReadyAt s.input = false) :
    t.pending = [] ∧ t.resetWait = s.resetWait.map (· - 1) := by
  obtain ⟨-, ⟨hrst', -⟩ | ⟨-, e, rest, r, hs, -⟩ | ⟨-, -, rfl⟩⟩ := step_next h
  · rw [hrst] at hrst'
    cases hrst'
  · rw [hempty] at hs
    cases hs
  · rw [hready, State.finishEdge_resetWait]
    exact ⟨finishEdge_pending_of_not_ready (s := s.quiet) hempty s.input, rfl⟩

/-- With `k` cycles left to count, `cmd_ready` is 1 within `k + 1` edges. -/
theorem exists_ready_of_resetWait {k : Nat} {s : State} (hsup : s.build.supported = true)
    (hempty : s.pending = []) (hwait : s.resetWait = some k) (hno : NoReset (k + 1) s) :
    ∃ j u, j ≤ k ∧ run (j + 1) s = .next u ∧ u.cmdReady = true := by
  induction k generalizing s with
  | zero =>
    obtain ⟨t, hstep⟩ := exists_step_next hsup
    obtain ⟨hrst, -⟩ := hno.of_step hstep
    refine ⟨0, t, le_rfl, run_succ_of_step hstep, ?_⟩
    rw [step_cmdReady hstep, cmdReadyAt_of_readyOwed hsup hempty hwait hrst]
  | succ k ih =>
    obtain ⟨t, hstep⟩ := exists_step_next hsup
    obtain ⟨hrst, hno'⟩ := hno.of_step hstep
    cases hready : s.cmdReadyAt s.input with
    | true =>
      exact ⟨0, t, Nat.zero_le _, run_succ_of_step hstep, (step_cmdReady hstep).trans hready⟩
    | false =>
      obtain ⟨hempty', hwait'⟩ := step_of_not_ready hstep hrst hempty hready
      obtain ⟨j, u, hj, hrun, hu⟩ := ih ((step_build hstep).symm ▸ hsup) hempty'
        (by rw [hwait', hwait]; rfl) hno'
      exact ⟨j + 1, u, Nat.succ_le_succ hj, (run_succ_of_step hstep).trans hrun, hu⟩

/-- Settles O55: a reset leaves nothing in flight and `RST_READY` cycles to count. -/
theorem readyWithinRstReadyOfReset : Obligations.ReadyWithinRstReadyOfReset := by
  intro s t hsup hrst hstep hno
  rw [step_of_rst hsup hrst] at hstep
  cases hstep
  exact exists_ready_of_resetWait hsup rfl rfl hno

/-! ### An offered response is held (R426) -/

/-- After an edge at which the offered response is not taken, its command is still the oldest, and
due. -/
theorem finishEdge_pending_of_held {s : State} {e : Entry} {rest : List Entry}
    (hs : s.pending = e :: rest) (hwait : e.wait = 0) {inp : EdgeInput} {ready : Bool}
    (hheld : inp.rspReady = false) :
    ∃ rest', (s.finishEdge inp ready).pending = e :: rest' := by
  obtain ⟨cmd, a, b, wait⟩ := e
  obtain rfl : wait = 0 := hwait
  rw [State.finishEdge_pending, hheld, Bool.and_false, if_neg Bool.false_ne_true, hs]
  exact ⟨_, rfl⟩

/-- What `runOldest` drives is `execute` of the oldest command (R110). -/
theorem execute_of_runOldest_drive {s : State} {e : Entry} {rest : List Entry} {r : Response}
    (hs : s.pending = e :: rest) (hrun : runOldest s = .next (s.drive r)) :
    execute s.build e.cmd e.a e.b = some r := by
  obtain ⟨r', hexec, hrun'⟩ := runOldest_eq_execute hs
  have hdrive := hrun.symm.trans hrun'
  rw [Host.Outcome.next.injEq] at hdrive
  exact hexec.trans (congrArg State.rsp hdrive).symm

/-- Settles O57: the command stays in flight, and `execute` of it is the same response again. -/
theorem offeredResponsesAreHeld : Obligations.OfferedResponsesAreHeld := by
  intro s t u hstep hvalid hheld hrst' hstep'
  have hbuild := step_build hstep
  obtain ⟨hsup, ⟨-, rfl⟩ | ⟨-, e, rest, r, hs, hwait, hrun, rfl⟩ | ⟨-, -, rfl⟩⟩ := step_next hstep
  · cases hvalid
  · obtain ⟨rest', ht⟩ := finishEdge_pending_of_held (s := s.drive r) hs hwait hheld
      (ready := s.cmdReadyAt s.input)
    obtain ⟨r', hrun'⟩ := runOldest_cons ht
    have hexec := execute_of_runOldest_drive hs hrun
    have hexec' := execute_of_runOldest_drive ht hrun'
    rw [hbuild] at hexec'
    obtain rfl : r = r' := Option.some.inj (hexec.symm.trans hexec')
    rw [step_of_due (hbuild.symm ▸ hsup) hrst' ht hwait hrun'] at hstep'
    cases hstep'
    exact ⟨by simp, by simp⟩
  · simp at hvalid

/-! ### What one edge does to the waits of the commands in flight (R420) -/

/-- The response of the oldest command transfers at this edge. -/
def State.leaves (s : State) : Bool := s.oldestDue && s.input.rspReady

/-- The entry of the command that transfers at this edge, if one does. -/
def State.joining (s : State) : List Entry :=
  if s.input.cmdValid && s.cmdReadyAt s.input then
    [{ cmd := s.input.cmd, a := onLines s.build.fmt.W s.input.a,
       b := onLines s.build.fmt.W s.input.b, wait := latency s.build s.input.cmd - 1 }]
  else []

section Edge

variable {s t : State} (h : step s = .next t) (hrst : s.input.rst = false)
include h hrst

theorem step_pending : t.pending = ((if s.leaves then s.pending.tail else s.pending).map
    fun e => { e with wait := e.wait - 1 }) ++ s.joining := by
  obtain ⟨-, ⟨hrst', -⟩ | ⟨-, e, rest, r, hs, hwait, -, rfl⟩ | ⟨-, hdue, rfl⟩⟩ := step_next h
  · rw [hrst] at hrst'
    cases hrst'
  · rw [State.finishEdge_pending, State.leaves, (oldestDue_iff s).mpr ⟨e, rest, hs, hwait⟩]
    rfl
  · rw [State.finishEdge_pending, State.leaves, hdue]
    rfl

theorem step_delivered_length :
    t.delivered.length = s.delivered.length + if s.leaves then 1 else 0 := by
  obtain ⟨-, ⟨hrst', -⟩ | ⟨-, e, rest, r, hs, hwait, -, rfl⟩ | ⟨-, hdue, rfl⟩⟩ := step_next h
  · rw [hrst] at hrst'
    cases hrst'
  · rw [drive_finishEdge_delivered, State.leaves, (oldestDue_iff s).mpr ⟨e, rest, hs, hwait⟩]
    cases s.input.rspReady <;> simp
  · rw [State.finishEdge_delivered, State.leaves, hdue]
    rfl

/-- `rsp_valid` at an edge without reset says whether the oldest command is due. -/
theorem step_rspValid_of_no_rst : t.rspValid = s.oldestDue := by
  rw [step_rspValid h, State.rspValidAt, hrst, Bool.not_false, Bool.true_and]

end Edge

theorem run_build {n : Nat} {s t : State} (h : run n s = .next t) : t.build = s.build := by
  induction n generalizing s with
  | zero => cases h; rfl
  | succ n ih =>
    obtain ⟨u, hstep, hrun⟩ := run_succ h
    exact (ih hrun).trans (step_build hstep)

theorem run_delivered_length_le {n : Nat} {s t : State} (hno : NoReset n s)
    (h : run n s = .next t) : s.delivered.length ≤ t.delivered.length := by
  obtain ⟨_, rs, -, hgiven, -⟩ := answeredInOrder_of_run hno h
  rw [hgiven, List.length_append]
  exact Nat.le_add_right ..

/-! ### A command on its way to the front (R420) -/

/-- A command with `wait` cycles still to wait is in flight, and before its response `k` responses
have been delivered: those that the host has and those of the commands before it. -/
def State.Awaits (s : State) (k wait : Nat) : Prop :=
  ∃ older e newer, s.pending = older ++ e :: newer ∧ e.wait = wait ∧
    s.delivered.length + older.length = k

theorem State.Awaits.after_step {s t : State} {k wait : Nat} (hs : s.Awaits k wait)
    (h : step s = .next t) (hrst : s.input.rst = false) (hk : t.delivered.length ≤ k) :
    t.Awaits k (wait - 1) := by
  obtain ⟨older, e, newer, hpending, rfl, rfl⟩ := hs
  have ht := step_pending h hrst
  have hgiven := step_delivered_length h hrst
  cases hleaves : s.leaves with
  | false =>
    rw [hleaves, if_neg Bool.false_ne_true, hpending, List.map_append, List.map_cons,
      List.append_assoc, List.cons_append] at ht
    rw [hleaves] at hgiven
    exact ⟨_, _, _, ht, rfl, by simp [hgiven]⟩
  | true =>
    rw [hleaves, if_pos rfl] at ht hgiven
    cases older with
    | nil =>
      rw [hgiven, List.length_nil] at hk
      omega
    | cons oldest older =>
      rw [hpending, List.cons_append, List.tail_cons, List.map_append, List.map_cons,
        List.append_assoc, List.cons_append] at ht
      exact ⟨_, _, _, ht, rfl, by simp [hgiven]; omega⟩

theorem State.Awaits.after_run {n : Nat} {s t : State} {k wait : Nat} (hs : s.Awaits k wait)
    (hno : NoReset n s) (h : run n s = .next t) (hk : t.delivered.length ≤ k) :
    t.Awaits k (wait - n) := by
  induction n generalizing s wait with
  | zero => cases h; exact hs
  | succ n ih =>
    obtain ⟨u, hstep, hrun⟩ := run_succ h
    obtain ⟨hrst, hno'⟩ := hno.of_step hstep
    have hu := hs.after_step hstep hrst ((run_delivered_length_le hno' hrun).trans hk)
    rw [Nat.add_comm, ← Nat.sub_sub]
    exact ih hu hno' hrun

/-- A command that joins awaits the responses of all that are in flight before it. -/
theorem awaits_of_accepted {s t : State} (h : step s = .next t)
    (hrst : s.input.rst = false) (hvalid : s.input.cmdValid = true)
    (hready : s.cmdReadyAt s.input = true) :
    t.Awaits (s.delivered.length + s.pending.length) (latency s.build s.input.cmd - 1) := by
  have hgiven := step_delivered_length h hrst
  refine ⟨_, _, [], (step_pending h hrst).trans (by rw [State.joining, hvalid, hready]; rfl), rfl,
    ?_⟩
  rw [hgiven, List.length_map]
  cases hleaves : s.leaves with
  | false => simp
  | true =>
    rw [State.leaves, Bool.and_eq_true, oldestDue_iff] at hleaves
    obtain ⟨⟨e, rest, hs, -⟩, -⟩ := hleaves
    simp [hs]
    omega

theorem State.Awaits.oldestDue {s : State} {wait : Nat}
    (h : s.Awaits s.delivered.length wait) : s.oldestDue = (wait == 0) := by
  obtain ⟨older, e, newer, hpending, rfl, hk⟩ := h
  obtain rfl : older = [] := List.eq_nil_of_length_eq_zero (Nat.add_eq_left.mp hk)
  rw [State.oldestDue, hpending]
  rfl

/-- Settles O56: the accepted command awaits the older responses; once these have left it is the
oldest, and has waited. -/
theorem responsesAreOfferedAtTheirLatency : Obligations.ResponsesAreOfferedAtTheirLatency := by
  intro n s t u hsup hrst hvalid hready hstep hno hrun hgiven
  have hu := (awaits_of_accepted hstep hrst hvalid hready).after_run hno hrun hgiven.le
  rw [← hgiven] at hu
  have hlat := one_le_latency s.build s.input.cmd
  refine ⟨?_, fun hrst' => ?_⟩
  · rw [hu.oldestDue, beq_eq_decide]
    exact decide_eq_decide.mpr (by omega)
  · obtain ⟨w, hw⟩ := exists_step_next (s := u)
      (((run_build hrun).trans (step_build hstep)).symm ▸ hsup)
    exact ⟨w, hw, step_rspValid_of_no_rst hw hrst'⟩

/-! ### Progress (R426) -/

/-- The edges that the commands `es` take at most: for each its wait, and one to be answered. -/
def edgesLeft (es : List Entry) : Nat := (es.map fun e => e.wait + 1).sum

theorem edgesLeft_cons (e : Entry) (es : List Entry) :
    edgesLeft (e :: es) = e.wait + 1 + edgesLeft es := by
  simp [edgesLeft]

/-- The passing of a cycle takes no longer. -/
theorem edgesLeft_age_le (es : List Entry) :
    edgesLeft (es.map fun e => { e with wait := e.wait - 1 }) ≤ edgesLeft es := by
  induction es with
  | nil => exact le_rfl
  | cons e es ih =>
    rw [List.map_cons, edgesLeft_cons, edgesLeft_cons]
    dsimp only
    omega

/-- The host takes responses and does not reset at the next `n` edges. -/
abbrev Takes (n : Nat) (s : State) : Prop :=
  ∀ inp ∈ s.inputs.take n, inp.rst = false ∧ inp.rspReady = true

theorem Takes.after_step {n : Nat} {s t : State} (h : Takes (n + 1) s)
    (hstep : step s = .next t) :
    s.input.rst = false ∧ s.input.rspReady = true ∧ Takes n t := by
  rw [Takes, step_inputs hstep, State.input]
  cases hin : s.inputs with
  | nil => exact ⟨rfl, rfl, by simp⟩
  | cons inp later =>
    rw [Takes, hin, List.take_succ_cons, List.forall_mem_cons] at h
    obtain ⟨⟨hrst, hready⟩, hlater⟩ := h
    exact ⟨hrst, hready, hlater⟩

/-- An edge brings the oldest commands an edge nearer to being answered. -/
theorem exists_older_of_step {s t : State} {e : Entry} {older newer : List Entry}
    (h : step s = .next t) (hrst : s.input.rst = false) (hready : s.input.rspReady = true)
    (hs : s.pending = e :: older ++ newer) :
    ∃ older' newer', t.pending = older' ++ newer' ∧ edgesLeft older' < edgesLeft (e :: older) ∧
      s.delivered.length + (older.length + 1) = t.delivered.length + older'.length := by
  have ht := step_pending h hrst
  have hgiven := step_delivered_length h hrst
  have hage := edgesLeft_age_le older
  rw [List.cons_append] at hs
  have hleaves : s.leaves = (e.wait == 0) := by
    rw [State.leaves, hready, State.oldestDue, hs, Bool.and_true]
  rw [hleaves, hs, List.tail_cons] at ht
  rw [hleaves] at hgiven
  cases hwait : e.wait with
  | zero =>
    rw [hwait, beq_self_eq_true, if_pos rfl, List.map_append, List.append_assoc] at ht
    rw [hwait, beq_self_eq_true, if_pos rfl] at hgiven
    refine ⟨_, _, ht, ?_, ?_⟩
    · rw [edgesLeft_cons]
      omega
    · rw [hgiven, List.length_map]
      omega
  | succ wait =>
    rw [hwait, if_neg (by simp), ← List.cons_append, List.map_append, List.append_assoc] at ht
    rw [hwait, if_neg (by simp)] at hgiven
    refine ⟨_, _, ht, ?_, ?_⟩
    · rw [List.map_cons, edgesLeft_cons, edgesLeft_cons, hwait]
      dsimp only
      omega
    · rw [hgiven, List.length_map, List.length_cons]
      omega

/-- The oldest commands are answered within their `edgesLeft`. -/
theorem exists_run_answers {n : Nat} {s : State} {older newer : List Entry}
    (hsup : s.build.supported = true) (hs : s.pending = older ++ newer)
    (hn : edgesLeft older ≤ n) (htakes : Takes n s) :
    ∃ t, run n s = .next t ∧ s.delivered.length + older.length ≤ t.delivered.length := by
  induction n generalizing s older newer with
  | zero =>
    cases older with
    | nil => exact ⟨s, rfl, le_rfl⟩
    | cons e older => rw [edgesLeft_cons] at hn; omega
  | succ n ih =>
    obtain ⟨t, hstep⟩ := exists_step_next hsup
    obtain ⟨hrst, hready, htakes'⟩ := htakes.after_step hstep
    have hsup' : t.build.supported = true := (step_build hstep).symm ▸ hsup
    cases older with
    | nil =>
      obtain ⟨u, hrun, hu⟩ := ih (older := []) hsup' rfl (Nat.zero_le n) htakes'
      have hgiven := step_delivered_length hstep hrst
      exact ⟨u, (run_succ_of_step hstep).trans hrun, by simp at hu ⊢; omega⟩
    | cons e older =>
      obtain ⟨older', newer', ht, hless, hgiven⟩ := exists_older_of_step hstep hrst hready hs
      obtain ⟨u, hrun, hu⟩ := ih hsup' ht (by omega) htakes'
      exact ⟨u, (run_succ_of_step hstep).trans hrun, by rw [List.length_cons]; omega⟩

/-- Settles O58: all the commands in flight, within their `edgesLeft`. -/
theorem commandsInFlightAreAnswered : Obligations.CommandsInFlightAreAnswered :=
  fun s hsup htakes =>
    exists_run_answers hsup (List.append_nil s.pending).symm le_rfl htakes

end Sys2Proof.Machine

/-! EXP and the logarithms in both modes of `TRANS_IMPL` (44_transcendental.md R288, R296, R297, R311):
the sign of each result, and the operands at which it is exact. -/

namespace Sys2Proof.Machine

/-! ### Results of one sign (R311) -/

/-- +Infinity or a normal that is not negative. -/
abbrev IsNonneg (fmt : Format) (y : Word) : Prop :=
  y = PINF fmt ∨ (isNormal y = true ∧ 0 ≤ v fmt y)

/-- −Infinity or a normal that is not positive. -/
abbrev IsNonpos (fmt : Format) (y : Word) : Prop :=
  y = NINF fmt ∨ (isNormal y = true ∧ v fmt y ≤ 0)

theorem vmin_nonpos (fmt : Format) : vmin fmt ≤ 0 := by
  rw [vmin, Left.neg_nonpos_iff]
  positivity

theorem vmax_nonneg (fmt : Format) : 0 ≤ vmax fmt := zero_le_one.trans (one_le_vmax fmt)

theorem isNonneg_enc {fmt : Format} {n : Int} (h : 0 ≤ n) (hmax : n ≤ vmax fmt) :
    IsNonneg fmt (enc fmt n) :=
  .inr ⟨isNormal_enc fmt n, (v_enc ((vmin_nonpos fmt).trans h) hmax).symm ▸ h⟩

theorem isNonpos_enc {fmt : Format} {n : Int} (h : n ≤ 0) (hmin : vmin fmt ≤ n) :
    IsNonpos fmt (enc fmt n) :=
  .inr ⟨isNormal_enc fmt n, (v_enc hmin (h.trans (vmax_nonneg fmt))).symm ▸ h⟩

/-- A number that is not negative, with +Infinity above the range. -/
theorem isNonneg_enc_or_PINF {fmt : Format} {n : Int} (h : 0 ≤ n) :
    IsNonneg fmt (if n > vmax fmt then PINF fmt else enc fmt n) := by
  split
  · exact .inl rfl
  · next hle => exact isNonneg_enc h (not_lt.mp hle)

theorem isNonneg_sat {fmt : Format} {n : Int} (h : 0 ≤ n) : IsNonneg fmt (sat fmt n) := by
  rcases lt_or_ge (vmax fmt) n with hup | hle
  · exact .inl (sat_of_vmax_lt hup)
  · rw [sat_of_range ((vmin_nonpos fmt).trans h) hle]
    exact isNonneg_enc h hle

theorem isNonpos_sat {fmt : Format} {n : Int} (h : n ≤ 0) : IsNonpos fmt (sat fmt n) := by
  rcases lt_or_ge n (vmin fmt) with hdown | hle
  · exact .inl (sat_of_lt_vmin hdown)
  · rw [sat_of_range hle (h.trans (vmax_nonneg fmt))]
    exact isNonpos_enc h hle

theorem sat_zero (fmt : Format) : sat fmt 0 = ZERO fmt :=
  sat_of_range (vmin_nonpos fmt) (vmax_nonneg fmt)

/-! ### Rounding keeps the sign -/

theorem rte_range {x lo hi : Int} {s : Nat} (hlo : lo * 2 ^ s ≤ x) (hhi : x ≤ hi * 2 ^ s) :
    lo ≤ rte x s ∧ rte x s ≤ hi :=
  have ⟨hnear, _⟩ := rte_nearestEven x s
  nearest_range (by positivity) hnear hlo hhi

theorem rte_nonneg {x : Int} (h : 0 ≤ x) (s : Nat) : 0 ≤ rte x s :=
  have ⟨hlo, _⟩ := rte_range (lo := 0) (hi := x) (s := s) (by simpa using h)
    (le_mul_of_one_le_right h (one_le_pow₀ one_le_two))
  hlo

theorem rte_nonpos {x : Int} (h : x ≤ 0) (s : Nat) : rte x s ≤ 0 :=
  have ⟨_, hhi⟩ := rte_range (lo := x) (hi := 0) (s := s)
    (mul_le_of_one_le_right h (one_le_pow₀ one_le_two)) (by simpa using h)
  hhi

theorem rte_zero_left (s : Nat) : rte 0 s = 0 := by
  simpa using rte_mul_two_pow 0 s

/-! ### EXP (R287, R288, R311) -/

theorem F_le_qBits {fmt : Format} (hlegal : fmt.legal = true) : fmt.F ≤ qBits fmt := by
  rw [legal_iff] at hlegal
  rw [qBits]
  omega

theorem exp2Q_nonneg (fmt : Format) : ∀ c ∈ exp2Q fmt, 0 ≤ c := by
  rw [exp2Q_eq]
  intro c hc
  obtain ⟨m, -, rfl⟩ := List.mem_map.mp hc
  exact rte_nonneg (Int.natCast_nonneg m) _

theorem expLoop_nonneg (Q f k : Nat) {factors : List Int} (hfactors : ∀ c ∈ factors, 0 ≤ c)
    {Y : Int} (hY : 0 ≤ Y) : 0 ≤ expLoop Q f k factors Y := by
  induction k generalizing factors Y with
  | zero => exact hY
  | succ k ih =>
    cases factors with
    | nil => exact hY
    | cons c factors =>
      obtain ⟨hc, hrest⟩ := List.forall_mem_cons.mp hfactors
      rw [expLoop]
      refine ih hrest ?_
      split
      · exact rte_nonneg (mul_nonneg hY hc) Q
      · exact hY

/-- With no bit of the fraction set, no factor is taken. -/
theorem expLoop_zero (Q k : Nat) (factors : List Int) (Y : Int) :
    expLoop Q 0 k factors Y = Y := by
  induction k generalizing factors with
  | zero => rfl
  | succ k ih =>
    cases factors with
    | nil => rfl
    | cons c factors => rw [expLoop, Nat.zero_testBit, if_neg Bool.false_ne_true, ih]

theorem expRef_isNonneg (fmt : Format) (x : Int) : IsNonneg fmt (expRef fmt x) := by
  simp only [expRef]
  have hproduct := expLoop_nonneg (qBits fmt)
    (rte (x * log2eQ fmt) fmt.F - rte (x * log2eQ fmt) fmt.F >>> qBits fmt * 2 ^ qBits fmt).toNat
    (qBits fmt) (exp2Q_nonneg fmt) (Y := 2 ^ qBits fmt) (by positivity)
  split
  · exact .inl rfl
  refine isNonneg_enc_or_PINF ?_
  split
  · exact rte_nonneg hproduct _
  · exact mul_nonneg hproduct (by positivity)

theorem expRef_zero {fmt : Format} (hlegal : fmt.legal = true) : expRef fmt 0 = ONE fmt := by
  obtain ⟨-, hmax⟩ := one_range hlegal
  have hF := F_le_qBits hlegal
  have hshift : ((qBits fmt : Int) - fmt.F).toNat = qBits fmt - fmt.F := by omega
  have hround : rte (2 ^ qBits fmt) (qBits fmt - fmt.F) = 2 ^ fmt.F := by
    rw [← Nat.add_sub_cancel' hF, pow_add, Nat.add_sub_cancel_left, rte_mul_two_pow]
  have hsmall : ¬(qBits fmt : Int) - fmt.F < -(fmt.W : Int) := by omega
  have hcount : (0 : Int) ≤ (qBits fmt : Int) - fmt.F := by omega
  simp only [expRef, zero_mul, rte_zero_left, Int.zero_shiftRight, sub_zero, Int.toNat_zero,
    expLoop_zero, if_neg hsmall, if_pos hcount, hshift, hround, if_neg hmax.not_gt]
  rfl

theorem expOpen_isNonneg {fmt : Format} (hlegal : fmt.legal = true) (x : Int) :
    IsNonneg fmt (expOpen fmt x) := by
  obtain ⟨-, hmax⟩ := one_range hlegal
  unfold expOpen
  split
  · exact isNonneg_enc (by positivity) hmax
  split
  · exact .inl rfl
  next hle =>
  exact isNonneg_enc (le_max_right _ _) (max_le (not_lt.mp hle) (vmax_nonneg fmt))

section Exponential

variable {bld : Build} (hlegal : bld.fmt.legal = true)
include hlegal

theorem exponential_isNonneg {a : Word} (h : isNormal a = true) :
    IsNonneg bld.fmt (exponential bld a) := by
  simp only [exponential, tags_of_isNormal h, Bool.false_eq_true, if_false]
  split
  · exact expRef_isNonneg bld.fmt _
  · exact expOpen_isNonneg hlegal _

/-- `EXP(ZERO) = ONE`, whatever the mode. -/
theorem exponential_of_isZero {a : Word} (h : isNormal a = true) (hv : v bld.fmt a = 0) :
    exponential bld a = ONE bld.fmt := by
  simp only [exponential, tags_of_isNormal h, hv, Bool.false_eq_true, if_false]
  split
  · exact expRef_zero hlegal
  · exact if_pos rfl

end Exponential

/-- Settles O32: the special values, and the sign of EXP of a normal in each mode. -/
theorem exponentialSpecialsAndSign : Obligations.ExponentialSpecialsAndSign := by
  refine ⟨rfl, fun s e rest hs hlegal => ?_⟩
  obtain ⟨hnan, hpinf, hninf⟩ := exponential_specials s.build e.a
  exact ⟨exponential s.build e.a, exec_cons hs .exp, hnan, hpinf, hninf,
    exponential_of_isZero hlegal, exponential_isNonneg hlegal⟩

/-! ### LOG2_CORE (R295) -/

/-- The bits that the loop finds make a number below one. -/
theorem log2Loop_range (Q k : Nat) (Y L : Int) :
    L ≤ log2Loop Q k Y L ∧ log2Loop Q k Y L < L + 2 ^ k := by
  induction k generalizing Y L with
  | zero => simp [log2Loop]
  | succ k ih =>
    have hpow : (0 : Int) < 2 ^ k := by positivity
    have hdouble : (2 : Int) ^ (k + 1) = 2 ^ k + 2 ^ k := by rw [pow_succ]; omega
    simp only [log2Loop]
    split
    · have hset := ih (rte (rte (Y * Y) Q) 1) (L + 2 ^ k)
      omega
    · have hclear := ih (rte (Y * Y) Q) L
      omega

/-- The loop finds no bit of the logarithm of one. -/
theorem log2Loop_one (Q k : Nat) (L : Int) : log2Loop Q k (2 ^ Q) L = L := by
  induction k with
  | zero => rfl
  | succ k ih =>
    have hlt : ¬(2 : Int) ^ Q ≥ 2 ^ (Q + 1) := (pow_lt_pow_right₀ one_lt_two Q.lt_succ_self).not_ge
    simp only [log2Loop, rte_mul_two_pow, if_neg hlt, ih]

section Log2Core

variable {fmt : Format} {m : Nat}

/-- `LOG2_CORE` is `log2 m − F` with a fraction below one. -/
theorem log2Core_range (fmt : Format) (m : Nat) :
    ((m.log2 : Int) - fmt.F) * 2 ^ qBits fmt ≤ log2Core fmt m ∧
      log2Core fmt m < ((m.log2 : Int) - fmt.F + 1) * 2 ^ qBits fmt := by
  obtain ⟨hlo, hhi⟩ := log2Loop_range (qBits fmt) (qBits fmt)
    ((m : Int) * 2 ^ (qBits fmt - m.log2)) 0
  rw [log2Core, bitlen_sub_one, add_one_mul]
  omega

theorem log2Core_nonneg (h : 2 ^ fmt.F ≤ m) : 0 ≤ log2Core fmt m := by
  obtain ⟨hlo, -⟩ := log2Core_range fmt m
  have hpos : m ≠ 0 := (lt_of_lt_of_le (by positivity) h).ne'
  have hlog : fmt.F ≤ m.log2 := (Nat.le_log2 hpos).mpr h
  exact (mul_nonneg (by omega) (by positivity)).trans hlo

theorem log2Core_nonpos (hpos : m ≠ 0) (h : m < 2 ^ fmt.F) : log2Core fmt m ≤ 0 := by
  obtain ⟨-, hhi⟩ := log2Core_range fmt m
  have hlog : m.log2 < fmt.F := (Nat.log2_lt hpos).mpr h
  exact hhi.le.trans (mul_nonpos_of_nonpos_of_nonneg (by omega) (by positivity))

theorem log2Core_two_pow {j : Nat} (hj : j ≤ qBits fmt) :
    log2Core fmt (2 ^ j) = ((j : Int) - fmt.F) * 2 ^ qBits fmt := by
  have hstart : ((2 ^ j : Nat) : Int) * 2 ^ (qBits fmt - j) = 2 ^ qBits fmt := by
    rw [Nat.cast_pow, Nat.cast_ofNat, ← pow_add, Nat.add_sub_cancel' hj]
  rw [log2Core, bitlen_sub_one, Nat.log2_two_pow, hstart, log2Loop_one, add_zero]

end Log2Core

/-! ### The logarithm of a magnitude, in each mode (R297 to R299, R311) -/

/-- In every base the reference scales `LOG2_CORE` by a number that is not negative, and rounds. -/
theorem logRef_eq_sat (fmt : Format) (base : LogBase) (m : Nat) :
    ∃ (c : Int) (s : Nat), 0 ≤ c ∧ logRef fmt base m = sat fmt (rte (log2Core fmt m * c) s) := by
  cases base with
  | two => exact ⟨1, qBits fmt - fmt.F, zero_le_one, by rw [mul_one]; rfl⟩
  | e => exact ⟨ln2Q fmt, _, rte_nonneg (by decide) _, rfl⟩
  | ten => exact ⟨lg2Q fmt, _, rte_nonneg (by decide) _, rfl⟩

theorem logRef_two_pow {fmt : Format} (hlegal : fmt.legal = true) {j : Nat} (hj : j ≤ qBits fmt) :
    logRef fmt .two (2 ^ j) = sat fmt (((j : Int) - fmt.F) * 2 ^ fmt.F) := by
  have hpow : (2 : Int) ^ qBits fmt = 2 ^ fmt.F * 2 ^ (qBits fmt - fmt.F) := by
    rw [← pow_add, Nat.add_sub_cancel' (F_le_qBits hlegal)]
  simp only [logRef, log2Core_two_pow hj]
  rw [hpow, ← mul_assoc, rte_mul_two_pow]

theorem logOpen_two_pow {fmt : Format} {j : Nat}
    (hlo : vmin fmt ≤ ((j : Int) - fmt.F) * 2 ^ fmt.F)
    (hhi : ((j : Int) - fmt.F) * 2 ^ fmt.F ≤ vmax fmt) :
    logOpen fmt .two (2 ^ j) = enc fmt (((j : Int) - fmt.F) * 2 ^ fmt.F) := by
  simp only [logOpen, Nat.log2_two_pow]
  exact if_pos ⟨trivial, hlo, hhi⟩

/-- LOG2 of a power of two is exact in both modes where its logarithm is in range. -/
theorem logOf_two_pow {bld : Build} (hlegal : bld.fmt.legal = true) {j : Nat}
    (hj : j ≤ qBits bld.fmt) (hlo : vmin bld.fmt ≤ ((j : Int) - bld.fmt.F) * 2 ^ bld.fmt.F)
    (hhi : ((j : Int) - bld.fmt.F) * 2 ^ bld.fmt.F ≤ vmax bld.fmt) :
    logOf bld .two (2 ^ j) = enc bld.fmt (((j : Int) - bld.fmt.F) * 2 ^ bld.fmt.F) := by
  unfold logOf
  split
  · rw [logRef_two_pow hlegal hj, sat_of_range hlo hhi]
  · exact logOpen_two_pow hlo hhi

/-- The logarithm of one is `ZERO` in every base and mode. -/
theorem logOf_one {bld : Build} (hlegal : bld.fmt.legal = true) (base : LogBase) :
    logOf bld base (2 ^ bld.fmt.F) = ZERO bld.fmt := by
  have hzero : (((bld.fmt.F : Nat) : Int) - bld.fmt.F) * 2 ^ bld.fmt.F = 0 := by
    rw [sub_self, zero_mul]
  unfold logOf
  split
  · obtain ⟨c, s, -, hlog⟩ := logRef_eq_sat bld.fmt base (2 ^ bld.fmt.F)
    rw [hlog, log2Core_two_pow (F_le_qBits hlegal), sub_self, zero_mul, zero_mul, rte_zero_left,
      sat_zero]
  · cases base with
    | two =>
      rw [logOpen_two_pow (hzero.symm ▸ vmin_nonpos _) (hzero.symm ▸ vmax_nonneg _), hzero]
      rfl
    | e => exact if_pos rfl
    | ten => exact if_pos rfl

theorem logRef_isNonneg {fmt : Format} {m : Nat} (h : 2 ^ fmt.F ≤ m) (base : LogBase) :
    IsNonneg fmt (logRef fmt base m) := by
  obtain ⟨c, s, hc, hlog⟩ := logRef_eq_sat fmt base m
  rw [hlog]
  exact isNonneg_sat (rte_nonneg (mul_nonneg (log2Core_nonneg h) hc) s)

theorem logRef_isNonpos {fmt : Format} {m : Nat} (hpos : m ≠ 0) (h : m < 2 ^ fmt.F)
    (base : LogBase) : IsNonpos fmt (logRef fmt base m) := by
  obtain ⟨c, s, hc, hlog⟩ := logRef_eq_sat fmt base m
  rw [hlog]
  exact isNonpos_sat (rte_nonpos (mul_nonpos_of_nonpos_of_nonneg (log2Core_nonpos hpos h) hc) s)

theorem clampLog_nonneg {fmt : Format} {m : Nat} (h : 2 ^ fmt.F ≤ m) (x : Int) :
    0 ≤ clampLog fmt m x := by
  rw [clampLog, if_pos h]
  exact le_max_right x 0

theorem clampLog_nonpos {fmt : Format} {m : Nat} (h : m < 2 ^ fmt.F) (x : Int) :
    clampLog fmt m x ≤ 0 := by
  rw [clampLog, if_neg h.not_ge]
  exact min_le_right x 0

theorem logOpen_isNonneg {fmt : Format} {m : Nat} (h : 2 ^ fmt.F ≤ m) (base : LogBase) :
    IsNonneg fmt (logOpen fmt base m) := by
  have hpos : m ≠ 0 := (lt_of_lt_of_le (by positivity) h).ne'
  have hlog : fmt.F ≤ m.log2 := (Nat.le_log2 hpos).mpr h
  have hzero : IsNonneg fmt (ZERO fmt) := isNonneg_enc le_rfl (vmax_nonneg fmt)
  cases base with
  | two =>
    simp only [logOpen]
    split
    · next hexact =>
      obtain ⟨-, -, hmax⟩ := hexact
      exact isNonneg_enc (mul_nonneg (by omega) (by positivity)) hmax
    · exact isNonneg_sat (clampLog_nonneg h _)
  | e =>
    simp only [logOpen]
    split
    · exact hzero
    · exact isNonneg_sat (clampLog_nonneg h _)
  | ten =>
    simp only [logOpen]
    split
    · exact hzero
    · exact isNonneg_sat (clampLog_nonneg h _)

theorem logOpen_isNonpos {fmt : Format} {m : Nat} (hpos : m ≠ 0) (h : m < 2 ^ fmt.F)
    (base : LogBase) : IsNonpos fmt (logOpen fmt base m) := by
  have hlog : m.log2 < fmt.F := (Nat.log2_lt hpos).mpr h
  cases base with
  | two =>
    simp only [logOpen]
    split
    · next hexact =>
      obtain ⟨-, hmin, -⟩ := hexact
      exact isNonpos_enc (mul_nonpos_of_nonpos_of_nonneg (by omega) (by positivity)) hmin
    · exact isNonpos_sat (clampLog_nonpos h _)
  | e =>
    simp only [logOpen, if_neg h.ne]
    exact isNonpos_sat (clampLog_nonpos h _)
  | ten =>
    simp only [logOpen, if_neg h.ne]
    exact isNonpos_sat (clampLog_nonpos h _)

theorem logOf_isNonneg {bld : Build} {m : Nat} (h : 2 ^ bld.fmt.F ≤ m) (base : LogBase) :
    IsNonneg bld.fmt (logOf bld base m) := by
  unfold logOf
  split
  · exact logRef_isNonneg h base
  · exact logOpen_isNonneg h base

theorem logOf_isNonpos {bld : Build} {m : Nat} (hpos : m ≠ 0) (h : m < 2 ^ bld.fmt.F)
    (base : LogBase) : IsNonpos bld.fmt (logOf bld base m) := by
  unfold logOf
  split
  · exact logRef_isNonpos hpos h base
  · exact logOpen_isNonpos hpos h base

/-! ### The logarithm of a word (R296, R311) -/

section Logarithm

variable {bld : Build} (base : LogBase) {a : Word} (ha : isNormal a = true)
include ha

theorem logarithm_of_isNormal_pos (hv : 0 < v bld.fmt a) :
    logarithm bld base a = logOf bld base (v bld.fmt a).toNat := by
  rw [logarithm_of_isNormal bld base ha, if_neg hv.not_gt, if_neg hv.ne']

theorem logarithm_of_zero (hv : v bld.fmt a = 0) : logarithm bld base a = NINF bld.fmt := by
  rw [logarithm_of_isNormal bld base ha, if_neg hv.not_lt, if_pos hv]

theorem logarithm_of_two_pow {j : Nat} (hv : v bld.fmt a = 2 ^ j) :
    logarithm bld base a = logOf bld base (2 ^ j) := by
  rw [logarithm_of_isNormal_pos base ha (hv ▸ by positivity), hv]
  rfl

theorem logarithm_of_one (hlegal : bld.fmt.legal = true) (hv : v bld.fmt a = 2 ^ bld.fmt.F) :
    logarithm bld base a = ZERO bld.fmt := by
  rw [logarithm_of_two_pow base ha hv, logOf_one hlegal]

theorem logarithm_isNonneg (hv : 2 ^ bld.fmt.F ≤ v bld.fmt a) :
    IsNonneg bld.fmt (logarithm bld base a) := by
  rw [logarithm_of_isNormal_pos base ha (lt_of_lt_of_le (by positivity) hv)]
  exact logOf_isNonneg (by zify; exact hv.trans (Int.self_le_toNat _)) base

theorem logarithm_isNonpos (hpos : 0 < v bld.fmt a) (hv : v bld.fmt a < 2 ^ bld.fmt.F) :
    IsNonpos bld.fmt (logarithm bld base a) := by
  rw [logarithm_of_isNormal_pos base ha hpos]
  refine logOf_isNonpos (by omega) ?_ base
  zify
  rwa [Int.toNat_of_nonneg hpos.le]

end Logarithm

/-- Settles O34: the special values, and the sign of the logarithm of a normal in each base and
mode. -/
theorem logarithmSpecialsAndSign : Obligations.LogarithmSpecialsAndSign := by
  refine ⟨rfl, rfl, rfl, fun s e rest i hs hlegal hi => ?_⟩
  obtain ⟨base, hresponse⟩ := responseOf_logarithm s.build e.a e.b hi
  obtain ⟨hnan, hpinf, hninf⟩ := logarithm_specials s.build base (a := e.a)
  refine ⟨logarithm s.build base e.a, by rw [exec_cons hs, hresponse], hnan, hpinf, hninf,
    fun h hneg => ?_, logarithm_of_zero base, fun h => logarithm_of_one base h hlegal,
    logarithm_isNonneg base, logarithm_isNonpos base⟩
  rw [logarithm_of_isNormal _ _ h, if_pos hneg]

/-- Settles O35: a power of two that is a value field is within the reach of `LOG2_CORE`. -/
theorem log2OfPowersOfTwoIsExact : Obligations.Log2OfPowersOfTwoIsExact := by
  intro s e rest j hs hlegal fmt L ha hv hlo hhi
  have hj : j ≤ qBits fmt := by
    obtain ⟨-, hmax⟩ := v_range fmt e.a
    have hlt : (2 : Int) ^ j < 2 ^ (fmt.W - 3) := by rw [hv, vmax] at hmax; omega
    have hexp := (pow_lt_pow_iff_right₀ one_lt_two).mp hlt
    rw [qBits]
    omega
  have hlog : logarithm s.build .two e.a = enc fmt L :=
    (logarithm_of_two_pow .two ha hv).trans (logOf_two_pow hlegal hj hlo hhi)
  rw [exec_cons hs, ← hlog]
  rfl

end Sys2Proof.Machine

/-! Power in both modes of `TRANS_IMPL` (44_transcendental.md R305 to R308): the composition, and the
special-value table from the signs of the exponent and of the logarithm. -/

namespace Sys2Proof.Machine

/-! ### The signs of the words that are neither NaN nor zero (R89) -/

/-- A word that is no NaN has a positive sign and is not zero. -/
abbrev Positive (fmt : Format) (a : Word) : Prop :=
  isPInf a = true ∨ (isNormal a = true ∧ 0 < v fmt a)

section Kinds

variable {fmt : Format} {a : Word}

theorem isNaN_and_isZero_of_positive (h : Positive fmt a) :
    isNaN a = false ∧ isZero fmt a = false := by
  rw [← Bool.not_eq_true (isNaN a), ← Bool.not_eq_true (isZero fmt a), isZero_iff, isNaN_iff,
    isNormal_iff]
  rw [Positive, isPInf_iff, isNormal_iff] at h
  omega

theorem isNaN_and_isZero_of_negative (h : Negative fmt a) :
    isNaN a = false ∧ isZero fmt a = false := by
  rw [← Bool.not_eq_true (isNaN a), ← Bool.not_eq_true (isZero fmt a), isZero_iff, isNaN_iff,
    isNormal_iff]
  rw [Negative, isNInf_iff, isNormal_iff] at h
  omega

theorem not_negative_of_positive (h : Positive fmt a) : ¬Negative fmt a := by
  rw [Positive, isPInf_iff, isNormal_iff] at h
  rw [Negative, isNInf_iff, isNormal_iff]
  omega

end Kinds

/-! ### The branches of POW (R305, R306) -/

section Power

variable (bld : Build) {a b : Word}

theorem power_of_isNaN (h : isNaN a = true ∨ isNaN b = true) : power bld a b = NAN bld.fmt := by
  simp [power, h]

theorem negative_base_iff (fmt : Format) (a : Word) :
    (isNInf a || (isNormal a && decide (v fmt a < 0))) = true ↔ Negative fmt a := by
  simp [Negative]

theorem power_of_zeroExponent (ha : isNormal a = true) (hx : v bld.fmt a ≠ 0)
    (hb : isNormal b = true) (hy : v bld.fmt b = 0) : power bld a b = ONE bld.fmt := by
  have hzero := (zeroExponent_iff bld.fmt a b).mpr ⟨ha, hx, hb, hy⟩
  simp [power, not_isNaN_of_isNormal ha, not_isNaN_of_isNormal hb, hzero]

theorem power_of_not_integer (ha : Negative bld.fmt a)
    (hint : ¬(isNormal b = true ∧ v bld.fmt b % 2 ^ bld.fmt.F = 0)) :
    power bld a b = NAN bld.fmt := by
  have hzero : zeroExponent bld.fmt a b = false := by
    rw [← Bool.not_eq_true, zeroExponent_iff]
    rintro ⟨-, -, hb, hy⟩
    exact hint ⟨hb, by rw [hy, Int.zero_emod]⟩
  have hneg := (negative_base_iff bld.fmt a).mpr ha
  have hnot : (!(isNormal b && v bld.fmt b % 2 ^ bld.fmt.F == 0)) = true := by
    simpa [imp_iff_not_or] using hint
  simp only [power, hzero, hneg, hnot, Bool.false_eq_true, if_false, if_true, ite_self]

variable (hz : ¬(isNormal a = true ∧ v bld.fmt a ≠ 0 ∧ isNormal b = true ∧ v bld.fmt b = 0))
include hz

/-- A base that is not negative: EXP of the exponent times its logarithm. -/
theorem power_of_not_negative (hna : isNaN a = false) (hnb : isNaN b = false)
    (ha : ¬Negative bld.fmt a) :
    power bld a b = exponential bld (multiply bld.fmt b (logarithm bld .e a)) := by
  rw [← zeroExponent_iff, Bool.not_eq_true] at hz
  rw [← negative_base_iff, Bool.not_eq_true] at ha
  simp only [power, hna, hnb, hz, ha, Bool.or_self, Bool.false_eq_true, if_false]

/-- A negative base: the same with the logarithm of its magnitude, negated for an odd exponent. -/
theorem power_of_negative (ha : Negative bld.fmt a) (hb : isNormal b = true)
    (hint : v bld.fmt b % 2 ^ bld.fmt.F = 0) : power bld a b =
      if v bld.fmt b / 2 ^ bld.fmt.F % 2 = 1 then
        negate bld.fmt (exponential bld (multiply bld.fmt b (lnMagnitude bld a)))
      else exponential bld (multiply bld.fmt b (lnMagnitude bld a)) := by
  obtain ⟨hna, -⟩ := isNaN_and_isZero_of_negative ha
  rw [← zeroExponent_iff, Bool.not_eq_true] at hz
  rw [← negative_base_iff] at ha
  simp only [power, hna, not_isNaN_of_isNormal hb, hz, ha, hb, hint, isOdd_iff,
    Int.shiftRight_eq_div_pow, Nat.cast_pow, Nat.cast_ofNat, beq_self_eq_true, Bool.and_self,
    Bool.not_true, Bool.or_self, Bool.false_eq_true, if_false, if_true]

end Power

/-! ### Zero exponents, and the logarithm of a magnitude (R306) -/

theorem isNormal_ZERO (fmt : Format) : isNormal (ZERO fmt) = true := isNormal_enc fmt 0

theorem v_ZERO (fmt : Format) : v fmt (ZERO fmt) = 0 :=
  v_enc (vmin_nonpos fmt) (vmax_nonneg fmt)

theorem multiply_of_isZero (fmt : Format) {a b : Word} (ha : isNormal a = true)
    (hb : isNormal b = true) (h : v fmt a = 0 ∨ v fmt b = 0) : multiply fmt a b = ZERO fmt := by
  rw [multiply_of_isNormal fmt ha hb, mul_eq_zero.mpr h, rte_zero_left, sat_zero]

/-- EXP of an exact product of zero is one. -/
theorem exponential_multiply_of_isZero {bld : Build} (hlegal : bld.fmt.legal = true) {a b : Word}
    (ha : isNormal a = true) (hb : isNormal b = true) (h : v bld.fmt a = 0 ∨ v bld.fmt b = 0) :
    exponential bld (multiply bld.fmt a b) = ONE bld.fmt := by
  rw [multiply_of_isZero bld.fmt ha hb h]
  exact exponential_of_isZero hlegal (isNormal_ZERO _) (v_ZERO _)

theorem lnMagnitude_of_isNInf (bld : Build) {a : Word} (h : isNInf a = true) :
    lnMagnitude bld a = PINF bld.fmt := if_pos h

theorem lnMagnitude_of_isNormal (bld : Build) {a : Word} (h : isNormal a = true) :
    lnMagnitude bld a = logOf bld .e (-v bld.fmt a).toNat := by
  simp [lnMagnitude, tags_of_isNormal h]

/-- The logarithm of the magnitude of a negative normal other than MIN is LN of its negation. -/
theorem logarithm_negate {bld : Build} {a : Word} (ha : isNormal a = true)
    (hneg : v bld.fmt a < 0) (hv : v bld.fmt a ≠ vmin bld.fmt) :
    logarithm bld .e (negate bld.fmt a) = lnMagnitude bld a := by
  obtain ⟨hlo, hhi⟩ := neg_v_range hv
  have hvalue : v bld.fmt (enc bld.fmt (-v bld.fmt a)) = -v bld.fmt a := v_enc hlo hhi
  rw [negate_of_ne_vmin ha hv, lnMagnitude_of_isNormal bld ha,
    logarithm_of_isNormal_pos .e (isNormal_enc _ _) (by omega), hvalue]

/-- Settles O38: each branch of POW, its parts being the words of LN, MUL, EXP and NEG. -/
theorem powerIsTheComposition : Obligations.PowerIsTheComposition := by
  refine ⟨rfl, fun bld a b => ?_⟩
  simp only [resultOf_eq_responseOf, responseOf, resultY, Option.some_inj]
  refine ⟨power_of_isNaN bld, power_of_not_integer bld,
    fun ⟨ha, hx, hb, hy⟩ => power_of_zeroExponent bld ha hx hb hy,
    fun hna hnb hint l p r nr hlneg hlpos hp hr hnr => ⟨fun hz => ?_, fun h hlegal hl => ?_⟩,
    lnMagnitude_of_isNInf bld, fun ha hneg => ⟨fun htrans => ?_, fun n hv hn => ?_⟩⟩
  · subst hp hr hnr
    by_cases ha : Negative bld.fmt a
    · obtain ⟨hb, hmod⟩ := hint ha
      rw [power_of_negative bld hz ha hb hmod, hlneg ha]
      simp only [ha, true_and]
    · rw [power_of_not_negative bld hz hna hnb ha, hlpos ha]
      simp only [ha, false_and, if_false]
  · obtain ⟨-, -, hb, hy⟩ := h
    rw [← hr, ← hp]
    exact exponential_multiply_of_isZero hlegal hb hl (.inl hy)
  · rw [lnMagnitude_of_isNormal bld ha, logOf, htrans]
    rfl
  · rw [← hn]
    exact logarithm_negate ha hneg hv

/-! ### EXP of a product with an Infinity, by the signs (R288, R193) -/

section Signs

variable {bld : Build} {a b : Word}

theorem exponential_PINF (bld : Build) : exponential bld (PINF bld.fmt) = PINF bld.fmt := by
  obtain ⟨-, hpinf, -⟩ := exponential_specials bld (PINF bld.fmt)
  obtain ⟨-, hkind, -⟩ := kind_of_canonical bld.fmt.width
  exact hpinf hkind

theorem exponential_NINF (bld : Build) : exponential bld (NINF bld.fmt) = ZERO bld.fmt := by
  obtain ⟨-, -, hninf⟩ := exponential_specials bld (NINF bld.fmt)
  obtain ⟨-, -, hkind⟩ := kind_of_canonical bld.fmt.width
  exact hninf hkind

theorem exponential_NAN (bld : Build) : exponential bld (NAN bld.fmt) = NAN bld.fmt := by
  obtain ⟨hnan, -, -⟩ := exponential_specials bld (NAN bld.fmt)
  exact hnan (isNaN_NAN bld.fmt)

theorem exponential_multiply_of_isInf (hinf : isInf a = true ∨ isInf b = true)
    (ha : isNaN a = false ∧ isZero bld.fmt a = false)
    (hb : isNaN b = false ∧ isZero bld.fmt b = false) :
    exponential bld (multiply bld.fmt a b) =
      if (Negative bld.fmt a ↔ Negative bld.fmt b) then PINF bld.fmt else ZERO bld.fmt := by
  obtain ⟨hna, hza⟩ := ha
  obtain ⟨hnb, hzb⟩ := hb
  rw [multiply_of_isInf bld.fmt hna hnb hinf, hza, hzb, Bool.or_self, if_neg Bool.false_ne_true,
    infOf_neg_bne bld.fmt hna hnb]
  split
  · exact exponential_PINF bld
  · exact exponential_NINF bld

theorem exponential_multiply_of_same_sign (hinf : isInf a = true ∨ isInf b = true)
    (h : (Positive bld.fmt a ∧ Positive bld.fmt b) ∨ (Negative bld.fmt a ∧ Negative bld.fmt b)) :
    exponential bld (multiply bld.fmt a b) = PINF bld.fmt := by
  obtain ⟨ha, hb⟩ | ⟨ha, hb⟩ := h
  · rw [exponential_multiply_of_isInf hinf (isNaN_and_isZero_of_positive ha)
      (isNaN_and_isZero_of_positive hb),
      if_pos (iff_of_false (not_negative_of_positive ha) (not_negative_of_positive hb))]
  · rw [exponential_multiply_of_isInf hinf (isNaN_and_isZero_of_negative ha)
      (isNaN_and_isZero_of_negative hb), if_pos (iff_of_true ha hb)]

theorem exponential_multiply_of_opposite_signs (hinf : isInf a = true ∨ isInf b = true)
    (h : (Positive bld.fmt a ∧ Negative bld.fmt b) ∨ (Negative bld.fmt a ∧ Positive bld.fmt b)) :
    exponential bld (multiply bld.fmt a b) = ZERO bld.fmt := by
  obtain ⟨ha, hb⟩ | ⟨ha, hb⟩ := h
  · rw [exponential_multiply_of_isInf hinf (isNaN_and_isZero_of_positive ha)
      (isNaN_and_isZero_of_negative hb),
      if_neg fun hiff => not_negative_of_positive ha (hiff.mpr hb)]
  · rw [exponential_multiply_of_isInf hinf (isNaN_and_isZero_of_negative ha)
      (isNaN_and_isZero_of_positive hb),
      if_neg fun hiff => not_negative_of_positive hb (hiff.mp ha)]

theorem exponential_multiply_of_zero_isInf
    (h : (isInf a = true ∧ isZero bld.fmt b = true) ∨ (isZero bld.fmt a = true ∧ isInf b = true)) :
    exponential bld (multiply bld.fmt a b) = NAN bld.fmt := by
  have hnan : multiply bld.fmt a b = NAN bld.fmt := by
    obtain ⟨ha, hb⟩ | ⟨ha, hb⟩ := h
    · obtain ⟨hnormal, -⟩ := (isZero_iff _ _).mp hb
      rw [multiply_of_isInf bld.fmt (not_isNaN_of_isInf ha) (not_isNaN_of_isNormal hnormal)
        (.inl ha), hb, Bool.or_true, if_pos rfl]
    · obtain ⟨hnormal, -⟩ := (isZero_iff _ _).mp ha
      rw [multiply_of_isInf bld.fmt (not_isNaN_of_isNormal hnormal) (not_isNaN_of_isInf hb)
        (.inr hb), ha, Bool.true_or, if_pos rfl]
  rw [hnan, exponential_NAN]

end Signs

/-! ### The table, from the logarithm of the base (R307) -/

theorem positive_PINF (fmt : Format) : Positive fmt (PINF fmt) :=
  have ⟨_, hkind, _⟩ := kind_of_canonical fmt.width
  .inl hkind

theorem negative_NINF (fmt : Format) : Negative fmt (NINF fmt) :=
  have ⟨_, _, hkind⟩ := kind_of_canonical fmt.width
  .inl hkind

theorem isInf_PINF (fmt : Format) : isInf (PINF fmt) = true := isInf_infOf fmt false

theorem isInf_NINF (fmt : Format) : isInf (NINF fmt) = true := isInf_infOf fmt true

/-- A FIX result that is a normal of value zero is the word ZERO. -/
theorem eq_ZERO_of_isFix {fmt : Format} {y : Word} (hfix : IsFix fmt y) (h : isNormal y = true)
    (hv : v fmt y = 0) : y = ZERO fmt := by
  rw [← enc_v (fits_of_isFix hfix) h, hv]
  rfl

section Logarithm

variable {bld : Build} {a : Word} (ha : isNormal a = true) (hne : logarithm bld .e a ≠ ZERO bld.fmt)
include ha hne

/-- The logarithm of a base above one is positive where it is not ZERO. -/
theorem positive_logarithm (hx : 2 ^ bld.fmt.F < v bld.fmt a) :
    Positive bld.fmt (logarithm bld .e a) := by
  obtain hpinf | ⟨hnormal, hv⟩ := logarithm_isNonneg .e ha hx.le
  · rw [hpinf]
    exact positive_PINF bld.fmt
  · exact .inr ⟨hnormal, hv.lt_of_ne' fun hzero =>
      hne (eq_ZERO_of_isFix (isFix_logarithm bld a .e) hnormal hzero)⟩

/-- The logarithm of a base between zero and one is negative where it is not ZERO. -/
theorem negative_logarithm (hpos : 0 < v bld.fmt a) (hx : v bld.fmt a < 2 ^ bld.fmt.F) :
    Negative bld.fmt (logarithm bld .e a) := by
  obtain hninf | ⟨hnormal, hv⟩ := logarithm_isNonpos .e ha hpos hx
  · rw [hninf]
    exact negative_NINF bld.fmt
  · exact .inr ⟨hnormal, hv.lt_of_ne fun hzero =>
      hne (eq_ZERO_of_isFix (isFix_logarithm bld a .e) hnormal hzero)⟩

end Logarithm

theorem exponential_multiply_PINF (bld : Build) (b : Word) :
    (Positive bld.fmt b → exponential bld (multiply bld.fmt b (PINF bld.fmt)) = PINF bld.fmt) ∧
    (isZero bld.fmt b = true →
      exponential bld (multiply bld.fmt b (PINF bld.fmt)) = NAN bld.fmt) ∧
    (Negative bld.fmt b →
      exponential bld (multiply bld.fmt b (PINF bld.fmt)) = ZERO bld.fmt) := by
  have hinf := isInf_PINF bld.fmt
  have hpos := positive_PINF bld.fmt
  exact ⟨fun hb => exponential_multiply_of_same_sign (.inr hinf) (.inl ⟨hb, hpos⟩),
    fun hb => exponential_multiply_of_zero_isInf (.inr ⟨hb, hinf⟩),
    fun hb => exponential_multiply_of_opposite_signs (.inr hinf) (.inr ⟨hb, hpos⟩)⟩

theorem exponential_multiply_NINF (bld : Build) (b : Word) :
    (Positive bld.fmt b → exponential bld (multiply bld.fmt b (NINF bld.fmt)) = ZERO bld.fmt) ∧
    (isZero bld.fmt b = true →
      exponential bld (multiply bld.fmt b (NINF bld.fmt)) = NAN bld.fmt) ∧
    (Negative bld.fmt b →
      exponential bld (multiply bld.fmt b (NINF bld.fmt)) = PINF bld.fmt) := by
  have hinf := isInf_NINF bld.fmt
  have hneg := negative_NINF bld.fmt
  exact ⟨fun hb => exponential_multiply_of_opposite_signs (.inr hinf) (.inl ⟨hb, hneg⟩),
    fun hb => exponential_multiply_of_zero_isInf (.inr ⟨hb, hinf⟩),
    fun hb => exponential_multiply_of_same_sign (.inr hinf) (.inr ⟨hb, hneg⟩)⟩

section Bases

variable {bld : Build} {a b : Word}

theorem power_of_zero (ha : isNormal a = true) (hx : v bld.fmt a = 0) (hnb : isNaN b = false) :
    power bld a b = exponential bld (multiply bld.fmt b (NINF bld.fmt)) := by
  have hneg : ¬Negative bld.fmt a := by simp [Negative, tags_of_isNormal ha, hx]
  rw [power_of_not_negative bld (by simp [hx]) (not_isNaN_of_isNormal ha) hnb hneg,
    logarithm_of_zero .e ha hx]

theorem power_of_isPInf (ha : isPInf a = true) (hnb : isNaN b = false) :
    power bld a b = exponential bld (multiply bld.fmt b (PINF bld.fmt)) := by
  have hpos : Positive bld.fmt a := .inl ha
  obtain ⟨hna, -⟩ := isNaN_and_isZero_of_positive hpos
  obtain ⟨-, hlog, -⟩ := logarithm_specials bld .e (a := a)
  have hnot : ¬isNormal a = true := by rw [isPInf_iff] at ha; rw [isNormal_iff]; omega
  rw [power_of_not_negative bld (by simp [hnot]) hna hnb (not_negative_of_positive hpos), hlog ha]

/-- An infinite exponent of a positive normal: the sign of the logarithm decides. -/
theorem power_of_isInf_exponent (ha : isNormal a = true) (hx : 0 < v bld.fmt a)
    (hb : isInf b = true) :
    power bld a b = exponential bld (multiply bld.fmt b (logarithm bld .e a)) := by
  have hnot : ¬isNormal b = true := fun h => by
    rw [not_isInf_of_isNormal h] at hb
    cases hb
  exact power_of_not_negative bld (by simp [hnot]) (not_isNaN_of_isNormal ha)
    (not_isNaN_of_isInf hb) (not_negative_of_positive (.inr ⟨ha, hx⟩))

theorem power_of_logarithm_eq_ZERO (ha : isNormal a = true) (hx : 0 < v bld.fmt a)
    (hlog : logarithm bld .e a = ZERO bld.fmt) (hb : isInf b = true) :
    power bld a b = NAN bld.fmt := by
  rw [power_of_isInf_exponent ha hx hb, hlog]
  exact exponential_multiply_of_zero_isInf (.inl ⟨hb, isZero_ZERO bld.fmt⟩)

theorem power_of_above_one (ha : isNormal a = true) (hx : 2 ^ bld.fmt.F < v bld.fmt a)
    (hne : logarithm bld .e a ≠ ZERO bld.fmt) :
    (isPInf b = true → power bld a b = PINF bld.fmt) ∧
    (isNInf b = true → power bld a b = ZERO bld.fmt) := by
  have hlog := positive_logarithm ha hne hx
  have hpos : 0 < v bld.fmt a := lt_trans (by positivity) hx
  refine ⟨fun hb => ?_, fun hb => ?_⟩
  · have hinf := isInf_of_isPInf hb
    rw [power_of_isInf_exponent ha hpos hinf]
    exact exponential_multiply_of_same_sign (.inl hinf) (.inl ⟨.inl hb, hlog⟩)
  · have hinf := isInf_of_isNInf hb
    rw [power_of_isInf_exponent ha hpos hinf]
    exact exponential_multiply_of_opposite_signs (.inl hinf) (.inr ⟨.inl hb, hlog⟩)

theorem power_of_below_one (ha : isNormal a = true) (hpos : 0 < v bld.fmt a)
    (hx : v bld.fmt a < 2 ^ bld.fmt.F) (hne : logarithm bld .e a ≠ ZERO bld.fmt) :
    (isPInf b = true → power bld a b = ZERO bld.fmt) ∧
    (isNInf b = true → power bld a b = PINF bld.fmt) := by
  have hlog := negative_logarithm ha hne hpos hx
  refine ⟨fun hb => ?_, fun hb => ?_⟩
  · have hinf := isInf_of_isPInf hb
    rw [power_of_isInf_exponent ha hpos hinf]
    exact exponential_multiply_of_opposite_signs (.inl hinf) (.inl ⟨.inl hb, hlog⟩)
  · have hinf := isInf_of_isNInf hb
    rw [power_of_isInf_exponent ha hpos hinf]
    exact exponential_multiply_of_same_sign (.inl hinf) (.inr ⟨.inl hb, hlog⟩)

/-- One to a normal exponent: a zero exponent by rule, any other through the logarithm ZERO. -/
theorem power_of_one (hlegal : bld.fmt.legal = true) (ha : isNormal a = true)
    (hx : v bld.fmt a = 2 ^ bld.fmt.F) (hb : isNormal b = true) : power bld a b = ONE bld.fmt := by
  have hpos : 0 < v bld.fmt a := hx ▸ by positivity
  by_cases hy : v bld.fmt b = 0
  · exact power_of_zeroExponent bld ha hpos.ne' hb hy
  · rw [power_of_not_negative bld (by simp [hy]) (not_isNaN_of_isNormal ha)
      (not_isNaN_of_isNormal hb) (not_negative_of_positive (.inr ⟨ha, hpos⟩)),
      logarithm_of_one .e ha hlegal hx]
    exact exponential_multiply_of_isZero hlegal hb (isNormal_ZERO _) (.inr (v_ZERO _))

theorem negate_ZERO (fmt : Format) : negate fmt (ZERO fmt) = ZERO fmt := by
  rw [negate_of_isNormal fmt (isNormal_ZERO fmt), v_ZERO, neg_zero, sat_zero]

theorem negate_PINF (fmt : Format) : negate fmt (PINF fmt) = NINF fmt := by
  have hinf : PINF fmt = infOf fmt false := rfl
  rw [hinf, negate_of_isInf fmt (isInf_infOf fmt false), isNInf_infOf]
  rfl

/-- −Infinity to an integer: as +Infinity, negated for an odd exponent. -/
theorem power_of_isNInf (ha : isNInf a = true) (hb : isNormal b = true)
    (hint : v bld.fmt b % 2 ^ bld.fmt.F = 0) : power bld a b =
      if v bld.fmt b / 2 ^ bld.fmt.F % 2 = 1 then
        negate bld.fmt (exponential bld (multiply bld.fmt b (PINF bld.fmt)))
      else exponential bld (multiply bld.fmt b (PINF bld.fmt)) := by
  have hnot : ¬isNormal a = true := by rw [isNInf_iff] at ha; rw [isNormal_iff]; omega
  rw [power_of_negative bld (by simp [hnot]) (.inl ha) hb hint, lnMagnitude_of_isNInf bld ha]

end Bases

/-- Settles O37: each cell from the logarithm of the base and the sign of the exponent. -/
theorem powerSpecials : Obligations.PowerSpecials := by
  refine ⟨rfl, fun s e rest hs hlegal => ?_⟩
  have gives {r : Word} (h : power s.build e.a e.b = r) :
      exec .pow s = .next (s.drive ⟨r, 0, false⟩) := by rw [exec_cons hs, ← h]; rfl
  have hln : resultOf s.build .ln e.a 0 = some (logarithm s.build .e e.a) :=
    resultOf_eq_responseOf ..
  simp only [hln, Option.some_inj, Ne]
  obtain ⟨hpinfPos, hpinfZero, hpinfNeg⟩ := exponential_multiply_PINF s.build e.b
  obtain ⟨hninfPos, hninfZero, hninfNeg⟩ := exponential_multiply_NINF s.build e.b
  have hzero (hb : isNormal e.b = true) (hy : v s.build.fmt e.b = 0) :
      isZero s.build.fmt e.b = true := (isZero_iff _ _).mpr ⟨hb, hy⟩
  refine ⟨⟨_, gives rfl⟩, fun h => gives (power_of_isNaN _ h),
    fun ha hint => gives (power_of_not_integer _ ha hint),
    fun ha hx hb hy => gives (power_of_zeroExponent _ ha hx hb hy),
    fun ha hx hlog hb => gives (power_of_logarithm_eq_ZERO ha hx hlog hb),
    fun ha hx hne => ?_, fun ha hpos hx hne => ?_,
    fun ha hx hb => gives (power_of_one hlegal ha hx hb), fun ha hx hb => ?_,
    fun ha hx hb => ?_, fun ha hx hb => ?_, fun ha hx hb => ?_, fun ha hb => ?_, fun ha hb => ?_,
    fun ha hb => ?_, fun ha hb hint => ?_⟩
  · exact (power_of_above_one ha hx hne).imp (gives ∘ ·) (gives ∘ ·)
  · exact (power_of_below_one ha hpos hx hne).imp (gives ∘ ·) (gives ∘ ·)
  · exact gives (power_of_logarithm_eq_ZERO ha (hx ▸ by positivity)
      (logarithm_of_one .e ha hlegal hx) hb)
  · have hpow := power_of_zero ha hx (not_isNaN_of_isNormal hb)
    exact ⟨fun hy => gives (hpow.trans (hninfNeg (.inr ⟨hb, hy⟩))),
      fun hy => gives (hpow.trans (hninfZero (hzero hb hy))),
      fun hy => gives (hpow.trans (hninfPos (.inr ⟨hb, hy⟩)))⟩
  · have hpow := power_of_zero ha hx (not_isNaN_of_isInf (isInf_of_isPInf hb))
    exact gives (hpow.trans (hninfPos (.inl hb)))
  · have hpow := power_of_zero ha hx (not_isNaN_of_isInf (isInf_of_isNInf hb))
    exact gives (hpow.trans (hninfNeg (.inl hb)))
  · have hpow := power_of_isPInf (bld := s.build) ha (not_isNaN_of_isNormal hb)
    exact ⟨fun hy => gives (hpow.trans (hpinfNeg (.inr ⟨hb, hy⟩))),
      fun hy => gives (hpow.trans (hpinfZero (hzero hb hy))),
      fun hy => gives (hpow.trans (hpinfPos (.inr ⟨hb, hy⟩)))⟩
  · have hpow := power_of_isPInf (bld := s.build) ha (not_isNaN_of_isInf (isInf_of_isPInf hb))
    exact gives (hpow.trans (hpinfPos (.inl hb)))
  · have hpow := power_of_isPInf (bld := s.build) ha (not_isNaN_of_isInf (isInf_of_isNInf hb))
    exact gives (hpow.trans (hpinfNeg (.inl hb)))
  · have hpow := power_of_isNInf ha hb hint
    refine ⟨fun hy => gives ?_, fun hy => gives ?_, fun hy hodd => gives ?_,
      fun hy heven => gives ?_⟩
    · rw [hpow, hpinfNeg (.inr ⟨hb, hy⟩), negate_ZERO, ite_self]
    · rw [hpow, hpinfZero (hzero hb hy), negate_of_isNaN _ (isNaN_NAN _), ite_self]
    · rw [hpow, hpinfPos (.inr ⟨hb, hy⟩), negate_PINF, if_pos hodd]
    · rw [hpow, hpinfPos (.inr ⟨hb, hy⟩), heven, if_neg (by decide)]

end Sys2Proof.Machine

/-! SIN, COS, TAN and SINF in both modes of `TRANS_IMPL` (45_cordic_trig.md R345, R355, R358): their
values at the angle zero, and the bound on a result that is not interpreted. -/

namespace Sys2Proof.Machine

/-! ### The number that each operation encodes, from the reduced angle (R339 to R351, R358) -/

def sineValue (bld : Build) (r : Reduced) : Int :=
  match bld.trans with
  | .reference => outValue bld.fmt (sinColumn r)
  | .uninterpreted => trigOpen bld.fmt Config.sinValue 0 r

def cosineValue (bld : Build) (r : Reduced) : Int :=
  match bld.trans with
  | .reference => outValue bld.fmt (cosColumn r)
  | .uninterpreted => trigOpen bld.fmt Config.cosValue (2 ^ bld.fmt.F) r

def fastSineValue (bld : Build) (r : Reduced) : Int :=
  match bld.trans with
  | .reference => outValue bld.fmt (sinfColumn r)
  | .uninterpreted => trigOpen bld.fmt Config.sinfValue 0 r

section Values

variable (bld : Build) {a : Word} (h : isNormal a = true)
include h

theorem sine_eq_enc : sine bld a = enc bld.fmt (sineValue bld (reduce bld.fmt (v bld.fmt a))) := by
  simp only [sine, h, sineValue, Bool.not_true, Bool.false_eq_true, if_false]
  cases bld.trans <;> rfl

theorem cosine_eq_enc :
    cosine bld a = enc bld.fmt (cosineValue bld (reduce bld.fmt (v bld.fmt a))) := by
  simp only [cosine, h, cosineValue, Bool.not_true, Bool.false_eq_true, if_false]
  cases bld.trans <;> rfl

theorem fastSine_eq_enc :
    fastSine bld a = enc bld.fmt (fastSineValue bld (reduce bld.fmt (v bld.fmt a))) := by
  simp only [fastSine, h, fastSineValue, Bool.not_true, Bool.false_eq_true, if_false]
  cases bld.trans <;> rfl

end Values

/-! ### The angle zero (R335, R355) -/

theorem reduce_zero (fmt : Format) : reduce fmt 0 = ⟨0, 0, 0⟩ := by
  simp [reduce, rte_zero_left]

theorem columns_zero :
    sinColumn ⟨0, 0, 0⟩ = 0 ∧ cosColumn ⟨0, 0, 0⟩ = 2 ^ 28 ∧ sinfColumn ⟨0, 0, 0⟩ = 0 := by
  decide

theorem outValue_zero (fmt : Format) : outValue fmt 0 = 0 := by
  simp [outValue, rte_zero_left]

/-- One in the format of the engine is one in the format of the unit. -/
theorem outValue_one (fmt : Format) : outValue fmt (2 ^ 28) = 2 ^ fmt.F := by
  unfold outValue cordicBits
  split
  · next hF =>
    rw [← Nat.add_sub_cancel' hF, pow_add, Nat.add_sub_cancel_left, rte_mul_two_pow]
  · next hF => rw [← pow_add, Nat.add_sub_cancel' (not_le.mp hF).le]

theorem values_zero (bld : Build) :
    sineValue bld ⟨0, 0, 0⟩ = 0 ∧ cosineValue bld ⟨0, 0, 0⟩ = 2 ^ bld.fmt.F ∧
      fastSineValue bld ⟨0, 0, 0⟩ = 0 := by
  obtain ⟨hsin, hcos, hsinf⟩ := columns_zero
  unfold sineValue cosineValue fastSineValue
  cases bld.trans with
  | reference =>
    simp only [hsin, hcos, hsinf]
    exact ⟨outValue_zero _, outValue_one _, outValue_zero _⟩
  | uninterpreted => exact ⟨if_pos ⟨rfl, rfl⟩, if_pos ⟨rfl, rfl⟩, if_pos ⟨rfl, rfl⟩⟩

section Zero

variable {bld : Build} {a : Word} (h : isNormal a = true) (hv : v bld.fmt a = 0)
include h hv

theorem trig_of_zero : sine bld a = ZERO bld.fmt ∧ cosine bld a = ONE bld.fmt ∧
    fastSine bld a = ZERO bld.fmt := by
  obtain ⟨hsin, hcos, hsinf⟩ := values_zero bld
  rw [sine_eq_enc bld h, cosine_eq_enc bld h, fastSine_eq_enc bld h, hv, reduce_zero, hsin, hcos,
    hsinf]
  exact ⟨rfl, rfl, rfl⟩

theorem tangent_of_zero (hlegal : bld.fmt.legal = true) : tangent bld a = ZERO bld.fmt := by
  obtain ⟨hsin, hcos, -⟩ := trig_of_zero h hv
  have hone := v_ONE hlegal
  rw [tangent, hsin, hcos, divide_of_ne_zero bld.fmt (isNormal_ZERO _) (isNormal_ONE _)
    (hone ▸ by positivity), v_ZERO, zero_mul, hone, rne_two_pow, rte_zero_left, sat_zero]

end Zero

theorem tangent_of_not_isNormal (bld : Build) {a : Word} (h : isNormal a = false) :
    tangent bld a = NAN bld.fmt := by
  obtain ⟨hsin, -, -⟩ := trig_of_not_isNormal bld h
  rw [tangent, hsin, divide_of_isNaN _ (.inl (isNaN_NAN _))]

/-! ### The bound on a result that is not interpreted (R358) -/

/-- The bound is at least one. -/
theorem two_pow_F_le_trigBound (fmt : Format) : 2 ^ fmt.F ≤ trigBound fmt := by
  unfold trigBound outValue cordicBits
  split
  · next hF =>
    have hone : (2 : Int) ^ fmt.F * 2 ^ (28 - fmt.F) = 2 ^ 28 := by
      rw [← pow_add, Nat.add_sub_cancel' hF]
    obtain ⟨hlo, -⟩ := rte_range (x := 2 ^ 28 + 5) (lo := 2 ^ fmt.F) (hi := 2 ^ 28 + 5)
      (s := 28 - fmt.F) (by omega) (le_mul_of_one_le_right (by decide) (one_le_pow₀ one_le_two))
    exact hlo
  · next hF =>
    have hone : (2 : Int) ^ fmt.F = 2 ^ 28 * 2 ^ (fmt.F - 28) := by
      rw [← pow_add, Nat.add_sub_cancel' (not_le.mp hF).le]
    rw [hone]
    exact mul_le_mul_of_nonneg_right (by decide) (by positivity)

theorem trigBound_nonneg (fmt : Format) : 0 ≤ trigBound fmt :=
  (show (0 : Int) ≤ 2 ^ fmt.F by positivity).trans (two_pow_F_le_trigBound fmt)

theorem trigBound_le_vmax {fmt : Format} (hlegal : fmt.legal = true) :
    trigBound fmt ≤ vmax fmt :=
  have ⟨_, hhi⟩ := outValue_range hlegal (z := 2 ^ 28 + 5) (by decide)
  hhi

theorem abs_clampTrig_le (fmt : Format) (x : Int) : |clampTrig fmt x| ≤ trigBound fmt := by
  have hB := trigBound_nonneg fmt
  rw [abs_le, clampTrig]
  omega

theorem abs_trigOpen_le {fmt : Format} (free : Format → Nat → Nat → Int) {origin : Int}
    (horigin : |origin| ≤ trigBound fmt) (r : Reduced) :
    |trigOpen fmt free origin r| ≤ trigBound fmt := by
  unfold trigOpen
  split
  · exact horigin
  · exact abs_clampTrig_le fmt _

theorem abs_values_le {bld : Build} (htrans : bld.trans = .uninterpreted) (r : Reduced) :
    |sineValue bld r| ≤ trigBound bld.fmt ∧ |cosineValue bld r| ≤ trigBound bld.fmt ∧
      |fastSineValue bld r| ≤ trigBound bld.fmt := by
  have hzero : |(0 : Int)| ≤ trigBound bld.fmt := trigBound_nonneg bld.fmt
  have hone : |(2 : Int) ^ bld.fmt.F| ≤ trigBound bld.fmt := by
    rw [abs_of_nonneg (by positivity)]
    exact two_pow_F_le_trigBound bld.fmt
  simp only [sineValue, cosineValue, fastSineValue, htrans]
  exact ⟨abs_trigOpen_le _ hzero r, abs_trigOpen_le _ hone r, abs_trigOpen_le _ hzero r⟩

/-- A number within the bound is the value of its encoding, as the bound is of its own. -/
theorem abs_v_enc_le {fmt : Format} (hlegal : fmt.legal = true) {n : Int}
    (h : |n| ≤ trigBound fmt) : |v fmt (enc fmt n)| ≤ v fmt (enc fmt (trigBound fmt)) := by
  have hmax := trigBound_le_vmax hlegal
  have hmin := vmax_eq_neg_vmin_sub_one fmt
  have hB := trigBound_nonneg fmt
  obtain ⟨hlo, hhi⟩ := abs_le.mp h
  rwa [v_enc (by omega) (hhi.trans hmax), v_enc (by omega) hmax]

/-! ### The four operations (R345, R358) -/

/-- SIN, COS and SINF of a normal encode a number, within the bound where it is not interpreted. -/
theorem responseOf_trig_of_isNormal (bld : Build) {a : Word} (b : Word) (h : isNormal a = true)
    {i : Instr} (hi : i ∈ [Instr.sin, .cos, .sinf]) :
    ∃ n, responseOf i bld a b = ⟨enc bld.fmt n, 0, false⟩ ∧
      (bld.trans = .uninterpreted → |n| ≤ trigBound bld.fmt) := by
  simp only [List.mem_cons, List.not_mem_nil, or_false] at hi
  obtain rfl | rfl | rfl := hi
  · refine ⟨_, by rw [← sine_eq_enc bld h]; rfl, fun htrans => ?_⟩
    obtain ⟨hsin, -, -⟩ := abs_values_le htrans (reduce bld.fmt (v bld.fmt a))
    exact hsin
  · refine ⟨_, by rw [← cosine_eq_enc bld h]; rfl, fun htrans => ?_⟩
    obtain ⟨-, hcos, -⟩ := abs_values_le htrans (reduce bld.fmt (v bld.fmt a))
    exact hcos
  · refine ⟨_, by rw [← fastSine_eq_enc bld h]; rfl, fun htrans => ?_⟩
    obtain ⟨-, -, hsinf⟩ := abs_values_le htrans (reduce bld.fmt (v bld.fmt a))
    exact hsinf

theorem responseOf_trig_of_not_isNormal (bld : Build) {a : Word} (b : Word)
    (h : isNormal a = false) {i : Instr} (hi : i ∈ [Instr.sin, .cos, .tan, .sinf]) :
    responseOf i bld a b = ⟨NAN bld.fmt, 0, false⟩ := by
  obtain ⟨hsin, hcos, hsinf⟩ := trig_of_not_isNormal bld h
  simp only [List.mem_cons, List.not_mem_nil, or_false] at hi
  obtain rfl | rfl | rfl | rfl := hi
  · rw [← hsin]; rfl
  · rw [← hcos]; rfl
  · rw [← tangent_of_not_isNormal bld h]; rfl
  · rw [← hsinf]; rfl

/-- Two normals with one reduced angle have one response. -/
theorem responseOf_trig_congr {bld : Build} {a a' : Word} (b b' : Word) (h : isNormal a = true)
    (h' : isNormal a' = true)
    (hreduce : reduce bld.fmt (v bld.fmt a) = reduce bld.fmt (v bld.fmt a')) {i : Instr}
    (hi : i ∈ [Instr.sin, .cos, .tan, .sinf]) : responseOf i bld a b = responseOf i bld a' b' := by
  have hsin : sine bld a = sine bld a' := by
    rw [sine_eq_enc bld h, sine_eq_enc bld h', hreduce]
  have hcos : cosine bld a = cosine bld a' := by
    rw [cosine_eq_enc bld h, cosine_eq_enc bld h', hreduce]
  have hsinf : fastSine bld a = fastSine bld a' := by
    rw [fastSine_eq_enc bld h, fastSine_eq_enc bld h', hreduce]
  simp only [List.mem_cons, List.not_mem_nil, or_false] at hi
  obtain rfl | rfl | rfl | rfl := hi <;> simp only [responseOf, tangent, hsin, hcos, hsinf]

theorem responseOf_trig_eq_y (bld : Build) (a b : Word) {i : Instr}
    (hi : i ∈ [Instr.sin, .cos, .tan, .sinf]) :
    responseOf i bld a b = ⟨(responseOf i bld a b).y, 0, false⟩ := by
  simp only [List.mem_cons, List.not_mem_nil, or_false] at hi
  obtain rfl | rfl | rfl | rfl := hi <;> rfl

/-- Settles O40: the specials, the values at zero, and the numbers encoded from the reduced angle. -/
theorem trigonometricSpecialsAndZero : Obligations.TrigonometricSpecialsAndZero := by
  refine ⟨rfl, rfl, rfl, rfl, fun s e rest hs hlegal => ?_⟩
  simp only [exec_cons hs]
  refine ⟨fun i hi h => ?_, fun h hv => ?_, fun i hi h => ?_, fun i hi a y h h' hreduce hy => ?_⟩
  · rw [responseOf_trig_of_not_isNormal s.build e.b h hi]
  · obtain ⟨hsin, hcos, hsinf⟩ := trig_of_zero h hv
    have htan := tangent_of_zero h hv hlegal
    simp only [responseOf, resultY, hsin, hcos, htan, hsinf, and_self]
  · obtain ⟨n, hresponse, hbound⟩ := responseOf_trig_of_isNormal s.build e.b h hi
    exact ⟨enc s.build.fmt n, isNormal_enc _ n, by rw [hresponse],
      fun htrans => abs_v_enc_le hlegal (hbound htrans)⟩
  · rw [resultOf_eq_responseOf, Option.some_inj] at hy
    rw [responseOf_trig_congr e.b 0 h h' hreduce hi, responseOf_trig_eq_y s.build a 0 hi, hy]

end Sys2Proof.Machine

/-! Specials over the whole command set (30_encoding.md R83, R91; 60_exceptions.md R381): a NaN operand
that is read gives NAN, and an operation on packed values reads a special by its tag alone. -/

namespace Sys2Proof.Machine

/-! ### A NaN operand (R381) -/

theorem not_isNormal_of_isNaN {a : Word} (h : isNaN a = true) : isNormal a = false := by
  rw [isNaN_iff] at h
  rw [← Bool.not_eq_true, isNormal_iff]
  omega

theorem responseOf_unaryFix_of_isNaN {i : Instr} (hi : i ∈ unaryFix) (bld : Build) {a : Word}
    (b : Word) (h : isNaN a = true) : responseOf i bld a b = ⟨NAN bld.fmt, 0, false⟩ := by
  have hround (part : Int → Int) : roundFix bld.fmt part a = NAN bld.fmt :=
    have ⟨hnan, _⟩ := roundFix_specials bld.fmt part (a := a)
    hnan h
  have hlog (base : LogBase) : logarithm bld base a = NAN bld.fmt :=
    have ⟨hnan, _⟩ := logarithm_specials bld base (a := a)
    hnan h
  obtain ⟨hsqrt, -⟩ := squareRoot_specials bld.fmt a
  obtain ⟨hexp, -⟩ := exponential_specials bld a
  have htan := tangent_of_not_isNormal bld (not_isNormal_of_isNaN h)
  obtain ⟨hsin, hcos, hsinf⟩ := trig_of_not_isNormal bld (not_isNormal_of_isNaN h)
  fin_cases hi <;>
    simp only [responseOf, resultY, negate_of_isNaN _ h, absolute_of_isNaN _ h, hround, hlog,
      hsqrt (.inl h), hexp h, hsin, hcos, htan, hsinf]

theorem responseOf_binaryFix_of_isNaN {i : Instr} (hi : i ∈ binaryFix) (bld : Build) {a b : Word}
    (h : isNaN a = true ∨ isNaN b = true) : responseOf i bld a b = ⟨NAN bld.fmt, 0, false⟩ := by
  fin_cases hi <;>
    simp only [responseOf, resultY, addition_of_isNaN _ h, subtraction_of_isNaN _ h,
      multiply_of_isNaN _ h, divide_of_isNaN _ h, power_of_isNaN _ h]

/-- Settles O45: each operation's own lemma on a NaN operand. -/
theorem naNPropagates : Obligations.NaNPropagates := by
  intro s e rest hs
  refine ⟨fun i hi h => ?_, fun i hi h => ?_⟩
  · rw [exec_cons hs, responseOf_unaryFix_of_isNaN hi s.build e.b h]
  · rw [exec_cons hs, responseOf_binaryFix_of_isNaN hi s.build h]

/-! ### The canonical pattern of a word's tag (R83) -/

theorem canonical_of_isNormal (fmt : Format) {a : Word} (h : isNormal a = true) :
    canonical fmt a = a := by
  simp [canonical, tags_of_isNormal h]

@[simp] theorem tag_canonical (fmt : Format) (a : Word) : tag (canonical fmt a) = tag a := by
  obtain ⟨hnan, hpinf, hninf⟩ := kind_of_canonical fmt.width
  unfold canonical
  split_ifs with h1 h2 h3
  · exact (eq_of_beq hnan).trans (eq_of_beq h1).symm
  · exact (eq_of_beq hpinf).trans (eq_of_beq h2).symm
  · exact (eq_of_beq hninf).trans (eq_of_beq h3).symm
  · rfl

/-- A word is its own canonical word, or a special, whose tag says which. -/
theorem canonical_eq_or_special (fmt : Format) (a : Word) :
    canonical fmt a = a ∨ tag a = 1#2 ∨ tag a = 2#2 ∨ tag a = 3#2 := by
  unfold canonical
  split_ifs with hnan hpinf hninf
  · exact .inr (.inl (eq_of_beq hnan))
  · exact .inr (.inr (.inl (eq_of_beq hpinf)))
  · exact .inr (.inr (.inr (eq_of_beq hninf)))
  · exact .inl rfl

theorem kind_canonical (fmt : Format) (a : Word) :
    isNormal (canonical fmt a) = isNormal a ∧ isNaN (canonical fmt a) = isNaN a ∧
      isPInf (canonical fmt a) = isPInf a ∧ isNInf (canonical fmt a) = isNInf a := by
  simp only [isNormal, isNaN, isPInf, isNInf, tag_canonical, and_self]

/-- A function with one value on all words of a special tag reads a special by its tag alone. -/
theorem eq_canonical_of_specials {α : Type} {f : Word → α} {x y z : α} (fmt : Format)
    (h : ∀ a, (isNaN a = true → f a = x) ∧ (isPInf a = true → f a = y) ∧
      (isNInf a = true → f a = z)) (a : Word) : f (canonical fmt a) = f a := by
  obtain ⟨-, hknan, hkpinf, hkninf⟩ := kind_canonical fmt a
  obtain ⟨hnan, hpinf, hninf⟩ := h a
  obtain ⟨hnan', hpinf', hninf'⟩ := h (canonical fmt a)
  rw [hknan] at hnan'
  rw [hkpinf] at hpinf'
  rw [hkninf] at hninf'
  obtain heq | htag | htag | htag := canonical_eq_or_special fmt a
  · rw [heq]
  · rw [hnan (beq_iff_eq.mpr htag), hnan' (beq_iff_eq.mpr htag)]
  · rw [hpinf (beq_iff_eq.mpr htag), hpinf' (beq_iff_eq.mpr htag)]
  · rw [hninf (beq_iff_eq.mpr htag), hninf' (beq_iff_eq.mpr htag)]

/-! ### Operations on one packed value (R91) -/

section Unary

variable (fmt : Format) (bld : Build) (a : Word)

theorem negate_canonical : negate fmt (canonical fmt a) = negate fmt a := by
  refine eq_canonical_of_specials (x := NAN fmt) (y := NINF fmt) (z := PINF fmt) fmt
    (fun a => ⟨negate_of_isNaN fmt, fun h => ?_, fun h => ?_⟩) a
  · simp [negate_of_isInf, infOf, h]
  · simp [negate_of_isInf, infOf, h]

theorem absolute_canonical : absolute fmt (canonical fmt a) = absolute fmt a :=
  eq_canonical_of_specials fmt (fun _ => ⟨absolute_of_isNaN fmt,
    fun h => absolute_of_isInf fmt (isInf_of_isPInf h),
    fun h => absolute_of_isInf fmt (isInf_of_isNInf h)⟩) a

theorem roundFix_canonical (part : Int → Int) :
    roundFix fmt part (canonical fmt a) = roundFix fmt part a :=
  eq_canonical_of_specials fmt (fun _ => roundFix_specials fmt part) a

theorem roundInt_canonical (part : Int → Int) :
    roundInt fmt part (canonical fmt a) = roundInt fmt part a :=
  eq_canonical_of_specials fmt (fun _ => roundInt_specials fmt part) a

theorem toDouble_canonical : toDouble fmt (canonical fmt a) = toDouble fmt a :=
  eq_canonical_of_specials fmt (toDouble_specials fmt) a

theorem squareRoot_canonical : squareRoot fmt (canonical fmt a) = squareRoot fmt a :=
  eq_canonical_of_specials fmt (fun a =>
    have ⟨hnan, hpinf⟩ := squareRoot_specials fmt a
    ⟨fun h => hnan (.inl h), hpinf, fun h => hnan (.inr (.inl h))⟩) a

theorem exponential_canonical : exponential bld (canonical bld.fmt a) = exponential bld a :=
  eq_canonical_of_specials bld.fmt (exponential_specials bld) a

theorem logarithm_canonical (base : LogBase) :
    logarithm bld base (canonical bld.fmt a) = logarithm bld base a :=
  eq_canonical_of_specials bld.fmt (fun _ => logarithm_specials bld base) a

/-- The three operations give NAN on every special. -/
theorem trig_canonical : sine bld (canonical bld.fmt a) = sine bld a ∧
    cosine bld (canonical bld.fmt a) = cosine bld a ∧
    fastSine bld (canonical bld.fmt a) = fastSine bld a := by
  cases h : isNormal a with
  | true =>
    rw [canonical_of_isNormal bld.fmt h]
    exact ⟨rfl, rfl, rfl⟩
  | false =>
    obtain ⟨hkind, -⟩ := kind_canonical bld.fmt a
    obtain ⟨hsin, hcos, hsinf⟩ := trig_of_not_isNormal bld h
    obtain ⟨hsin', hcos', hsinf'⟩ := trig_of_not_isNormal bld (hkind.trans h)
    exact ⟨hsin'.trans hsin.symm, hcos'.trans hcos.symm, hsinf'.trans hsinf.symm⟩

theorem tangent_canonical : tangent bld (canonical bld.fmt a) = tangent bld a := by
  obtain ⟨hsin, hcos, -⟩ := trig_canonical bld a
  rw [tangent, hsin, hcos, tangent]

end Unary

/-! ### Operations on two packed values (R91) -/

section Binary

variable (fmt : Format) (bld : Build) (a b : Word)

theorem isZero_canonical : isZero fmt (canonical fmt a) = isZero fmt a := by
  obtain h | h | h | h := canonical_eq_or_special fmt a
  · rw [h]
  all_goals simp [isZero, isNormal, h]

theorem key_canonical (h : isNaN a = false) : key fmt (canonical fmt a) = key fmt a := by
  obtain ht | ht | ht | ht := canonical_eq_or_special fmt a
  · rw [ht]
  · simp [isNaN, ht] at h
  all_goals simp [key, isPInf, isNInf, ht]

theorem equals_canonical :
    equals fmt (canonical fmt a) (canonical fmt b) = equals fmt a b := by
  obtain ⟨ha, -, hpa, hna⟩ := kind_canonical fmt a
  obtain ⟨hb, -, hpb, hnb⟩ := kind_canonical fmt b
  rw [Bool.eq_iff_iff, equals_iff, equals_iff, ha, hpa, hna, hb, hpb, hnb]
  refine or_congr_right (or_congr_right (and_congr_right fun ha => and_congr_right fun hb => ?_))
  rw [canonical_of_isNormal fmt ha, canonical_of_isNormal fmt hb]

theorem equalsWithNaN_canonical :
    equalsWithNaN fmt (canonical fmt a) (canonical fmt b) = equalsWithNaN fmt a b := by
  obtain ⟨-, ha, -⟩ := kind_canonical fmt a
  obtain ⟨-, hb, -⟩ := kind_canonical fmt b
  rw [equalsWithNaN, ha, hb, equals_canonical, equalsWithNaN]

theorem compare_canonical :
    compare fmt (canonical fmt a) (canonical fmt b) = compare fmt a b := by
  obtain ⟨-, ha, -⟩ := kind_canonical fmt a
  obtain ⟨-, hb, -⟩ := kind_canonical fmt b
  by_cases hnan : isNaN a = true ∨ isNaN b = true
  · rw [compare_of_isNaN fmt hnan, compare_of_isNaN fmt (by rwa [ha, hb])]
  · obtain ⟨hna, hnb⟩ := not_or.mp hnan
    rw [Bool.not_eq_true] at hna hnb
    rw [compare, ha, hb, key_canonical fmt a hna, key_canonical fmt b hnb, compare]

theorem addition_canonical_left : addition fmt (canonical fmt a) b = addition fmt a b := by
  obtain h | h | h | h := canonical_eq_or_special fmt a
  · rw [h]
  all_goals simp [addition, isNaN, isInf, isPInf, isNInf, h]

theorem subtraction_canonical_left :
    subtraction fmt (canonical fmt a) b = subtraction fmt a b := by
  obtain h | h | h | h := canonical_eq_or_special fmt a
  · rw [h]
  all_goals simp [subtraction, isNaN, isInf, isPInf, isNInf, h]

theorem subtraction_canonical_right :
    subtraction fmt a (canonical fmt b) = subtraction fmt a b := by
  obtain h | h | h | h := canonical_eq_or_special fmt b
  · rw [h]
  all_goals simp [subtraction, isNaN, isInf, isPInf, isNInf, h]

theorem multiply_canonical_left : multiply fmt (canonical fmt a) b = multiply fmt a b := by
  obtain h | h | h | h := canonical_eq_or_special fmt a
  · rw [h]
  all_goals simp [multiply, isZero, neg, isNormal, isNaN, isInf, isPInf, isNInf, h]

theorem divide_canonical_left : divide fmt (canonical fmt a) b = divide fmt a b := by
  obtain h | h | h | h := canonical_eq_or_special fmt a
  · rw [h]
  all_goals simp [divide, neg, isNaN, isInf, isPInf, isNInf, h]

theorem divide_canonical_right : divide fmt a (canonical fmt b) = divide fmt a b := by
  obtain h | h | h | h := canonical_eq_or_special fmt b
  · rw [h]
  all_goals simp [divide, neg, isNaN, isInf, isPInf, isNInf, h]

theorem power_canonical_left : power bld (canonical bld.fmt a) b = power bld a b := by
  obtain h | h | h | h := canonical_eq_or_special bld.fmt a
  · rw [h]
  all_goals simp [power, zeroExponent, lnMagnitude, logarithm, isNormal, isNaN, isPInf, isNInf, h]

theorem power_canonical_right : power bld a (canonical bld.fmt b) = power bld a b := by
  obtain h | h | h | h := canonical_eq_or_special bld.fmt b
  · rw [h]
  all_goals
    simp [power, zeroExponent, isZero_canonical, multiply_canonical_left, isNormal, isNaN, h]

end Binary

/-! ### Every operation on packed values (R91) -/

theorem responseOf_canonical {i : Instr} (h : ReadsRawBits i = false) (bld : Build) (a b : Word) :
    responseOf i bld (canonical bld.fmt a) (canonical bld.fmt b) = responseOf i bld a b := by
  obtain ⟨-, hnan, hpinf, hninf⟩ := kind_canonical bld.fmt a
  obtain ⟨hsin, hcos, hsinf⟩ := trig_canonical bld a
  cases i with
  | isneg | rshre | fromdbl | lit => cases h
  | isnan => simp only [responseOf, hnan]
  | ispinf => simp only [responseOf, hpinf]
  | isninf => simp only [responseOf, hninf]
  | eq => simp only [responseOf, equals_canonical]
  | eqn => simp only [responseOf, equalsWithNaN_canonical]
  | cmp => simp only [responseOf, compare_canonical]
  | neg => simp only [responseOf, negate_canonical]
  | abs => simp only [responseOf, absolute_canonical]
  | add =>
    simp only [responseOf, addition_canonical_left]
    rw [addition_comm, addition_canonical_left, addition_comm]
  | sub => simp only [responseOf, subtraction_canonical_left, subtraction_canonical_right]
  | mul =>
    simp only [responseOf, multiply_canonical_left]
    rw [multiply_comm, multiply_canonical_left, multiply_comm]
  | div => simp only [responseOf, divide_canonical_left, divide_canonical_right]
  | floor | ceil | rnde | rndhu => simp only [responseOf, roundFix_canonical]
  | floori | ceili | rndei | rndhui => simp only [responseOf, roundInt_canonical]
  | todbl => simp only [responseOf, toDouble_canonical]
  | const sel => rfl
  | sqrt => simp only [responseOf, squareRoot_canonical]
  | exp => simp only [responseOf, exponential_canonical]
  | ln | log2 | log10 => simp only [responseOf, logarithm_canonical]
  | pow => simp only [responseOf, power_canonical_left, power_canonical_right]
  | sin => simp only [responseOf, hsin]
  | cos => simp only [responseOf, hcos]
  | tan => simp only [responseOf, tangent_canonical]
  | sinf => simp only [responseOf, hsinf]

/-- Settles O46: `execute` of an instruction's word is `responseOf`, within the limits of R107 and
outside them. -/
theorem specialsAreReadByTheirTag : Obligations.SpecialsAreReadByTheirTag := by
  intro bld i a b hraw _
  rw [execute_encode, execute_encode, responseOf_canonical hraw]

end Sys2Proof.Machine

/-! FROMDBL after TODBL (43_round_convert.md R243): a value field of at most 53 bits is a binary64 value,
which the ports carry whole and FROMDBL reads without rounding. -/

namespace Sys2Proof.Machine

/-- The pattern that TODBL puts on its result ports is what FROMDBL reads from its operand ports
(R62). -/
theorem dblOperand_resultDbl (fmt : Format) (d : BitVec 64) :
    dblOperand fmt (resultDbl fmt d).y (resultDbl fmt d).yh = d := by
  cases hw : fmt.width with
  | w64 => rw [dblOperand_of_ne_w32 (by simp [hw]), resultDbl_of_w64 hw]
  | w32 =>
    have hd := d.isLt
    apply BitVec.eq_of_toNat_eq
    rw [dblOperand_toNat hw, resultDbl_of_w32 hw]
    simp only [BitVec.toNat_ofNat]
    omega

/-- A magnitude of at most 53 bits is its own significand, but for its place. -/
theorem significand_of_lt {n : Nat} (hn : n ≠ 0) (h : n < 2 ^ 53) :
    n.log2 ≤ 52 ∧ significand n = n * 2 ^ (52 - n.log2) := by
  have hlog : n.log2 ≤ 52 := Nat.le_of_lt_succ ((Nat.log2_lt hn).mpr h)
  exact ⟨hlog, if_pos hlog⟩

/-- A number from its sign and its scaled magnitude. -/
theorem ite_natAbs_mul (x : Int) (c : Nat) :
    (if decide (x < 0) then -((x.natAbs * c : Nat) : Int) else (x.natAbs * c : Nat)) = x * c := by
  rw [Nat.cast_mul]
  split
  · next hneg =>
    have hx : (x.natAbs : Int) = -x := Int.ofNat_natAbs_of_nonpos (of_decide_eq_true hneg).le
    rw [hx, neg_mul, neg_neg]
  · next hnonneg =>
    rw [decide_eq_true_iff, not_lt] at hnonneg
    rw [Int.natAbs_of_nonneg hnonneg]

theorem F_le_sixty {fmt : Format} (hlegal : fmt.legal = true) : fmt.F ≤ 60 := by
  have hle : fmt.F + 4 ≤ fmt.width.bits := (legal_iff fmt).mp hlegal
  have hW := Width.bits_le fmt.width
  omega

/-- The pattern of a normal of at most 53 bits has exactly its value (R241, R243). -/
theorem toDouble_exact {fmt : Format} {a : Word} (hlegal : fmt.legal = true)
    (ha : isNormal a = true) (h : |v fmt a| < 2 ^ 53) :
    dblExp (toDouble fmt a) ≠ 2047 ∧
      dblScaled (toDouble fmt a) * 2 ^ fmt.F = v fmt a * 2 ^ 1075 := by
  rw [toDouble_of_isNormal ha]
  split
  · next hzero =>
    have hscaled : dblScaled 0#64 = 0 := by decide
    exact ⟨by decide, by rw [hscaled, hzero, zero_mul, zero_mul]⟩
  · next hne =>
    have hn : (v fmt a).natAbs ≠ 0 := Int.natAbs_ne_zero.mpr hne
    have hF := F_le_sixty hlegal
    obtain ⟨hlog, hsig⟩ := significand_of_lt hn (by rw [Int.abs_eq_natAbs] at h; omega)
    obtain ⟨hfinite, hscaled, -⟩ := dblOfMagnitude_value (fmt := fmt) (decide (v fmt a < 0)) hn
      (by omega) (by omega)
    have hpow : (2 : Int) ^ (52 - (v fmt a).natAbs.log2) *
        2 ^ ((v fmt a).natAbs.log2 + 1023 - fmt.F) * 2 ^ fmt.F = 2 ^ 1075 := by
      rw [← pow_add, ← pow_add]
      congr 1
      omega
    refine ⟨hfinite, ?_⟩
    rw [hscaled, hsig, ite_natAbs_mul, ← hpow, Nat.cast_pow, Nat.cast_ofNat, mul_assoc, mul_assoc,
      mul_assoc]

/-- A value field of a 32-bit unit has at most 53 bits. -/
theorem abs_v_lt_of_w32 {fmt : Format} (h : fmt.width = .w32) (a : Word) :
    |v fmt a| < 2 ^ 53 := by
  obtain ⟨hlo, hhi⟩ := v_range fmt a
  simp only [vmin, vmax, Format.W, h, Width.bits] at hlo hhi
  rw [abs_lt]
  omega

/-- Settles O28: the exact value is its own rounding, and the value field is in range. -/
theorem doubleRoundTripIsExact : Obligations.DoubleRoundTripIsExact := by
  intro bld a r hlegal ha hfits hsmall hr
  rw [execute_encode, Option.some_inj] at hr
  have hlt : |v bld.fmt a| < 2 ^ 53 := hsmall.elim (fun hw => abs_v_lt_of_w32 hw a) id
  obtain ⟨hfinite, hexact⟩ := toDouble_exact hlegal ha hlt
  obtain ⟨k, hk, hword⟩ := fromDouble_of_finite bld.fmt hfinite
  have hpos : (0 : Int) < 2 ^ 1075 := by positivity
  rw [hexact] at hk
  obtain rfl := hk.unique hpos (nearestEven_of_mul_eq hpos rfl)
  rw [resultOf_eq_responseOf, ← hr]
  simp only [responseOf, resultY, dblOperand_resultDbl, hword, sat_v hfits ha]

end Sys2Proof.Machine
